-- ==== Sys2Proof/Word.lean ====
section
/-!
DEFINITION. The two word types of the block: bytes (00_scope R8, R12) and 32-bit registers (00_scope R10).
-/

namespace Sys2Proof

/-- A byte: an integer 0-255 (R12), kept as eight bits because software sees and compares bits of it (R66). -/
abbrev Byte := BitVec 8

/-- A register value or a host bus address: 32 bits (R10, R60). -/
abbrev Word := BitVec 32

end Sys2Proof
end

