-- ==== Sys2Proof/Syntax.lean ====
section
/-!
DEFINITION. The commands of spec/opcode_table.json (30_encoding R91, R93), and the host's accesses
(30_encoding R108, R109; 20_memory R60 to R64).
-/

namespace Sys2Proof

/-- CMD.OP (30_encoding R90): what a command does. -/
inductive Op where
  | compress
  | decompress
  deriving DecidableEq, Repr

/-- The commands, one constructor per row of the opcode table. The reserved bits of a command word, and every bit
but START of a NOP, are ignored (R92, R312), so they are no operands. -/
inductive Instr where
  /-- NOP (43_dispatch R312). -/
  | nop
  /-- HUF.ENC (40_huffman R177). -/
  | hufEnc
  /-- HUF.DEC (40_huffman R189). -/
  | hufDec
  /-- RLE.ENC (42_runlength R277). -/
  | rleEnc
  /-- RLE.DEC (42_runlength R282). -/
  | rleDec
  /-- LZ.ENC (41_window R231). -/
  | lzEnc
  /-- LZ.DEC (41_window R239). -/
  | lzDec
  /-- UNSUP.ENC (43_dispatch R330): compress with the unsupported selector `alg`, 0x03-0xFF. -/
  | unsupEnc (alg : Byte)
  /-- UNSUP.DEC (43_dispatch R330): decompress with the unsupported selector `alg`, 0x03-0xFF. -/
  | unsupDec (alg : Byte)
  deriving DecidableEq, Repr

/-- What the host does to the block in one bus access (R108), or to its reset input (R390). -/
inductive HostAccess where
  /-- A read of `size` bytes at `addr`: `rd32` is size 4, `rdb` is size 1. -/
  | read (addr : Word) (size : Nat)
  /-- A write of `size` bytes at `addr`: `wr32` is size 4, `wrb` is size 1 and writes the low byte of `value`. -/
  | write (addr : Word) (size : Nat) (value : Word)
  /-- `poll` (R108): repeat `rd32 addr` until the field of bits hi to lo equals `value`. -/
  | poll (addr : Word) (hi lo : Nat) (value : Nat)
  /-- `fetch` (R109): `rd32 lenAddr` giving m, then m one-byte reads from `dataAddr` up. -/
  | readBlock (lenAddr dataAddr : Word)
  /-- The external reset input (R390, R391). -/
  | reset
  deriving DecidableEq, Repr

end Sys2Proof
end

