-- ==== Sys2Proof/WellFormed.lean ====
section
/-!
DEFINITION. Which terms of `Instr` are commands of the block: an unsupported selector is 0x03-0xFF (30_encoding R92, R93).
-/

namespace Sys2Proof

/-- The selectors with a coder are 0x00, 0x01 and 0x02 (30_encoding R91); 0x03-0xFF have none (R92). -/
def supportedAlg (alg : Byte) : Bool := decide (alg.toNat < 3)

/-- UNSUP.ENC and UNSUP.DEC match only after the six algorithm rows have failed (R93). Every other command has no operand. -/
def Instr.wf : Instr → Bool
  | .nop => true
  | .hufEnc => true
  | .hufDec => true
  | .rleEnc => true
  | .rleDec => true
  | .lzEnc => true
  | .lzDec => true
  | .unsupEnc alg => !supportedAlg alg
  | .unsupDec alg => !supportedAlg alg

end Sys2Proof
end

