-- ==== Sys2Proof/Decode.lean ====
section
/-!
DEFINITION. Decoding and encoding a command word (30_encoding R90 to R93, R107).
-/

namespace Sys2Proof

/-- START = w[0] (R90). -/
def fieldStart (w : Word) : Bool := w.getLsbD 0

/-- OP = w[1] (R90): 0 is COMPRESS, 1 is DECOMPRESS. -/
def fieldOp (w : Word) : Op := if w.getLsbD 1 then .decompress else .compress

/-- ALG = w[15:8] (R90). -/
def fieldAlg (w : Word) : Byte := w.extractLsb' 8 8

/-- The command a set START bit selects, from OP and ALG: the last four lines of R91, and the mux of 43_dispatch R313. -/
def selectInstr (op : Op) (alg : Byte) : Instr :=
  if alg = 0x00 then (match op with | .compress => .hufEnc | .decompress => .hufDec)
  else if alg = 0x01 then (match op with | .compress => .rleEnc | .decompress => .rleDec)
  else if alg = 0x02 then (match op with | .compress => .lzEnc | .decompress => .lzDec)
  else (match op with | .compress => .unsupEnc alg | .decompress => .unsupDec alg)

/-- R91: total over all 2^32 words. The reserved bits w[7:2] and w[31:16] are not looked at (R92). -/
def decodeCmd (w : Word) : Instr :=
  if fieldStart w then selectInstr (fieldOp w) (fieldAlg w) else .nop

/-- Why a bit string is not a command word; a command word itself is never rejected (R91). -/
inductive DecodeReject where
  /-- It has more than the 32 bits of a command word (R90, R104). -/
  | longerThanCommandWord
  /-- Its value does not fit the number of bits it is said to have. -/
  | valueDoesNotFit
  deriving DecidableEq, Repr

/-- Decode `nbits` bits of value `w`; the bits of the command word above `nbits` are 0. -/
def decodeBits (nbits w : Nat) : Except DecodeReject Instr :=
  if 32 < nbits then .error .longerThanCommandWord
  else if 2 ^ nbits ≤ w then .error .valueDoesNotFit
  else .ok (decodeCmd (BitVec.ofNat 32 w))

/-- The instruction the decoder reads from `nbits` bits of value `w` (a command is one 32-bit word, R104). -/
def decodeTableWord (nbits w : Nat) : Option Instr :=
  match decodeBits nbits w with
  | .ok i => some i
  | .error _ => none

/-- R107: word = (alg << 8) | (op << 1) | 1. -/
def commandWord (op : Op) (alg : Byte) : Word :=
  (alg.setWidth 32 <<< 8) ||| (match op with | .compress => 0 | .decompress => 2) ||| 1

/-- The words of R93's map, reserved bits 0; NOP is 0x0000_0000 (R109). -/
def encode : Instr → Word
  | .nop => 0
  | .hufEnc => commandWord .compress 0x00
  | .hufDec => commandWord .decompress 0x00
  | .rleEnc => commandWord .compress 0x01
  | .rleDec => commandWord .decompress 0x01
  | .lzEnc => commandWord .compress 0x02
  | .lzDec => commandWord .decompress 0x02
  | .unsupEnc alg => commandWord .compress alg
  | .unsupDec alg => commandWord .decompress alg

/-- OP of a command (R90); a NOP has none that matters (R312) and gives COMPRESS. -/
def Instr.op : Instr → Op
  | .nop => .compress
  | .hufEnc => .compress
  | .hufDec => .decompress
  | .rleEnc => .compress
  | .rleDec => .decompress
  | .lzEnc => .compress
  | .lzDec => .decompress
  | .unsupEnc _ => .compress
  | .unsupDec _ => .decompress

/-- ALG of a command (R90, R91); a NOP has none that matters (R312) and gives 0x00. -/
def Instr.alg : Instr → Byte
  | .nop => 0x00
  | .hufEnc => 0x00
  | .hufDec => 0x00
  | .rleEnc => 0x01
  | .rleDec => 0x01
  | .lzEnc => 0x02
  | .lzDec => 0x02
  | .unsupEnc alg => alg
  | .unsupDec alg => alg

end Sys2Proof
end

