-- ==== Sys2Proof/Config.lean ====
section
/-!
DEFINITION. What the source fixes (00_scope R8), the parameters a model takes as arguments (00_scope R9), and
the free values: `draw()` of 00_scope R15.
-/

namespace Sys2Proof

/-- P_GUARD_MODE (R9): how the expansion guard acts (R317, R318). -/
inductive GuardMode where
  | saturate
  | fault
  deriving DecidableEq, Repr

/-- P_RLE_ZERO_RUNS (R9): how the run encoder writes one or two zeros (R273). -/
inductive ZeroRuns where
  | escape
  | literal
  deriving DecidableEq, Repr

/-- The order in which the tree builder takes nodes of equal weight, and which of two merged nodes becomes the left child:
any deterministic order (40_huffman R156, 93_implementation_defined sections 1 and 3). -/
inductive TreeOrder where
  /-- The default, D9: ascending creation number, the node taken first to the left (R152 to R154). -/
  | creation
  /-- Any other one, by a number of its own; `freeRank` and `freeSwap` below say what it does (log 16). -/
  | other (order : Nat)
  deriving DecidableEq, Repr

/-- The parameters of R9 and the sixth of 93_implementation_defined section 3. They are fixed for one machine; State
carries them (log 1, log 2, log 16). -/
structure Params where
  /-- P_MAX_IN: the size of the buffer IN, in bytes. -/
  maxIn : Nat
  /-- P_MAX_OUT: the size of the buffer OUT, in bytes. -/
  maxOut : Nat
  /-- P_MAX_AUX: the size of the buffers AUX_IN and AUX_OUT, in bytes. -/
  maxAux : Nat
  guardMode : GuardMode
  zeroRuns : ZeroRuns
  /-- The tree tie-break order (40_huffman R156). -/
  treeOrder : TreeOrder
  deriving DecidableEq, Repr

/-- The constraints of R9's table. -/
abbrev Params.Legal (p : Params) : Prop :=
  1 ≤ p.maxIn ∧ p.maxIn ≤ 2 ^ 28 - 4 ∧
  p.maxIn + 4 ≤ p.maxOut ∧ p.maxOut ≤ 2 ^ 28 ∧
  767 ≤ p.maxAux ∧ p.maxAux ≤ 2 ^ 28

namespace Config

/-- P_WINDOW (R8): the largest backward distance a match may have. -/
def window : Nat := 1024

/-- P_LOOKAHEAD (R8): the largest match length. -/
def lookahead : Nat := 15

/-- P_MIN_MATCH (R8): the smallest match length emitted as a match token. -/
def minMatch : Nat := 3

/-- P_RUN_CAP (R8): the largest count in one run record. -/
def runCap : Nat := 255

/-- P_RUN_MIN (R8): the smallest run emitted as a run record (non-zero values). -/
def runMin : Nat := 3

/-- HDR_GENERAL (R8): the header size used in the tree coder's size test. -/
def hdrGeneral : Nat := 4

/-- The parameters of the machine of `State.reset`. The capacities are OPEN (R9, D7): DESIGN CHOICE, the largest
legal ones (log 1). The modes are the spec's decisions D13 and D21 (log 2), the tree order its default D9 (log 16). -/
def resetParams : Params :=
  { maxIn := 2 ^ 28 - 4, maxOut := 2 ^ 28, maxAux := 2 ^ 28, guardMode := .saturate, zeroRuns := .escape,
    treeOrder := .creation }

/-- Free value (log 6): the byte the host reads where no rule fixes one (R70, R74), for the n-th draw. -/
opaque freeByte : Nat → Byte

/-- Free value (log 6, log 7): the word the host gets from a read that the spec refuses, for the n-th draw. -/
opaque freeWord : Nat → Word

/-- Free value (log 6): what a completion step writes to ELAPSED (R34, R315), for the n-th draw. -/
opaque freeElapsed : Nat → Word

/-- Free value (log 8): what the storage of an unwritten byte IN[i] holds (R68), for the n-th draw and the index i. -/
opaque freeInput : Nat → Nat → Byte

/-- Free value (log 16): under the tree order of the given number and for the given input, the rank among nodes of equal weight
of the node with the given creation number (40_huffman R156). -/
opaque freeRank : Nat → List Byte → Nat → Nat

/-- Free value (log 16): under the same, whether the internal node with the given creation number has the node taken first
as its right child (93_implementation_defined section 1). -/
opaque freeSwap : Nat → List Byte → Nat → Bool

end Config

end Sys2Proof
end

