-- ==== Sys2Proof/Machine/State.lean ====
section
/-!
DEFINITION. The machine's state as plain data (10_state R20 to R49, 20_memory R60, R61), the reasons a step could
stop, and the state after reset (70_reset R390).
-/

namespace Sys2Proof.Machine

/-- SEQ (10_state R21), the block's only control state. -/
inductive Seq where
  | idle
  | busy
  deriving DecidableEq, Repr

/-- The error kinds of 60_exceptions R350, in its order; their codes are in Machine/Flags.lean. -/
inductive CodecError where
  /-- The ALG of an accepted START is 0x03-0xFF (R351). -/
  | unsupportedAlgorithm
  /-- The tree region of a tree container does not fit or does not hold a whole tree (R352). -/
  | malformedTree
  /-- A container breaks its format outside the tree (R353). -/
  | malformedInput
  /-- In FAULT mode a container came out longer than its input (R354). -/
  | expansionInvariantViolated
  /-- The input is longer than P_MAX_IN, or a decoder's output longer than P_MAX_OUT (R355). -/
  | capacityExceeded
  deriving DecidableEq, Repr

/-- The bytes of the four buffers by host address (20_memory R61), sorted by address. An address not listed is an
unwritten byte (10_state R38; log 10). -/
abbrev Memory := List Host.Cell

/-- Why a step stops with a fault: there is no reason. The block has no trap, and every failure is a completed operation
(60_exceptions R357), so no meaning raises one (safe: nothing is claimed of it). -/
inductive Fault where
  deriving DecidableEq, Repr

/-- Why a step has no meaning. -/
inductive Refusal where
  /-- Raised by `exec` for a row of the opcode table without a meaning yet; no row is left so (safe). -/
  | notModelled (mnemonic : String)
  deriving DecidableEq, Repr

/-- The machine. Fields down to `refused` are the spec's; the last five are the model's own (INVENTORY.md). -/
structure State where
  /-- P_MAX_IN to P_RLE_ZERO_RUNS (00_scope R9); no step changes them. -/
  params : Params
  /-- SEQ (R21), read by the host as STATUS.BUSY (R24). -/
  seq : Seq
  /-- STATUS.DONE (R24). -/
  done : Bool
  /-- STATUS.ERR (R24). -/
  err : Byte
  /-- IN_LEN (R25). -/
  inLen : Word
  /-- AUX_IN_LEN (R26). -/
  auxInLen : Word
  /-- OUT_LEN (R27). -/
  outLen : Word
  /-- AUX_OUT_LEN (R28). -/
  auxOutLen : Word
  /-- ORIG_SIZE (R29). -/
  origSize : Word
  /-- RESULT_SIZE (R30). -/
  resultSize : Word
  /-- BYTES_SAVED (R31). -/
  bytesSaved : Word
  /-- RATIO_NUM (R32). -/
  ratioNum : Word
  /-- RATIO_DEN (R33). -/
  ratioDen : Word
  /-- ELAPSED (R34). -/
  elapsed : Word
  /-- ALG_TAG (R35). -/
  algTag : Word
  /-- OP_L (R39). -/
  opL : Op
  /-- ALG_L (R39). -/
  algL : Byte
  /-- N_L (R39). -/
  nL : Word
  /-- IN, AUX_IN, OUT and AUX_OUT (R38). -/
  mem : Memory
  /-- REFUSED (R49). -/
  refused : Bool
  /-- How many free values were drawn (log 6). -/
  draws : Nat
  /-- The host's accesses to come, in program order (R71; log 3). -/
  pending : List HostAccess
  /-- The values the host's reads returned, newest first (log 14). -/
  received : List Word
  /-- For each operation to come, how many host accesses pass before it completes (R331; log 4). -/
  schedule : List Nat
  /-- For the running operation, how many are still to pass (log 4). -/
  wait : Nat
  deriving DecidableEq, Repr

/-- The state right after reset (70_reset R390). OP_L, ALG_L and N_L are unspecified there: DESIGN CHOICE (log 11). -/
def State.reset : State :=
  { params := Config.resetParams
    seq := .idle
    done := false
    err := 0
    inLen := 0
    auxInLen := 0
    outLen := 0
    auxOutLen := 0
    origSize := 0
    resultSize := 0
    bytesSaved := 0
    ratioNum := 0
    ratioDen := 1
    elapsed := 0
    algTag := 0
    opL := .compress
    algL := 0
    nL := 0
    mem := []
    refused := false
    draws := 0
    pending := []
    received := []
    schedule := []
    wait := 0 }

end Sys2Proof.Machine
end

