-- ==== Sys2Proof/Machine/Flags.lean ====
section
/-!
DEFINITION. The flags STATUS.BUSY, STATUS.DONE and STATUS.ERR (10_state R24, R37) and the error codes
(60_exceptions R350).
-/

namespace Sys2Proof.Machine

/-- The code of an error kind (R350). -/
def CodecError.code : CodecError → Byte
  | .unsupportedAlgorithm => 0x01
  | .malformedTree => 0x02
  | .malformedInput => 0x03
  | .expansionInvariantViolated => 0x04
  | .capacityExceeded => 0x05

/-- R350: the code of a successful completion. -/
def errNone : Byte := 0x00

/-- The layout of STATUS (R24): ERR in bits 15:8, DONE in bit 1, BUSY in bit 0, the other bits 0. -/
def statusWord (busy done : Bool) (err : Byte) : Word :=
  0#16 ++ err ++ 0#6 ++ BitVec.ofBool done ++ BitVec.ofBool busy

/-- SEQ is readable as STATUS.BUSY (R21). -/
def State.busy (s : State) : Bool := decide (s.seq = .busy)

/-- STATUS as the host reads it (R24). -/
def State.status (s : State) : Word := statusWord s.busy s.done s.err

/-- What an accepted START does to the flags and SEQ (R37, 43_dispatch R310). -/
def State.flagsAtStart (s : State) : State :=
  { s with seq := .busy, done := false, err := errNone }

/-- What the completion step does to the flags and SEQ (R37, 43_dispatch R315). -/
def State.flagsAtCompletion (s : State) (err : Byte) : State :=
  { s with seq := .idle, done := true, err := err }

end Sys2Proof.Machine
end

