-- ==== Sys2Proof/Machine/Operands.lean ====
section
/-!
DEFINITION. The operands of commands and containers: the big-endian fields of byte strings (00_scope R12,
20_memory R65), the four buffers and the host's address map (10_state R38, 20_memory R61), the memory they are kept
in, the input string of an operation (20_memory R67), and the output string a decoder builds (00_scope R15).
-/

namespace Sys2Proof.Machine

/-! ### Byte strings -/

/-- be16 (R12), for x < 2^16. -/
def be16 (x : Nat) : List Byte := [BitVec.ofNat 8 (x / 256), BitVec.ofNat 8 x]

/-- be24 (R12), for x < 2^24. -/
def be24 (x : Nat) : List Byte := [BitVec.ofNat 8 (x / 65536), BitVec.ofNat 8 (x / 256), BitVec.ofNat 8 x]

/-- rd16 (R12) of the two bytes given. -/
def rd16 (hi lo : Byte) : Nat := hi.toNat * 256 + lo.toNat

/-- rd24 (R12) of the three bytes given. -/
def rd24 (hi mid lo : Byte) : Nat := hi.toNat * 65536 + mid.toNat * 256 + lo.toNat

/-- trunc_w (R14): what a w-bit field holds of x. -/
def trunc (w x : Nat) : Nat := x % 2 ^ w

/-! ### Memory -/

/-- The byte at a host address; none is an unwritten byte (10_state R38). -/
def Memory.read (m : Memory) (a : Nat) : Option Byte := m.lookup a

/-- The cells of a byte string laid out from an address up. -/
def cellsFrom (a : Nat) : List Byte → Memory
  | [] => []
  | b :: bs => (a, b) :: cellsFrom (a + 1) bs

/-- Store a byte string from an address up; every other byte keeps its place. -/
def Memory.writeRange (m : Memory) (a : Nat) (bs : List Byte) : Memory :=
  m.filter (fun c => decide (c.1 < a)) ++ cellsFrom a bs ++ m.filter (fun c => decide (a + bs.length ≤ c.1))

/-- Store one byte. -/
def Memory.write (m : Memory) (a : Nat) (b : Byte) : Memory := m.writeRange a [b]

/-- Make the n bytes from an address up unwritten. -/
def Memory.clearRange (m : Memory) (a n : Nat) : Memory :=
  m.filter (fun c => decide (c.1 < a) || decide (a + n ≤ c.1))

/-- Whether the n bytes from an address up are all written. -/
def Memory.writtenRange (m : Memory) (a : Nat) : Nat → Bool
  | 0 => true
  | n + 1 => (m.read a).isSome && m.writtenRange (a + 1) n

/-- The canonical form: addresses strictly rising. An unlisted address is an unwritten byte, so no listed byte equals
what an unlisted address reads as. -/
abbrev Memory.wf (m : Memory) : Prop := m.Pairwise (fun c d => c.1 < d.1)

/-! ### Buffers and the address map -/

/-- The four byte buffers (R38). -/
inductive Buffer where
  | inp
  | auxIn
  | out
  | auxOut
  deriving DecidableEq, Repr

/-- The span of a buffer's region of addresses (R61). -/
def regionSpan : Nat := 2 ^ 28

/-- The size of the register region, from REG_BASE = 0 (R61). -/
def regSize : Nat := 0x1000

/-- IN_BASE, AUX_IN_BASE, OUT_BASE and AUX_OUT_BASE (R61). -/
def Buffer.base : Buffer → Nat
  | .inp => 0x10000000
  | .auxIn => 0x20000000
  | .out => 0x30000000
  | .auxOut => 0x40000000

/-- The size of a buffer (R38, R61). -/
def Buffer.size (p : Params) : Buffer → Nat
  | .inp => p.maxIn
  | .auxIn => p.maxAux
  | .out => p.maxOut
  | .auxOut => p.maxAux

/-- What stands at a host address (R61). -/
inductive Target where
  /-- A byte of the register region, by its offset from REG_BASE. -/
  | reg (offset : Nat)
  /-- Byte i of a buffer. -/
  | buf (b : Buffer) (i : Nat)
  /-- Nothing (R61, R69). -/
  | unmapped
  deriving DecidableEq, Repr

/-- Whether a host address is a byte of a buffer. -/
def Buffer.covers (p : Params) (b : Buffer) (a : Nat) : Bool :=
  decide (b.base ≤ a) && decide (a < b.base + b.size p)

/-- The address map of R61. -/
def targetOf (p : Params) (a : Nat) : Target :=
  if a < regSize then .reg a
  else if Buffer.covers p .inp a then .buf .inp (a - Buffer.base .inp)
  else if Buffer.covers p .auxIn a then .buf .auxIn (a - Buffer.base .auxIn)
  else if Buffer.covers p .out a then .buf .out (a - Buffer.base .out)
  else if Buffer.covers p .auxOut a then .buf .auxOut (a - Buffer.base .auxOut)
  else .unmapped

/-- Byte i of a buffer; none is an unwritten byte (R38, R61). -/
def State.bufByte (s : State) (b : Buffer) (i : Nat) : Option Byte := s.mem.read (b.base + i)

/-! ### The input string of an operation -/

/-- IN[i] as an operation reads it: the stored byte (R67), or for an unwritten byte whatever the storage holds, a free
value (R68; log 8). -/
def State.inputByte (s : State) (i : Nat) : Byte :=
  (s.bufByte .inp i).getD (Config.freeInput s.draws i)

/-- IN[0..N_L), the input string of the latched operation (10_state R39). -/
def State.input (s : State) : List Byte := (List.range s.nL.toNat).map s.inputByte

/-! ### The output string of a decoder -/

/-- The string a decoder has emitted so far (R15, 10_state R46): its length OUTLEN and its bytes, newest first. -/
structure Output where
  len : Nat
  rev : List Byte
  deriving DecidableEq, Repr

/-- Nothing emitted yet. -/
def Output.empty : Output := { len := 0, rev := [] }

/-- The emitted string, OUT[0..OUTLEN). -/
def Output.bytes (o : Output) : List Byte := o.rev.reverse

/-- OUT[OUTLEN - d], for 1 <= d <= OUTLEN (41_window R236). -/
def Output.back (o : Output) (d : Nat) : Byte := o.rev.getD (d - 1) 0

/-- Emit (R15): append a byte, or raise CapacityExceeded when `cap` = P_MAX_OUT bytes are held. -/
def Output.emit (cap : Nat) (o : Output) (b : Byte) : Except CodecError Output :=
  if cap ≤ o.len then .error .capacityExceeded else .ok { len := o.len + 1, rev := b :: o.rev }

/-- Emit the bytes of a string in order. -/
def Output.emitAll (cap : Nat) (o : Output) : List Byte → Except CodecError Output
  | [] => .ok o
  | b :: bs =>
    match o.emit cap b with
    | .error e => .error e
    | .ok o' => o'.emitAll cap bs

/-- `repeat n times: Emit(b)`. -/
def Output.emitN (cap : Nat) (o : Output) (b : Byte) : Nat → Except CodecError Output
  | 0 => .ok o
  | n + 1 =>
    match o.emit cap b with
    | .error e => .error e
    | .ok o' => o'.emitN cap b n

/-- `return the emitted string`. -/
def Output.finish : Except CodecError Output → Except CodecError (List Byte)
  | .error e => .error e
  | .ok o => .ok o.bytes

end Sys2Proof.Machine
end

