-- ==== Sys2Proof/Machine/Ops.lean ====
section
/-!
DEFINITION. The operations every command shares: accepting a START (43_dispatch R310), the admission check (R314),
the completion step (R315) and its three callers CompressFinish (R316), DecompressFinish (R326) and ErrorFinish (R329).
ErrorFinish is the block's one way to take an error (60_exceptions R357); the next accepted START is the recovery from
it (R359).
-/

namespace Sys2Proof.Machine

/-- R68: a START with this ALG would run over an IN byte not written since reset. -/
def State.startReadsUnwritten (s : State) (alg : Byte) : Bool :=
  supportedAlg alg && decide (s.inLen.toNat ≤ s.params.maxIn) &&
    !(s.mem.writtenRange (Buffer.base .inp) s.inLen.toNat)

/-- An accepted START (R310): the latches of R39, the flags of R37, and the mark of R68. -/
def State.accept (s : State) (op : Op) (alg : Byte) : State :=
  { s.flagsAtStart with
    opL := op
    algL := alg
    nL := s.inLen
    refused := s.refused || s.startReadsUnwritten alg
    wait := s.schedule.headD 0
    schedule := s.schedule.tail }

/-- What a host write of a START command does (log 5): ignored while BUSY (R311); while IDLE accepted (R310), and where no
host access is scheduled before the completion step (R331) the operation `run` completes at once. -/
def State.issue (s : State) (op : Op) (alg : Byte) (run : State → State) : State :=
  match s.seq with
  | .busy => s
  | .idle => if (s.accept op alg).wait = 0 then run (s.accept op alg) else s.accept op alg

/-- The values a completion step gives the result registers of R27 to R33 (R315). -/
structure Results where
  outLen : Nat
  auxOutLen : Nat
  origSize : Nat
  resultSize : Nat
  bytesSaved : Nat
  ratioNum : Nat
  ratioDen : Nat
  deriving DecidableEq, Repr

/-- The completion step (R315), one atomic transition. ELAPSED gets a free value (R34) and ALG_TAG the latched ALG,
whatever the outcome (R323). -/
def State.complete (s : State) (r : Results) (err : Byte) : State :=
  { s.flagsAtCompletion err with
    outLen := BitVec.ofNat 32 r.outLen
    auxOutLen := BitVec.ofNat 32 r.auxOutLen
    origSize := BitVec.ofNat 32 r.origSize
    resultSize := BitVec.ofNat 32 r.resultSize
    bytesSaved := BitVec.ofNat 32 r.bytesSaved
    ratioNum := BitVec.ofNat 32 r.ratioNum
    ratioDen := BitVec.ofNat 32 r.ratioDen
    elapsed := Config.freeElapsed s.draws
    algTag := s.algL.setWidth 32
    draws := s.draws + 1
    wait := 0 }

/-- Put a result in OUT and AUX_OUT. The other bytes of the two buffers are unspecified from then on (R325, R329):
they become unwritten, which a host read answers with a free value (log 9). -/
def State.storeResult (s : State) (out aux : List Byte) : State :=
  { s with
    mem := (((s.mem.clearRange (Buffer.base .out) regionSpan).clearRange (Buffer.base .auxOut) regionSpan).writeRange
      (Buffer.base .out) out).writeRange (Buffer.base .auxOut) aux }

/-- ErrorFinish (R329, 60_exceptions R357). -/
def State.errorFinish (s : State) (e : CodecError) : State :=
  (s.storeResult [] []).complete
    { outLen := 0, auxOutLen := 0, origSize := 0, resultSize := 0, bytesSaved := 0, ratioNum := 0, ratioDen := 1 } e.code

/-- The registers CompressFinish writes (R316): the guarded size r = min(len(C), n) of R317 and the statistics of R319
to R321. -/
def compressResults (n lenC lenA : Nat) : Results :=
  { outLen := lenC
    auxOutLen := lenA
    origSize := n
    resultSize := min lenC n
    bytesSaved := n - min lenC n
    ratioNum := if 0 < n then min lenC n else 0
    ratioDen := if 0 < n then n else 1 }

/-- CompressFinish (R316), with container `c` and auxiliary tree `a`; in FAULT mode the guard comes first (R318). -/
def State.compressFinish (s : State) (c a : List Byte) : State :=
  if s.params.guardMode = .fault ∧ s.nL.toNat < c.length then
    s.errorFinish .expansionInvariantViolated
  else
    (s.storeResult c a).complete (compressResults s.nL.toNat c.length a.length) errNone

/-- DecompressFinish (R326), with output `d`. -/
def State.decompressFinish (s : State) (d : List Byte) : State :=
  (s.storeResult d []).complete
    { outLen := d.length, auxOutLen := 0, origSize := s.nL.toNat, resultSize := d.length,
      bytesSaved := 0, ratioNum := 0, ratioDen := 1 } errNone

/-- The second admission check of R314, and R355: the input fits IN. -/
def State.admitted (s : State) : Bool := decide (s.nL.toNat ≤ s.params.maxIn)

/-- A compress operation over the latched input: R314, the encoder, R316. -/
def State.runCompress (s : State) (encoder : List Byte → List Byte × List Byte) : State :=
  if s.admitted then s.compressFinish (encoder s.input).1 (encoder s.input).2
  else s.errorFinish .capacityExceeded

/-- A decompress operation over the latched container: R314, the decoder (given P_MAX_OUT), then R326, or ErrorFinish
with the first error the decoder raises (R356, R357). -/
def State.runDecompress (s : State) (decoder : Nat → List Byte → Except CodecError (List Byte)) : State :=
  if s.admitted then
    match decoder s.params.maxOut s.input with
    | .ok d => s.decompressFinish d
    | .error e => s.errorFinish e
  else s.errorFinish .capacityExceeded

end Sys2Proof.Machine
end

