-- ==== Sys2Proof/Machine/Control.lean ====
section
/-!
DEFINITION. The commands without a coder: NOP (43_dispatch R312), UNSUP.ENC and UNSUP.DEC (R330).
-/

namespace Sys2Proof.Machine

/-- NOP (R312): a write with START = 0 changes nothing, whether SEQ is IDLE or BUSY. -/
def execNop (s : State) : Host.Outcome State Fault Refusal := .next s

/-- The operation of UNSUP.ENC (R330): always ErrorFinish, before any length check (R314); ALG_TAG gets the latched
selector (R323). -/
def runUnsupEnc (s : State) : State := s.errorFinish .unsupportedAlgorithm

/-- The operation of UNSUP.DEC (R330). -/
def runUnsupDec (s : State) : State := s.errorFinish .unsupportedAlgorithm

/-- UNSUP.ENC (R330). -/
def execUnsupEnc (alg : Byte) (s : State) : Host.Outcome State Fault Refusal := .next (s.issue .compress alg runUnsupEnc)

/-- UNSUP.DEC (R330). -/
def execUnsupDec (alg : Byte) (s : State) : Host.Outcome State Fault Refusal := .next (s.issue .decompress alg runUnsupDec)

end Sys2Proof.Machine
end

