-- ==== Sys2Proof/Machine/Huffman.lean ====
section
/-!
DEFINITION. The tree coder (40_huffman R140 to R191): bit packer, tree builder, code generator, encoder and decoder, and
its two commands, HUF.ENC and HUF.DEC.
-/

namespace Sys2Proof.Machine

/-! ### Bit packer -/

/-- The byte whose bit 7 - t is bit t of the string; missing bits are 0 (20_memory R66, 40_huffman R142). -/
def byteOfBits (bits : List Bool) : Byte :=
  BitVec.ofNat 8 ((List.range 8).foldl (fun acc t => 2 * acc + (bits.getD t false).toNat) 0)

/-- The first n bytes of a bit string packed (R140). -/
def packBytes : Nat → List Bool → List Byte
  | 0, _ => []
  | n + 1, bits => byteOfBits (bits.take 8) :: packBytes n (bits.drop 8)

/-- Pack (R140): ceil(B / 8) bytes. -/
def pack (bits : List Bool) : List Byte := packBytes ((bits.length + 7) / 8) bits

/-- The bits of a byte, bit 7 first (20_memory R66). -/
def bitsOfByte (b : Byte) : List Bool := (List.range 8).map (fun t => b.getLsbD (7 - t))

/-- BitAt(P, 0), BitAt(P, 1), ... (R141). -/
def unpack (p : List Byte) : List Bool := p.flatMap bitsOfByte

/-! ### Tree builder -/

/-- A code tree (10_state R41): a leaf holds a byte value, an internal node its left and right child. -/
inductive CodeTree where
  | leaf (value : Byte)
  | node (left right : CodeTree)
  deriving DecidableEq, Repr

/-- What an order decides for one input's tree, by creation number (R156). -/
structure TreeChoices where
  /-- The place of the node among nodes of equal weight; equal places go by creation number. -/
  rank : Nat → Nat
  /-- Whether the internal node has the node taken first as its right child, not its left. -/
  swap : Nat → Bool

/-- A deterministic order: its choices, given the input IN. The input and the choices so far fix the whole set NODES, so every
deterministic order is one of these (R156; log 16). -/
abbrev TreePolicy := List Byte → TreeChoices

/-- The order of R152 to R154, D9: creation number alone, the node taken first to the left. -/
def creationOrder : TreePolicy := fun _ => { rank := fun _ => 0, swap := fun _ => false }

/-- The order a machine's parameter names. -/
def policyOf : TreeOrder → TreePolicy
  | .creation => creationOrder
  | .other n => fun inp => { rank := Config.freeRank n inp, swap := Config.freeSwap n inp }

/-- A node of the builder's set NODES (R41, R152), with its place in the order. -/
structure PoolNode where
  weight : Nat
  rank : Nat
  seq : Nat
  tree : CodeTree
  deriving DecidableEq, Repr

/-- FREQ (R150): each byte value, ascending, with how often it stands in the input. -/
def freqTable (inp : List Byte) : List (Byte × Nat) :=
  (List.range 256).map (fun v => (BitVec.ofNat 8 v, inp.count (BitVec.ofNat 8 v)))

/-- The entries of FREQ that are not 0; there are k of them (R151). -/
def presentEntries (inp : List Byte) : List (Byte × Nat) := (freqTable inp).filter (fun e => decide (0 < e.2))

/-- The leaves (R152): one for each present value, ascending, with seq 0 to k - 1. -/
def leaves (c : TreeChoices) (inp : List Byte) : List PoolNode :=
  (presentEntries inp).zipIdx.map
    (fun e => { weight := e.1.2, rank := c.rank e.2, seq := e.2, tree := .leaf e.1.1 })

/-- The tie-break (R156): the machine's order, then the creation number. Where all ranks are equal it is that of R153. -/
def PoolNode.breaksTie (a b : PoolNode) : Bool :=
  decide (a.rank < b.rank) || (decide (a.rank = b.rank) && decide (a.seq < b.seq))

/-- The selection order (R153, R156). -/
def PoolNode.precedes (a b : PoolNode) : Bool :=
  decide (a.weight < b.weight) || (decide (a.weight = b.weight) && a.breaksTie b)

/-- The first node of x :: rest in the selection order, and the others. -/
def takeFirst : PoolNode → List PoolNode → PoolNode × List PoolNode
  | x, [] => (x, [])
  | x, y :: ys =>
    if y.precedes x then ((takeFirst y ys).1, x :: (takeFirst y ys).2)
    else ((takeFirst x ys).1, y :: (takeFirst x ys).2)

/-- The node that merges a, taken first, and b (R154): a to the left, or to the right where the order says so (R156). -/
def mergeNodes (c : TreeChoices) (seq : Nat) (a b : PoolNode) : PoolNode :=
  { weight := a.weight + b.weight
    rank := c.rank seq
    seq := seq
    tree := if c.swap seq then .node b.tree a.tree else .node a.tree b.tree }

/-- The merge loop (R154) over NODES = x :: rest, the next seq given; it ends after |NODES| - 1 merges (R155). -/
def mergeAll (c : TreeChoices) : Nat → Nat → PoolNode → List PoolNode → PoolNode
  | 0, _, x, _ => x
  | _ + 1, _, x, [] => x
  | merges + 1, seq, x, y :: ys =>
    match takeFirst x (y :: ys) with
    | (a, []) => a
    | (a, z :: zs) =>
      mergeAll c merges (seq + 1) (mergeNodes c seq a (takeFirst z zs).1) (takeFirst z zs).2

/-- ROOT (R154) for the leaves x :: rest. -/
def buildTree (c : TreeChoices) (x : PoolNode) (rest : List PoolNode) : CodeTree :=
  (mergeAll c rest.length (rest.length + 1) x rest).tree

/-! ### Code generator -/

/-- The walk of R158 below a node reached by the path p, with the one-leaf case of R159. -/
def codesBelow : CodeTree → List Bool → List (Byte × List Bool)
  | .leaf v, p => [(v, if p = [] then [false] else p)]
  | .node l r, p => codesBelow l (p ++ [false]) ++ codesBelow r (p ++ [true])

/-- The code table (R158). -/
def codeTable (root : CodeTree) : List (Byte × List Bool) := codesBelow root []

/-- CODE[v]; the empty string for a value with no code (10_state R42). -/
def codeOf (table : List (Byte × List Bool)) (v : Byte) : List Bool := (table.lookup v).getD []

/-- Ser (R160). -/
def serialize : CodeTree → List Byte
  | .leaf v => [0x01, v]
  | .node l r => [0x00] ++ serialize l ++ serialize r

/-! ### Encoder -/

/-- The payload bits of the input under a tree's codes (R173). -/
def payloadBits (root : CodeTree) (inp : List Byte) : List Bool := inp.flatMap (codeOf (codeTable root))

/-- The general container (30_encoding R95, 40_huffman R175). -/
def generalContainer (root : CodeTree) (inp : List Byte) : List Byte :=
  [0x00, BitVec.ofNat 8 (trunc 8 (serialize root).length)] ++ be16 (trunc 16 inp.length) ++ serialize root ++
    pack (payloadBits root inp)

/-- The size of R174: payload, true tree length, header. -/
def generalSize (root : CodeTree) (inp : List Byte) : Nat :=
  (pack (payloadBits root inp)).length + (serialize root).length + Config.hdrGeneral

/-- The last two lines of HufEncode (R170): the fallback record (R97, R174) or the general container with its
tree (R175, R176). -/
def encodeWithTree (root : CodeTree) (inp : List Byte) : List Byte × List Byte :=
  if inp.length ≤ generalSize root inp then (0xFE :: inp, [])
  else (generalContainer root inp, serialize root)

/-- HufEncode (R170) under an order: the container and the auxiliary tree. No leaf is the empty input (R171), one leaf the
single-symbol path (R172). -/
def hufEncode (order : TreePolicy) (inp : List Byte) : List Byte × List Byte :=
  match inp with
  | [] => ([], [])
  | v :: _ =>
    match leaves (order inp) inp with
    | x :: y :: rest => encodeWithTree (buildTree (order inp) x (y :: rest)) inp
    | _ => ([0xFF, v] ++ be24 (trunc 24 inp.length), [])

/-! ### Decoder -/

/-- Parse (R183) of a tree region; none is MalformedTree. The fuel is the region's length: each call takes a byte. -/
def parseTree : Nat → List Byte → Option (CodeTree × List Byte)
  | 0, _ => none
  | _ + 1, [] => none
  | fuel + 1, tag :: rest =>
    if tag = 0x01 then
      match rest with
      | [] => none
      | v :: rest' => some (.leaf v, rest')
    else if tag = 0x00 then
      match parseTree fuel rest with
      | none => none
      | some (l, rest') =>
        match parseTree fuel rest' with
        | none => none
        | some (r, rest'') => some (.node l r, rest'')
    else none

/-- One step down the tree (R185): left on 0, right on 1. -/
def CodeTree.child : CodeTree → Bool → CodeTree
  | .leaf v, _ => .leaf v
  | .node l _, false => l
  | .node _ r, true => r

/-- The bit walk (R185) at a node below `root`, with `need` bytes still to produce; running out of bits is R186. -/
def bitWalk (cap : Nat) (root : CodeTree) : List Bool → CodeTree → Nat → Output → Except CodecError Output
  | _, _, 0, o => .ok o
  | [], _, _ + 1, _ => .error .malformedInput
  | bit :: bits, node, need + 1, o =>
    match node.child bit with
    | .leaf v =>
      match o.emit cap v with
      | .error e => .error e
      | .ok o' => bitWalk cap root bits root need o'
    | .node l r => bitWalk cap root bits (.node l r) (need + 1) o

/-- What a parsed tree gives with origLen `ol` and the payload: R184 for a tree of one leaf, R185 otherwise. -/
def decodeWithTree (cap : Nat) (root : CodeTree) (ol : Nat) (payload : List Byte) : Except CodecError Output :=
  match root with
  | .leaf v => Output.empty.emitN cap v ol
  | .node l r => bitWalk cap (.node l r) (unpack payload) (.node l r) ol Output.empty

/-- Tag 0x00 after the header (R182, R183): the tree region is the first `tl` bytes of `body`; the rest of the region after
the tree is ignored (R187). -/
def decodeGeneral (cap : Nat) (tl ol : Nat) (body : List Byte) : Except CodecError Output :=
  if body.length < tl then .error .malformedTree
  else
    match parseTree tl (body.take tl) with
    | none => .error .malformedTree
    | some (root, _) => decodeWithTree cap root ol (body.drop tl)

/-- HufDecode (R178): the tag selects R179, R180, R181 to R187 or R188. -/
def hufDecode (cap : Nat) (buf : List Byte) : Except CodecError (List Byte) :=
  match buf with
  | [] => .ok []
  | tag :: rest =>
    if tag = 0xFF then
      match rest with
      | v :: l2 :: l1 :: l0 :: _ => Output.finish (Output.empty.emitN cap v (rd24 l2 l1 l0))
      | _ => .error .malformedInput
    else if tag = 0xFE then Output.finish (Output.empty.emitAll cap rest)
    else if tag = 0x00 then
      match rest with
      | tl :: o1 :: o0 :: body => Output.finish (decodeGeneral cap tl.toNat (rd16 o1 o0) body)
      | _ => .error .malformedInput
    else .error .malformedInput

/-! ### Commands -/

/-- The operation of HUF.ENC (R177), under the machine's tree order. -/
def runHufEnc (s : State) : State := s.runCompress (hufEncode (policyOf s.params.treeOrder))

/-- The operation of HUF.DEC (R189). -/
def runHufDec (s : State) : State := s.runDecompress hufDecode

/-- HUF.ENC (R177). -/
def execHufEnc (s : State) : Host.Outcome State Fault Refusal := .next (s.issue .compress 0x00 runHufEnc)

/-- HUF.DEC (R189). -/
def execHufDec (s : State) : Host.Outcome State Fault Refusal := .next (s.issue .decompress 0x00 runHufDec)

end Sys2Proof.Machine
end

