-- ==== Sys2Proof/Machine/RunLength.lean ====
section
/-!
DEFINITION. The run-length coder (42_runlength R270 to R283) and its two commands, RLE.ENC and RLE.DEC.
-/

namespace Sys2Proof.Machine

/-! ### Encoder -/

/-- How many of the leading bytes of a string equal v, counting at most `cap`. -/
def countRun (v : Byte) : Nat → List Byte → Nat
  | 0, _ => 0
  | _ + 1, [] => 0
  | cap + 1, b :: bs => if b = v then countRun v cap bs + 1 else 0

/-- The count C of RunAt (R270), for the value v at the cursor and the string after it. -/
def runCount (v : Byte) (rest : List Byte) : Nat := countRun v (Config.runCap - 1) rest + 1

/-- The tokens of one run of c bytes of v (R271, R272, R273). -/
def runTokens (zr : ZeroRuns) (c : Nat) (v : Byte) : List Byte :=
  if Config.runMin ≤ c ∨ (v = 0x00 ∧ zr = .escape) then [0x00, BitVec.ofNat 8 c, v]
  else List.replicate c v

/-- The token loop (R274) from a cursor on; `skip` bytes are still part of the run already emitted. -/
def rleTokensFrom (zr : ZeroRuns) : Nat → List Byte → List Byte
  | _, [] => []
  | skip + 1, _ :: rest => rleTokensFrom zr skip rest
  | 0, v :: rest => runTokens zr (runCount v rest) v ++ rleTokensFrom zr (runCount v rest - 1) rest

/-- RleTokens (R274). -/
def rleTokens (zr : ZeroRuns) (inp : List Byte) : List Byte := rleTokensFrom zr 0 inp

/-- RleEncode (R275): the token stream, or the fallback record (R103) when that is not smaller. -/
def rleEncode (zr : ZeroRuns) (inp : List Byte) : List Byte :=
  if inp = [] then []
  else if inp.length ≤ (rleTokens zr inp).length then 0xFF :: inp
  else rleTokens zr inp

/-! ### Decoder -/

/-- The record loop of RleDecode (R278, R280, R281) from a record boundary on. -/
def rleDecodeTokens (cap : Nat) : List Byte → Output → Except CodecError Output
  | [], o => .ok o
  | b :: rest, o =>
    if b = 0x00 then
      match rest with
      | c :: v :: rest' =>
        if c = 0x00 then .error .malformedInput
        else
          match o.emitN cap v c.toNat with
          | .error e => .error e
          | .ok o' => rleDecodeTokens cap rest' o'
      | _ => .error .malformedInput
    else
      match o.emit cap b with
      | .error e => .error e
      | .ok o' => rleDecodeTokens cap rest o'

/-- RleDecode (R278); a leading 0xFF is always the fallback tag (R279). -/
def rleDecode (cap : Nat) (buf : List Byte) : Except CodecError (List Byte) :=
  match buf with
  | [] => .ok []
  | tag :: rest =>
    if tag = 0xFF then Output.finish (Output.empty.emitAll cap rest)
    else Output.finish (rleDecodeTokens cap (tag :: rest) Output.empty)

/-! ### Commands -/

/-- The operation of RLE.ENC (R277). It has no auxiliary output. -/
def runRleEnc (s : State) : State := s.runCompress (fun inp => (rleEncode s.params.zeroRuns inp, []))

/-- The operation of RLE.DEC (R282). -/
def runRleDec (s : State) : State := s.runDecompress rleDecode

/-- RLE.ENC (R277). -/
def execRleEnc (s : State) : Host.Outcome State Fault Refusal := .next (s.issue .compress 0x01 runRleEnc)

/-- RLE.DEC (R282). -/
def execRleDec (s : State) : Host.Outcome State Fault Refusal := .next (s.issue .decompress 0x01 runRleDec)

end Sys2Proof.Machine
end

