-- ==== Sys2Proof/Machine/Window.lean ====
section
/-!
DEFINITION. The sliding-window coder (41_window R220 to R241) and its two commands, LZ.ENC and LZ.DEC. A position of
the input is held as the rest of the input from there on.
-/

namespace Sys2Proof.Machine

/-! ### Match search -/

/-- MatchLen (R221): how many bytes agree, from S (first string) and from POS (second), at most `cap`. Both strings run
to the end of the input, so a match may overlap the cursor and ends where the input ends. -/
def matchLen : Nat → List Byte → List Byte → Nat
  | 0, _, _ => 0
  | _ + 1, [], _ => 0
  | _ + 1, _ :: _, [] => 0
  | cap + 1, a :: as, b :: bs => if a = b then matchLen cap as bs + 1 else 0

/-- The scan of FindMatch (R222) over the candidates at distances d, d - 1, ..., 1 before the cursor; `win` is the input
from the first of them on, `best` is (BEST_LEN, BEST_DIST). Only a strictly longer match replaces the best (R223). -/
def findMatchFrom (cur : List Byte) : Nat → List Byte → Nat × Nat → Nat × Nat
  | 0, _, best => best
  | d + 1, win, best =>
    findMatchFrom cur d win.tail
      (if best.1 < matchLen Config.lookahead win cur then (matchLen Config.lookahead win cur, d + 1) else best)

/-- FindMatch (R222) at position `pos` of `inp`, where `cur` is the input from there on; the window starts at
max(0, POS - P_WINDOW) (R220). -/
def findMatch (inp : List Byte) (pos : Nat) (cur : List Byte) : Nat × Nat :=
  findMatchFrom cur (min pos Config.window) (inp.drop (pos - Config.window)) (0, 0)

/-! ### Encoder -/

/-- A match token (R226): flag 1, distance, length, nextChar. -/
def matchToken (len dist : Nat) (next : Byte) : List Byte :=
  [0x01] ++ be16 dist ++ [BitVec.ofNat 8 len, next]

/-- nextChar (R226): the byte just after a match of length `len` at the cursor, or 0 where the input ends. -/
def nextChar (cur : List Byte) (len : Nat) : Byte := cur.getD len 0x00

/-- The token loop (R225) from position `pos` on; `skip` bytes are still covered by the match token already emitted. -/
def lzTokensFrom (inp : List Byte) : Nat → Nat → List Byte → List Byte
  | _, _, [] => []
  | skip + 1, pos, _ :: rest => lzTokensFrom inp skip (pos + 1) rest
  | 0, pos, b :: rest =>
    if Config.minMatch ≤ (findMatch inp pos (b :: rest)).1 then
      matchToken (findMatch inp pos (b :: rest)).1 (findMatch inp pos (b :: rest)).2
          (nextChar (b :: rest) (findMatch inp pos (b :: rest)).1) ++
        lzTokensFrom inp (findMatch inp pos (b :: rest)).1 (pos + 1) rest
    else [0x00, b] ++ lzTokensFrom inp 0 (pos + 1) rest

/-- LzTokens (R225). -/
def lzTokens (inp : List Byte) : List Byte := lzTokensFrom inp 0 0 inp

/-- LzEncode (R228): the token stream, or the fallback record (R101, R229) when that is not strictly shorter. -/
def lzEncode (inp : List Byte) : List Byte :=
  if inp = [] then []
  else if inp.length ≤ (lzTokens inp).length then 0xFF :: inp
  else lzTokens inp

/-! ### Decoder -/

/-- The copy of R236: byte by byte, each read after the one before it was emitted (70_reset R398). -/
def Output.copyBack (cap : Nat) (o : Output) (d : Nat) : Nat → Except CodecError Output
  | 0 => .ok o
  | l + 1 =>
    match o.emit cap (o.back d) with
    | .error e => .error e
    | .ok o' => o'.copyBack cap d l

/-- The nextChar of a match token is appended unless it is the sentinel 0 (R237). -/
def Output.emitNext (cap : Nat) (o : Output) (c : Byte) : Except CodecError Output :=
  if c = 0x00 then .ok o else o.emit cap c

/-- What a match token appends (R235, R236, R237), after the check of its distance. -/
def Output.applyMatch (cap : Nat) (o : Output) (d l : Nat) (c : Byte) : Except CodecError Output :=
  if d = 0 ∨ o.len < d then .error .malformedInput
  else
    match o.copyBack cap d l with
    | .error e => .error e
    | .ok o' => o'.emitNext cap c

/-- The token loop of LzDecode (R232, R234 to R238) from a token boundary on. -/
def lzDecodeTokens (cap : Nat) : List Byte → Output → Except CodecError Output
  | [], o => .ok o
  | f :: rest, o =>
    if f = 0x00 then
      match rest with
      | b :: rest' =>
        match o.emit cap b with
        | .error e => .error e
        | .ok o' => lzDecodeTokens cap rest' o'
      | [] => .error .malformedInput
    else if f = 0x01 then
      match rest with
      | dHi :: dLo :: l :: c :: rest' =>
        match o.applyMatch cap (rd16 dHi dLo) l.toNat c with
        | .error e => .error e
        | .ok o' => lzDecodeTokens cap rest' o'
      | _ => .error .malformedInput
    else .error .malformedInput

/-- LzDecode (R232); a leading 0xFF is the fallback tag (R233). -/
def lzDecode (cap : Nat) (buf : List Byte) : Except CodecError (List Byte) :=
  match buf with
  | [] => .ok []
  | tag :: rest =>
    if tag = 0xFF then Output.finish (Output.empty.emitAll cap rest)
    else Output.finish (lzDecodeTokens cap (tag :: rest) Output.empty)

/-! ### Commands -/

/-- The operation of LZ.ENC (R231). It has no auxiliary output. -/
def runLzEnc (s : State) : State := s.runCompress (fun inp => (lzEncode inp, []))

/-- The operation of LZ.DEC (R239). -/
def runLzDec (s : State) : State := s.runDecompress lzDecode

/-- LZ.ENC (R231). -/
def execLzEnc (s : State) : Host.Outcome State Fault Refusal := .next (s.issue .compress 0x02 runLzEnc)

/-- LZ.DEC (R239). -/
def execLzDec (s : State) : Host.Outcome State Fault Refusal := .next (s.issue .decompress 0x02 runLzDec)

end Sys2Proof.Machine
end

