-- ==== Sys2Proof/Machine/Dispatch.lean ====
section
/-!
DEFINITION. What a host write of each command of the opcode table does: one arm per row, one call of its meaning each.
-/

namespace Sys2Proof.Machine

-- A command is a host write to CMD (30_encoding R93, 20_memory R75; log 5).
def exec (i : Instr) (s : State) : Host.Outcome State Fault Refusal :=
  match i with
  | .nop => Sys2Proof.Machine.execNop s
  | .hufEnc => Sys2Proof.Machine.execHufEnc s
  | .hufDec => Sys2Proof.Machine.execHufDec s
  | .rleEnc => Sys2Proof.Machine.execRleEnc s
  | .rleDec => Sys2Proof.Machine.execRleDec s
  | .lzEnc => Sys2Proof.Machine.execLzEnc s
  | .lzDec => Sys2Proof.Machine.execLzDec s
  | .unsupEnc alg => Sys2Proof.Machine.execUnsupEnc alg s
  | .unsupDec alg => Sys2Proof.Machine.execUnsupDec alg s

end Sys2Proof.Machine
end

