-- ==== Sys2Proof/Machine/Engine.lean ====
section
/-!
DEFINITION. The two agents' moves. The engine completes the operation it has latched (43_dispatch R313, R315). The host
makes one bus access (20_memory R60 to R74, 30_encoding R108, R109) or pulls the reset (70_reset R390, R391). Plain data of
the state says whose turn it is (43_dispatch R331; log 4).
-/

namespace Sys2Proof.Machine

/-! ### The engine -/

/-- The completion of the latched operation, chosen by (OP_L, ALG_L) (R313). -/
def State.completeLatched (s : State) : State :=
  match selectInstr s.opL s.algL with
  | .nop => s
  | .hufEnc => runHufEnc s
  | .hufDec => runHufDec s
  | .rleEnc => runRleEnc s
  | .rleDec => runRleDec s
  | .lzEnc => runLzEnc s
  | .lzDec => runLzDec s
  | .unsupEnc _ => runUnsupEnc s
  | .unsupDec _ => runUnsupDec s

/-! ### The register file as the host sees it -/

/-- The offset of CMD (10_state R22). -/
def cmdOffset : Nat := 0x00

/-- A register read (10_state R22): CMD and the reserved offsets read 0 (R23, R36). -/
def State.readReg (s : State) (offset : Nat) : Word :=
  match offset with
  | 0x04 => s.status
  | 0x08 => s.inLen
  | 0x0C => s.auxInLen
  | 0x10 => s.outLen
  | 0x14 => s.auxOutLen
  | 0x18 => s.origSize
  | 0x1C => s.resultSize
  | 0x20 => s.bytesSaved
  | 0x24 => s.ratioNum
  | 0x28 => s.ratioDen
  | 0x2C => s.elapsed
  | 0x30 => s.algTag
  | _ => 0

/-- A write to a register other than CMD: IN_LEN and AUX_IN_LEN take the value while IDLE (R25, R26, 20_memory R70); every
other write is ignored (R36, 20_memory R64). -/
def State.writeReg (s : State) (offset : Nat) (value : Word) : State :=
  match s.seq, offset with
  | .idle, 0x08 => { s with inLen := value }
  | .idle, 0x0C => { s with auxInLen := value }
  | _, _ => s

/-! ### Reads -/

/-- What a read gives the host. -/
inductive ReadResult where
  /-- The value the rules fix. -/
  | value (w : Word)
  /-- A byte no rule fixes: `draw()` (20_memory R70, R74). -/
  | unspecified
  /-- An access the spec gives no meaning (20_memory R62, R63, R69). -/
  | refused
  deriving DecidableEq, Repr

/-- A stored byte, if it is written (R74). -/
def ReadResult.ofByte : Option Byte → ReadResult
  | some b => .value (b.setWidth 32)
  | none => .unspecified

/-- Byte i of a buffer as the host reads it: OUT and AUX_OUT only below their reported length and while IDLE (R70, R74). -/
def State.readBuf (s : State) (b : Buffer) (i : Nat) : ReadResult :=
  match b with
  | .inp => .ofByte (s.bufByte .inp i)
  | .auxIn => .ofByte (s.bufByte .auxIn i)
  | .out => if s.busy = false ∧ i < s.outLen.toNat then .ofByte (s.bufByte .out i) else .unspecified
  | .auxOut => if s.busy = false ∧ i < s.auxOutLen.toNat then .ofByte (s.bufByte .auxOut i) else .unspecified

/-- A host read of `size` bytes (R62, R63, R69). -/
def State.readBus (s : State) (addr : Word) (size : Nat) : ReadResult :=
  match targetOf s.params addr.toNat with
  | .reg offset => if size = 4 ∧ offset % 4 = 0 then .value (s.readReg offset) else .refused
  | .buf b i => if size = 1 then s.readBuf b i else .refused
  | .unmapped => .refused

/-- The word the host receives; a free value where the rules fix none (logs 6, 7). -/
def State.readWord (s : State) : ReadResult → Word
  | .value w => w
  | .unspecified => (Config.freeByte s.draws).setWidth 32
  | .refused => Config.freeWord s.draws

/-- Set REFUSED (10_state R49); it is never cleared. -/
def State.markRefused (s : State) : State := { s with refused := true }

/-- A read takes effect: the block is unchanged (R64) but for REFUSED on a refused one. -/
def State.respond (s : State) (r : ReadResult) : State :=
  match r with
  | .value w => { s with received := w :: s.received }
  | .unspecified => { s with received := s.readWord .unspecified :: s.received, draws := s.draws + 1 }
  | .refused => { s.markRefused with received := s.readWord .refused :: s.received, draws := s.draws + 1 }

/-! ### Writes -/

/-- A host write of one byte to a buffer: IN and AUX_IN take it while IDLE (R38, R70), OUT and AUX_OUT ignore it (R64). -/
def State.writeBuf (s : State) (b : Buffer) (i : Nat) (byte : Byte) : State :=
  match s.seq, b with
  | .idle, .inp => { s with mem := s.mem.write (Buffer.base .inp + i) byte }
  | .idle, .auxIn => { s with mem := s.mem.write (Buffer.base .auxIn + i) byte }
  | _, _ => s

/-- A host write of `size` bytes. A word written to CMD is a command, executed at once (10_state R23). -/
def State.writeBus (s : State) (addr : Word) (size : Nat) (value : Word) : Host.Outcome State Fault Refusal :=
  match targetOf s.params addr.toNat with
  | .reg offset =>
    if size = 4 ∧ offset % 4 = 0 then
      if offset = cmdOffset then exec (decodeCmd value) s else .next (s.writeReg offset value)
    else .next s.markRefused
  | .buf b i => if size = 1 then .next (s.writeBuf b i (value.setWidth 8)) else .next s.markRefused
  | .unmapped => .next s.markRefused

/-! ### Reset -/

/-- The external reset (70_reset R390, R391): every piece of state takes its reset value, also during an operation, but
REFUSED (R49). The parameters are no state of the block (R9), and the host's accesses go on (log 17). -/
def State.hardReset (s : State) : State :=
  { State.reset with
    params := s.params
    refused := s.refused
    draws := s.draws
    pending := s.pending
    received := s.received
    schedule := s.schedule }

/-! ### One access, one turn -/

/-- Bits hi to lo of a word, as a number (00_scope R11). -/
def wordField (w : Word) (hi lo : Nat) : Nat := w.toNat / 2 ^ lo % 2 ^ (hi + 1 - lo)

/-- The one-byte reads of `fetch` (R109): m bytes from an address up. -/
def blockReads (addr : Word) (m : Nat) : List HostAccess :=
  (List.range m).map (fun i => .read (addr + BitVec.ofNat 32 i) 1)

/-- The host's next access takes effect; it has already left `pending`. -/
def State.serve (s : State) (a : HostAccess) : Host.Outcome State Fault Refusal :=
  match a with
  | .read addr size => .next (s.respond (s.readBus addr size))
  | .write addr size value => s.writeBus addr size value
  | .poll addr hi lo value =>
    if wordField (s.readWord (s.readBus addr 4)) hi lo = value then .next (s.respond (s.readBus addr 4))
    else .next { s.respond (s.readBus addr 4) with pending := .poll addr hi lo value :: s.pending }
  | .readBlock lenAddr dataAddr =>
    .next { s.respond (s.readBus lenAddr 4) with
      pending := blockReads dataAddr (s.readWord (s.readBus lenAddr 4)).toNat ++ s.pending }
  | .reset => .next s.hardReset

/-- Whose turn it is (R331; log 4): a running operation completes when its scheduled host accesses have passed or the host
has none left; else the host's next access is served; a block with nothing to do waits (70_reset R392). -/
def State.turn (s : State) : Host.Outcome State Fault Refusal :=
  match s.seq, s.wait, s.pending with
  | .idle, _, [] => .next s
  | .idle, _, a :: rest => State.serve { s with pending := rest } a
  | .busy, 0, _ => .next s.completeLatched
  | .busy, _ + 1, [] => .next s.completeLatched
  | .busy, k + 1, a :: rest => State.serve { s with pending := rest, wait := k } a

/-! ### Placing a command -/

/-- The host access `wr32 CMD, w`. -/
def writeCmd (w : Word) : HostAccess := .write (BitVec.ofNat 32 cmdOffset) 4 w

/-- The state in which the very next step is the host's write of `w` to CMD, the block is IDLE, and the operation completes
before any other host access (log 3). -/
def State.placeCommand (s : State) (w : Word) : State :=
  { s with seq := .idle, wait := 0, pending := writeCmd w :: s.pending, schedule := 0 :: s.schedule }

/-! ### Host programs (30_encoding R109) -/

/-- `wr32` to a register offset. -/
def wr32 (offset : Nat) (v : Word) : HostAccess := .write (BitVec.ofNat 32 offset) 4 v

/-- `rd32` of a register offset. -/
def rd32 (offset : Nat) : HostAccess := .read (BitVec.ofNat 32 offset) 4

/-- `wrb` to byte i of a buffer. -/
def wrb (b : Buffer) (i : Nat) (v : Byte) : HostAccess := .write (BitVec.ofNat 32 (b.base + i)) 1 (v.setWidth 32)

/-- `rdb` of byte i of a buffer. -/
def rdb (b : Buffer) (i : Nat) : HostAccess := .read (BitVec.ofNat 32 (b.base + i)) 1

/-- The writes of `load` (R109) from byte i of a buffer on. -/
def wrbAll (b : Buffer) : Nat → List Byte → List HostAccess
  | _, [] => []
  | i, v :: vs => wrb b i v :: wrbAll b (i + 1) vs

/-- `load IN, [...]` (R109). -/
def loadIn (bs : List Byte) : List HostAccess := wrbAll .inp 0 bs ++ [wr32 0x08 (BitVec.ofNat 32 bs.length)]

/-- `load AUX_IN, [...]` (R109). -/
def loadAuxIn (bs : List Byte) : List HostAccess := wrbAll .auxIn 0 bs ++ [wr32 0x0C (BitVec.ofNat 32 bs.length)]

/-- `run <mnemonic>` (R109): the command, then `poll STATUS.DONE, 1`. -/
def runCommand (i : Instr) : List HostAccess := [writeCmd (encode i), .poll 0x04 1 1 1]

/-- `fetch OUT` (R109). -/
def fetchOut : HostAccess := .readBlock 0x10 (BitVec.ofNat 32 (Buffer.base .out))

/-- `fetch AUX_OUT` (R109). -/
def fetchAuxOut : HostAccess := .readBlock 0x14 (BitVec.ofNat 32 (Buffer.base .auxOut))

end Sys2Proof.Machine
end

