-- ==== Sys2Proof/Machine/Step.lean ====
section
/-!
DEFINITION. One step of the machine (00_scope R7), and how a command is put where the next step runs it.
-/

namespace Sys2Proof.Machine

/-- One step: one host access, or one completion step of the engine, or nothing where there is nothing to do. -/
def step (s : State) : Host.Outcome State Fault Refusal := s.turn

/-- A command is fetched by the host's write to CMD (20_memory R75): this puts that write next (log 3). The bits of the
command word above `nbits` are 0. -/
def State.withFetchWord (s : State) (nbits w : Nat) : State := s.placeCommand (BitVec.ofNat 32 (w % 2 ^ nbits))

end Sys2Proof.Machine
end

