-- ==== Sys2Proof/Safety.lean ====
section
/-!
DEFINITION. The terms claims are made in: which states are proper ones (`State.Inv`), when a command completes at once
(`State.Ready`), what an input loaded by the host is (`State.HoldsInput`), and what a completed operation leaves
(`Compressed`, `Decompressed`, `Failed`, `OperationFrame`).
-/

namespace Sys2Proof.Machine

/-! ### Proper states -/

/-- The invariant of the machine. Every claim's premise that rules out states no run reaches is one of these. -/
structure State.Inv (s : State) : Prop where
  /-- The parameters keep the constraints of 00_scope R9. -/
  legal : s.params.Legal
  /-- Memory is in its canonical form. -/
  canonical : s.mem.wf
  /-- Only bytes of a buffer are stored (10_state R38, 20_memory R61). -/
  mapped : ∀ c ∈ s.mem, ∃ b i, targetOf s.params c.1 = .buf b i
  /-- OUT holds no byte at or above OUT_LEN (20_memory R74). -/
  outBelow : ∀ c ∈ s.mem, ∀ i, targetOf s.params c.1 = .buf .out i → i < s.outLen.toNat
  /-- AUX_OUT holds no byte at or above AUX_OUT_LEN (20_memory R74). -/
  auxBelow : ∀ c ∈ s.mem, ∀ i, targetOf s.params c.1 = .buf .auxOut i → i < s.auxOutLen.toNat
  /-- The output fits OUT (43_dispatch R324, R328). -/
  outFits : s.outLen.toNat ≤ s.params.maxOut
  /-- The serialized tree is at most 767 bytes (43_dispatch R322, R324). -/
  auxFits : s.auxOutLen.toNat ≤ 767
  /-- BUSY and DONE are never both 1 (10_state R24). -/
  busyNotDone : s.seq = .busy → s.done = false
  /-- The reserved error codes are never produced (60_exceptions R350). -/
  errKnown : s.err.toNat ≤ 5
  /-- ERR is non-zero only when DONE is 1 (10_state R24), and then no output is reported (60_exceptions R357). -/
  errReported : s.err ≠ 0 → s.done = true ∧ s.outLen = 0 ∧ s.auxOutLen = 0
  /-- RATIO_DEN is never 0 (10_state R33), and the ratio is at most 1 (43_dispatch R317). -/
  ratio : s.ratioDen ≠ 0 ∧ s.ratioNum.toNat ≤ s.ratioDen.toNat
  /-- BYTES_SAVED is from 0 to ORIG_SIZE (10_state R31, 43_dispatch R320). -/
  saved : s.bytesSaved.toNat ≤ s.origSize.toNat
  /-- Bits 31:8 of ALG_TAG are always 0 (10_state R35). -/
  algTagByte : s.algTag.toNat < 256

/-- No step so far was one the spec gives no meaning (10_state R49). -/
def State.Unrefused (s : State) : Prop := s.refused = false

/-! ### Before an operation -/

/-- The block accepts a START (43_dispatch R310), and the operation completes before the host's next access (R331). -/
abbrev State.Ready (s : State) : Prop := s.seq = .idle ∧ s.schedule.headD 0 = 0

/-- IN[0..IN_LEN) holds the string `inp`, every byte of it written, and it fits IN (70_reset R393). -/
abbrev State.HoldsInput (s : State) (inp : List Byte) : Prop :=
  s.inLen.toNat = inp.length ∧ inp.length ≤ s.params.maxIn ∧
    ∀ i, i < inp.length → s.bufByte .inp i = inp[i]?

/-- A command with START set: every well-formed one but NOP (30_encoding R91, R93). -/
def IsStart (i : Instr) : Prop := i.wf = true ∧ i ≠ .nop

/-- A command that runs one of the three coders (43_dispatch R313). -/
def HasCoder (i : Instr) : Prop :=
  i = .hufEnc ∨ i = .hufDec ∨ i = .rleEnc ∨ i = .rleDec ∨ i = .lzEnc ∨ i = .lzDec

/-- A command that compresses with one of the three coders. -/
def IsCompress (i : Instr) : Prop := i = .hufEnc ∨ i = .rleEnc ∨ i = .lzEnc

/-! ### The host's accesses -/

/-- The next step serves this host access (43_dispatch R331). -/
def State.Serves (s : State) (a : HostAccess) : Prop :=
  (s.seq = .idle ∨ 0 < s.wait) ∧ ∃ rest, s.pending = a :: rest

/-- The access is the host's write of a word with START set to CMD (43_dispatch R310). -/
def IsStartWrite (a : HostAccess) : Prop := ∃ w, a = .write 0 4 w ∧ w.getLsbD 0 = true

/-- The next step serves a START (accepted while IDLE, ignored while BUSY: 43_dispatch R310, R311). -/
def State.ServesStart (s : State) : Prop := ∃ a, s.Serves a ∧ IsStartWrite a

/-- The next step is the engine's completion step of a running operation: its host accesses have passed, or the host has none
left (43_dispatch R331; log 4). -/
def State.CompletionDue (s : State) : Prop := s.seq = .busy ∧ (s.wait = 0 ∨ s.pending = [])

/-- An access of 20_memory R62, R63 or R69: of the wrong width or alignment for what stands at the address, or where
nothing stands. -/
def IllegalAccess (p : Params) (addr : Word) (size : Nat) : Prop :=
  match targetOf p addr.toNat with
  | .reg offset => ¬ (size = 4 ∧ offset % 4 = 0)
  | .buf _ _ => size ≠ 1
  | .unmapped => True

/-- A START with this word would be accepted over an unwritten input byte (20_memory R68). -/
def StartsOverUnwritten (s : State) (w : Word) : Prop :=
  s.seq = .idle ∧ w.getLsbD 0 = true ∧ (w.extractLsb' 8 8).toNat < 3 ∧ s.inLen.toNat ≤ s.params.maxIn ∧
    ∃ i, i < s.inLen.toNat ∧ s.bufByte .inp i = none

/-- The accesses the spec gives a meaning, by address and size (20_memory R61, R62, R63): a word at a multiple of 4 in the
register region, or one byte of a buffer. -/
def LegalAccess (p : Params) (a size : Nat) : Prop :=
  (a < 0x1000 ∧ a % 4 = 0 ∧ size = 4) ∨
  (size = 1 ∧
    ((0x10000000 ≤ a ∧ a < 0x10000000 + p.maxIn) ∨ (0x20000000 ≤ a ∧ a < 0x20000000 + p.maxAux) ∨
      (0x30000000 ≤ a ∧ a < 0x30000000 + p.maxOut) ∨ (0x40000000 ≤ a ∧ a < 0x40000000 + p.maxAux)))

/-- What the host does here has no meaning (10_state R49). -/
def Meaningless (s : State) : HostAccess → Prop
  | .read addr size => IllegalAccess s.params addr size
  | .write addr size w => IllegalAccess s.params addr size ∨ (addr = 0 ∧ size = 4 ∧ StartsOverUnwritten s w)
  | .poll addr _ _ _ => IllegalAccess s.params addr 4
  | .readBlock lenAddr _ => IllegalAccess s.params lenAddr 4
  | .reset => False

/-! ### After an operation -/

/-- The addresses of the buffers OUT and AUX_OUT and of the unmapped rest of their regions (20_memory R61). -/
def inOutputRegions (a : Nat) : Prop := Buffer.base .out ≤ a ∧ a < Buffer.base .auxOut + regionSpan

/-- A buffer holds exactly a string: its bytes from index 0 up, and no specified byte at or above its length. -/
def State.BufHolds (s : State) (b : Buffer) (bs : List Byte) : Prop :=
  ∀ i, i < regionSpan → s.bufByte b i = bs[i]?

/-- What every operation leaves alone: the parameters, the input registers, the host's accesses, and every byte outside
the output buffers (60_exceptions R357, R358, 20_memory R67). -/
structure OperationFrame (s t : State) : Prop where
  params : t.params = s.params
  inLen : t.inLen = s.inLen
  auxInLen : t.auxInLen = s.auxInLen
  pending : t.pending = s.pending
  received : t.received = s.received
  bytes : ∀ a, ¬ inOutputRegions a → t.mem.read a = s.mem.read a

/-- The latches hold the command's OP, ALG and input length (10_state R39). -/
structure Latched (s t : State) (i : Instr) : Prop where
  opL : t.opL = i.op
  algL : t.algL = i.alg
  nL : t.nL = s.inLen

/-- STATUS and SEQ after a completion step (43_dispatch R315). -/
structure CompletedWith (t : State) (err : Byte) : Prop where
  seq : t.seq = .idle
  done : t.done = true
  err : t.err = err

/-- The result of a successful compress of n bytes to the container `c` with auxiliary tree `a` (43_dispatch R316). -/
structure Compressed (t : State) (n : Nat) (c a : List Byte) (alg : Byte) : Prop where
  status : CompletedWith t 0
  outLen : t.outLen.toNat = c.length
  auxOutLen : t.auxOutLen.toNat = a.length
  origSize : t.origSize.toNat = n
  resultSize : t.resultSize.toNat = min c.length n
  bytesSaved : t.bytesSaved.toNat = n - min c.length n
  ratioNum : t.ratioNum.toNat = if 0 < n then min c.length n else 0
  ratioDen : t.ratioDen.toNat = if 0 < n then n else 1
  algTag : t.algTag = alg.setWidth 32
  out : t.BufHolds .out c
  auxOut : t.BufHolds .auxOut a

/-- The result of a successful decompress of n bytes to the string `d` (43_dispatch R326). -/
structure Decompressed (t : State) (n : Nat) (d : List Byte) (alg : Byte) : Prop where
  status : CompletedWith t 0
  outLen : t.outLen.toNat = d.length
  auxOutLen : t.auxOutLen = 0
  origSize : t.origSize.toNat = n
  resultSize : t.resultSize.toNat = d.length
  bytesSaved : t.bytesSaved = 0
  ratioNum : t.ratioNum = 0
  ratioDen : t.ratioDen = 1
  algTag : t.algTag = alg.setWidth 32
  out : t.BufHolds .out d

/-- The result of a failed operation (43_dispatch R329, 60_exceptions R357). -/
structure Failed (t : State) (e : CodecError) (alg : Byte) : Prop where
  status : CompletedWith t e.code
  outLen : t.outLen = 0
  auxOutLen : t.auxOutLen = 0
  origSize : t.origSize = 0
  resultSize : t.resultSize = 0
  bytesSaved : t.bytesSaved = 0
  ratioNum : t.ratioNum = 0
  ratioDen : t.ratioDen = 1
  algTag : t.algTag = alg.setWidth 32

/-- CompressFinish (43_dispatch R316): the guard's failure in FAULT mode (R318), or the container and its statistics. -/
def CompressOutcome (p : Params) (t : State) (n : Nat) (c a : List Byte) (alg : Byte) : Prop :=
  (p.guardMode = .fault ∧ n < c.length ∧ Failed t .expansionInvariantViolated alg) ∨
  (¬ (p.guardMode = .fault ∧ n < c.length) ∧ Compressed t n c a alg)

/-- What a decompress of n bytes reports of its decoder's answer (43_dispatch R326, R329). -/
def DecompressOutcome (t : State) (n : Nat) (answer : Except CodecError (List Byte)) (alg : Byte) : Prop :=
  match answer with
  | .ok d => Decompressed t n d alg
  | .error e => Failed t e alg

/-- The values of 70_reset R390 that a reset gives: registers, flags, SEQ, and every buffer byte unwritten. -/
structure ResetValues (t : State) : Prop where
  seq : t.seq = .idle
  cmd : t.readReg 0x00 = 0
  status : t.status = 0
  inLen : t.inLen = 0
  auxInLen : t.auxInLen = 0
  outLen : t.outLen = 0
  auxOutLen : t.auxOutLen = 0
  origSize : t.origSize = 0
  resultSize : t.resultSize = 0
  bytesSaved : t.bytesSaved = 0
  ratioNum : t.ratioNum = 0
  ratioDen : t.ratioDen = 1
  elapsed : t.elapsed = 0
  algTag : t.algTag = 0
  reserved : ∀ off, 0x34 ≤ off → off ≤ 0xFFC → t.readReg off = 0
  unwritten : ∀ b i, t.bufByte b i = none

/-- Two states report the same results: every register a completion step writes but ELAPSED, and the reported bytes of
OUT and AUX_OUT (43_dispatch R332). -/
structure SameResults (t u : State) : Prop where
  seq : t.seq = u.seq
  done : t.done = u.done
  err : t.err = u.err
  outLen : t.outLen = u.outLen
  auxOutLen : t.auxOutLen = u.auxOutLen
  origSize : t.origSize = u.origSize
  resultSize : t.resultSize = u.resultSize
  bytesSaved : t.bytesSaved = u.bytesSaved
  ratioNum : t.ratioNum = u.ratioNum
  ratioDen : t.ratioDen = u.ratioDen
  algTag : t.algTag = u.algTag
  out : ∀ i, i < t.outLen.toNat → t.bufByte .out i = u.bufByte .out i
  auxOut : ∀ i, i < t.auxOutLen.toNat → t.bufByte .auxOut i = u.bufByte .auxOut i

/-- The result registers are as they were (20_memory R70, 43_dispatch R310). -/
structure ResultsKept (s t : State) : Prop where
  outLen : t.outLen = s.outLen
  auxOutLen : t.auxOutLen = s.auxOutLen
  origSize : t.origSize = s.origSize
  resultSize : t.resultSize = s.resultSize
  bytesSaved : t.bytesSaved = s.bytesSaved
  ratioNum : t.ratioNum = s.ratioNum
  ratioDen : t.ratioDen = s.ratioDen
  elapsed : t.elapsed = s.elapsed
  algTag : t.algTag = s.algTag

/-- The block's registers and memory are as they were: what an access without an effect leaves (20_memory R64). -/
structure BlockKept (s t : State) : Prop where
  params : t.params = s.params
  seq : t.seq = s.seq
  done : t.done = s.done
  err : t.err = s.err
  inLen : t.inLen = s.inLen
  auxInLen : t.auxInLen = s.auxInLen
  results : ResultsKept s t
  opL : t.opL = s.opL
  algL : t.algL = s.algL
  nL : t.nL = s.nL
  mem : t.mem = s.mem

/-! ### Streams and round trips -/

/-- The `len` bytes of an input from position `a` on equal those from position `b` on (41_window R221). -/
def MatchesFor (inp : List Byte) (a b len : Nat) : Prop :=
  b + len ≤ inp.length ∧ ∀ j, j < len → inp[a + j]? = inp[b + j]?

/-- A token stream of the window coder whose match tokens keep the encoder's bounds (41_window R241). -/
inductive WindowStream : List Byte → Prop where
  | done : WindowStream []
  | literal (b : Byte) {rest : List Byte} : WindowStream rest → WindowStream (0x00 :: b :: rest)
  | copy (dist len : Nat) (next : Byte) {rest : List Byte} :
      1 ≤ dist → dist ≤ 1024 → 3 ≤ len → len ≤ 15 → WindowStream rest →
      WindowStream (matchToken len dist next ++ rest)

/-- Whether the token loop (41_window R225) emits a match token whose following input byte exists and is 0x00 (R240).
It follows the loop of `lzTokensFrom`. -/
def lzLosesNulFrom (inp : List Byte) : Nat → Nat → List Byte → Bool
  | _, _, [] => false
  | skip + 1, pos, _ :: rest => lzLosesNulFrom inp skip (pos + 1) rest
  | 0, pos, b :: rest =>
    if Config.minMatch ≤ (findMatch inp pos (b :: rest)).1 then
      decide ((b :: rest)[(findMatch inp pos (b :: rest)).1]? = some 0x00) ||
        lzLosesNulFrom inp (findMatch inp pos (b :: rest)).1 (pos + 1) rest
    else lzLosesNulFrom inp 0 (pos + 1) rest

/-- Some match token of the stream of `inp` is followed by an input byte 0x00 (41_window R240). -/
def lzLosesNul (inp : List Byte) : Bool := lzLosesNulFrom inp 0 0 inp

/-- The order of 40_huffman R153, D9: weight, then creation number. -/
def PoolNode.BeforeByCreation (a b : PoolNode) : Prop :=
  a.weight < b.weight ∨ (a.weight = b.weight ∧ a.seq < b.seq)

/-- The order under a machine's tree order: weight, then the order's rank, then creation number (40_huffman R156; log 16). -/
def PoolNode.Before (a b : PoolNode) : Prop :=
  a.weight < b.weight ∨ (a.weight = b.weight ∧ (a.rank < b.rank ∨ (a.rank = b.rank ∧ a.seq < b.seq)))

/-- The number of leaves of a tree. -/
def CodeTree.leafCount : CodeTree → Nat
  | .leaf _ => 1
  | .node l r => l.leafCount + r.leafCount

/-- The number of internal nodes of a tree. -/
def CodeTree.internalCount : CodeTree → Nat
  | .leaf _ => 0
  | .node l r => l.internalCount + r.internalCount + 1

/-- The byte values at the leaves, left to right. -/
def CodeTree.values : CodeTree → List Byte
  | .leaf v => [v]
  | .node l r => l.values ++ r.values

/-- The bytes of one node of a serialized tree (30_encoding R98): a leaf's tag and value, or an internal node's tag. -/
def nodeRecord : Option Byte → List Byte
  | some v => [0x01, v]
  | none => [0x00]

/-- How many nodes are still missing after a pre-order sequence of node records, where n were missing before it; 0 once the tree
is whole (40_huffman R183). -/
def missingNodes : Nat → List (Option Byte) → Nat
  | 0, _ => 0
  | n + 1, [] => n + 1
  | n + 1, some _ :: recs => missingNodes n recs
  | n + 1, none :: recs => missingNodes (n + 2) recs

/-- The length of the longest path from the root to a leaf. -/
def CodeTree.depth : CodeTree → Nat
  | .leaf _ => 0
  | .node l r => max l.depth r.depth + 1

end Sys2Proof.Machine
end

