-- ==== Sys2Proof/Certificates/Slice0/Obligations.lean ====
section
/-!
DEFINITION. The statements for the provers, each from the spec's numbered rules (OBLIGATIONS.json gives the rule and its
sentence).
-/

open Sys2Proof Sys2Proof.Machine

/-! ### Command words -/

/-- R91, R93: the command map, each row by its match and mask, the unsupported rows last. -/
def Obligations.CommandMapDecodes : Prop :=
  ∀ w : Word,
    (w &&& 0x00000001 = 0x00000000 → decodeCmd w = .nop) ∧
    (w &&& 0x0000FF03 = 0x00000001 → decodeCmd w = .hufEnc) ∧
    (w &&& 0x0000FF03 = 0x00000003 → decodeCmd w = .hufDec) ∧
    (w &&& 0x0000FF03 = 0x00000101 → decodeCmd w = .rleEnc) ∧
    (w &&& 0x0000FF03 = 0x00000103 → decodeCmd w = .rleDec) ∧
    (w &&& 0x0000FF03 = 0x00000201 → decodeCmd w = .lzEnc) ∧
    (w &&& 0x0000FF03 = 0x00000203 → decodeCmd w = .lzDec) ∧
    (w &&& 0x00000003 = 0x00000001 → 3 ≤ (w.extractLsb' 8 8).toNat → decodeCmd w = .unsupEnc (w.extractLsb' 8 8)) ∧
    (w &&& 0x00000003 = 0x00000003 → 3 ≤ (w.extractLsb' 8 8).toNat → decodeCmd w = .unsupDec (w.extractLsb' 8 8))

/-- R92: a word with reserved bits set decodes as the same word with them clear, and a host write of either to CMD does
the same in every state. -/
def Obligations.ReservedCommandBitsIgnored : Prop :=
  ∀ w : Word, decodeCmd w = decodeCmd (w &&& 0x0000FF03) ∧
    ∀ s : State, s.serve (.write 0 4 w) = s.serve (.write 0 4 (w &&& 0x0000FF03))

/-- R90, R91, R107: no bit of a command is dropped: decoding an encoded well-formed command gives it back, encoding a
decoded word gives its unreserved bits back (a NOP has none), and the opcode table's numbering reads the same word. -/
def Obligations.DecodeEncodeAgree : Prop :=
  (∀ i : Instr, i.wf = true → decodeCmd (encode i) = i) ∧
  (∀ w : Word, encode (decodeCmd w) = if w.getLsbD 0 then w &&& 0x0000FF03 else 0) ∧
  (∀ w : Word, (decodeCmd w).wf = true) ∧
  (∀ w : Word, decodeTableWord 32 w.toNat = some (decodeCmd w))

/-- Words written out in the spec: R93, R107, R108 and the vectors V-DSP-5, V-DSP-10, V-DSP-11. -/
def Obligations.SampleCommandWords : Prop :=
  decodeCmd 0x00000000 = .nop ∧ decodeCmd 0x00000202 = .nop ∧
  decodeCmd 0x00000001 = .hufEnc ∧ decodeCmd 0x000100FD = .hufEnc ∧ decodeCmd 0x00000003 = .hufDec ∧
  decodeCmd 0x00000101 = .rleEnc ∧ decodeCmd 0x00000103 = .rleDec ∧
  decodeCmd 0x00000201 = .lzEnc ∧ decodeCmd 0x00000203 = .lzDec ∧
  decodeCmd 0x00000301 = .unsupEnc 0x03 ∧ decodeCmd 0x00000701 = .unsupEnc 0x07 ∧
  decodeCmd 0x0000FF03 = .unsupDec 0xFF

/-! ### Reset -/

/-- R390, R391: the external reset, also during an operation, gives every register its reset value and makes every buffer
byte unwritten, with REFUSED unchanged; the state after power-on has these values too. -/
def Obligations.ResetGivesTheResetValues : Prop :=
  (∀ s : State, s.Serves .reset → ∃ t, step s = .next t ∧ t.refused = s.refused ∧ ResetValues t) ∧
  ResetValues State.reset

/-! ### Accepting a command -/

/-- R310, R39: an accepted START that does not complete at once latches OP, ALG and IN_LEN, sets BUSY, clears DONE and
ERR, and changes no other register and no buffer byte. -/
def Obligations.AcceptedStartLatches : Prop :=
  ∀ (i : Instr) (s : State), IsStart i → s.seq = .idle → s.schedule.headD 0 ≠ 0 →
    ∃ t, exec i s = .next t ∧ Latched s t i ∧ t.seq = .busy ∧ t.status = 0x00000001 ∧ t.done = false ∧ t.err = 0 ∧
      ResultsKept s t ∧ t.inLen = s.inLen ∧ t.auxInLen = s.auxInLen ∧ t.params = s.params ∧ t.mem = s.mem ∧
      t.pending = s.pending ∧ t.received = s.received

/-- R311: a START while BUSY changes no state, so it is not queued and the running operation is not affected. -/
def Obligations.StartWhileBusyIgnored : Prop :=
  ∀ s : State, s.seq = .busy →
    (∀ i : Instr, i ≠ .nop → exec i s = .next s) ∧
    ∀ w : Word, w.getLsbD 0 = true → s.serve (.write 0 4 w) = .next s

/-- R312: a write to CMD with START = 0 changes nothing, whatever the other bits, IDLE or BUSY. -/
def Obligations.NopChangesNothing : Prop :=
  ∀ s : State, exec .nop s = .next s ∧
    ∀ w : Word, w.getLsbD 0 = false → s.serve (.write 0 4 w) = .next s

/-- R315, R323: every completion step leaves IDLE and DONE = 1 and writes ALG_TAG with the latched ALG, for success, failure
and unsupported values alike: the one a START reaches at once, and the engine's own later one. That a ready state completes in
the step of the START, and when a running operation completes (no access left to pass, or none to come), are the model's
choices (logs 4 and 5). -/
def Obligations.EveryCommandCompletes : Prop :=
  (∀ (i : Instr) (s : State), IsStart i → s.Ready →
    ∃ t, exec i s = .next t ∧ t.seq = .idle ∧ t.done = true ∧ Latched s t i ∧ t.algTag = i.alg.setWidth 32) ∧
  ∀ s : State, s.seq = .busy → (s.wait = 0 ∨ s.pending = []) →
    ∃ t, step s = .next t ∧ t.seq = .idle ∧ t.done = true ∧ t.algTag = s.algL.setWidth 32

/-! ### What each command gives -/

/-- R177, R316, R318: HUF.ENC, under the machine's tree order (R156). Ready is the model's schedule (log 4); that OUT and AUX_OUT
hold no specified byte at or above the reported lengths is the model's choice (log 9). -/
def Obligations.HufEncCompletes : Prop :=
  ∀ (s : State) (inp : List Byte), s.params.Legal → s.Ready → s.HoldsInput inp →
    ∃ t, exec .hufEnc s = .next t ∧ OperationFrame s t ∧ t.refused = s.refused ∧
      CompressOutcome s.params t inp.length (hufEncode (policyOf s.params.treeOrder) inp).1
        (hufEncode (policyOf s.params.treeOrder) inp).2 0x00

/-- R277, R316, R318: RLE.ENC, with P_RLE_ZERO_RUNS as the machine has it (R273). Ready is log 4's choice, the
unwritten bytes at and above the reported lengths are log 9's. -/
def Obligations.RleEncCompletes : Prop :=
  ∀ (s : State) (inp : List Byte), s.params.Legal → s.Ready → s.HoldsInput inp →
    ∃ t, exec .rleEnc s = .next t ∧ OperationFrame s t ∧ t.refused = s.refused ∧
      CompressOutcome s.params t inp.length (rleEncode s.params.zeroRuns inp) [] 0x01

/-- R231, R316, R318: LZ.ENC. Ready is log 4's choice, the unwritten bytes at and above the reported lengths are log 9's. -/
def Obligations.LzEncCompletes : Prop :=
  ∀ (s : State) (inp : List Byte), s.params.Legal → s.Ready → s.HoldsInput inp →
    ∃ t, exec .lzEnc s = .next t ∧ OperationFrame s t ∧ t.refused = s.refused ∧
      CompressOutcome s.params t inp.length (lzEncode inp) [] 0x02

/-- R189, R326, R357: HUF.DEC. Ready is log 4's choice, the unwritten bytes at and above OUT_LEN are log 9's. -/
def Obligations.HufDecCompletes : Prop :=
  ∀ (s : State) (inp : List Byte), s.params.Legal → s.Ready → s.HoldsInput inp →
    ∃ t, exec .hufDec s = .next t ∧ OperationFrame s t ∧ t.refused = s.refused ∧
      DecompressOutcome t inp.length (hufDecode s.params.maxOut inp) 0x00

/-- R282, R326, R357: RLE.DEC. Ready is log 4's choice, the unwritten bytes at and above OUT_LEN are log 9's. -/
def Obligations.RleDecCompletes : Prop :=
  ∀ (s : State) (inp : List Byte), s.params.Legal → s.Ready → s.HoldsInput inp →
    ∃ t, exec .rleDec s = .next t ∧ OperationFrame s t ∧ t.refused = s.refused ∧
      DecompressOutcome t inp.length (rleDecode s.params.maxOut inp) 0x01

/-- R239, R326, R357: LZ.DEC. Ready is log 4's choice, the unwritten bytes at and above OUT_LEN are log 9's. -/
def Obligations.LzDecCompletes : Prop :=
  ∀ (s : State) (inp : List Byte), s.params.Legal → s.Ready → s.HoldsInput inp →
    ∃ t, exec .lzDec s = .next t ∧ OperationFrame s t ∧ t.refused = s.refused ∧
      DecompressOutcome t inp.length (lzDecode s.params.maxOut inp) 0x02

/-- R330, R351: UNSUP.ENC and UNSUP.DEC complete with UNSUPPORTED_ALGORITHM, whatever IN_LEN is, and read no buffer. -/
def Obligations.UnsupportedCompletes : Prop :=
  ∀ (s : State) (alg : Byte), 3 ≤ alg.toNat → s.Ready →
    (∃ t, exec (.unsupEnc alg) s = .next t ∧ OperationFrame s t ∧ t.refused = s.refused ∧
      Failed t .unsupportedAlgorithm alg) ∧
    (∃ t, exec (.unsupDec alg) s = .next t ∧ OperationFrame s t ∧ t.refused = s.refused ∧
      Failed t .unsupportedAlgorithm alg)

/-- R314, R355: a supported command with IN_LEN above P_MAX_IN fails with CAPACITY_EXCEEDED, before any input byte is
read: REFUSED is not set by unwritten input. -/
def Obligations.LongInputFails : Prop :=
  ∀ (i : Instr) (s : State), HasCoder i → s.Ready → s.params.maxIn < s.inLen.toNat →
    ∃ t, exec i s = .next t ∧ OperationFrame s t ∧ t.refused = s.refused ∧ Failed t .capacityExceeded i.alg

/-- R357, R358, R315: whatever a command does, the parameters, IN_LEN, AUX_IN_LEN, the host's accesses and every byte
outside OUT and AUX_OUT are as before. What it stores is said by the statements of its result. -/
def Obligations.CommandFrame : Prop :=
  ∀ (i : Instr) (s t : State), s.params.Legal → exec i s = .next t → OperationFrame s t

/-- R317, R320: with P_GUARD_MODE = SATURATE a compress never fails the guard: RESULT_SIZE is at most ORIG_SIZE, differs
from OUT_LEN exactly when the container is longer than the input, BYTES_SAVED is their difference, the ratio at most 1. Ready,
the completion in the same step, is the model's schedule (log 4). -/
def Obligations.GuardSaturates : Prop :=
  ∀ (i : Instr) (s : State) (inp : List Byte), IsCompress i → s.params.Legal → s.params.guardMode = .saturate →
    s.Ready → s.HoldsInput inp →
    ∃ t, exec i s = .next t ∧ t.err = 0 ∧ t.origSize = s.inLen ∧
      t.resultSize.toNat = min t.outLen.toNat inp.length ∧
      (t.resultSize ≠ t.outLen ↔ inp.length < t.outLen.toNat) ∧
      t.bytesSaved.toNat + t.resultSize.toNat = t.origSize.toNat ∧
      t.ratioNum.toNat ≤ t.ratioDen.toNat ∧ t.ratioDen ≠ 0

/-! ### Whole-machine rules -/

/-- R49: a step sets REFUSED exactly when the host's access is one of R62, R63, R69 or a START over unwritten input
(R68), and never clears it, the reset included. -/
def Obligations.RefusedMarkedExactly : Prop :=
  ∀ s t : State, step s = .next t →
    (t.refused = true ↔ s.refused = true ∨ ∃ a, s.Serves a ∧ Meaningless s a)

/-- R37, R21: no other event writes SEQ, DONE and ERR: they change only by an accepted START (then BUSY with DONE and ERR 0, or
at once completed), by a completion step (then IDLE with DONE 1), and by reset (then all 0). That each event does write them
is said by AcceptedStartLatches, EveryCommandCompletes and ResetGivesTheResetValues. The completion at once and when a
completion is due are the model's choices (logs 4 and 5). -/
def Obligations.FlagsChangeOnlyByThreeEvents : Prop :=
  ∀ s t : State, step s = .next t →
    (t.seq = s.seq ∧ t.done = s.done ∧ t.err = s.err) ∨
    (s.seq = .idle ∧ (∃ a, s.Serves a ∧ IsStartWrite a) ∧
      ((t.seq = .busy ∧ t.done = false ∧ t.err = 0) ∨ (t.seq = .idle ∧ t.done = true ∧ t.err.toNat ≤ 5))) ∨
    (s.seq = .busy ∧ (s.wait = 0 ∨ s.pending = []) ∧ t.seq = .idle ∧ t.done = true ∧ t.err.toNat ≤ 5) ∨
    (s.Serves .reset ∧ t.seq = .idle ∧ t.done = false ∧ t.err = 0)

/-- R400, R27 to R35, R64: a step that is no reset and no completion (of a running operation, or at once by a START) changes no
result register and no byte of OUT and AUX_OUT, whether the block is BUSY or holds a finished operation's results; unless a
START is accepted, DONE, ERR and what the host reads of OUT and AUX_OUT stay too. Which steps complete is the model's
schedule (logs 4 and 5). -/
def Obligations.ResultsChangeOnlyAtCompletion : Prop :=
  ∀ s t : State, step s = .next t → ¬ s.Serves .reset → ¬ s.CompletionDue → ¬ (s.Ready ∧ s.ServesStart) →
    ResultsKept s t ∧
    (s.params.Legal → ∀ a, inOutputRegions a → t.mem.read a = s.mem.read a) ∧
    (¬ (s.seq = .idle ∧ s.ServesStart) → t.seq = s.seq ∧ t.done = s.done ∧ t.err = s.err ∧
      (s.params.Legal → ∀ i,
        (i < s.params.maxOut → t.readBus (BitVec.ofNat 32 (0x30000000 + i)) 1 =
          s.readBus (BitVec.ofNat 32 (0x30000000 + i)) 1) ∧
        (i < s.params.maxAux → t.readBus (BitVec.ofNat 32 (0x40000000 + i)) 1 =
          s.readBus (BitVec.ofNat 32 (0x40000000 + i)) 1)))

/-- No step stops: the block has no trap (60_exceptions R357) and answers every access; no step changes the parameters. -/
def Obligations.StepAlwaysAnswers : Prop :=
  ∀ s : State, ∃ t, step s = .next t ∧ t.params = s.params

/-- Tier 1 of the invariant: it holds after reset (log 1 names the reset state's capacities). -/
def Obligations.InvariantHoldsAtReset : Prop := State.reset.Inv

/-- The invariant is kept by every step. -/
def Obligations.StepKeepsInvariant : Prop :=
  ∀ s t : State, s.Inv → step s = .next t → t.Inv

/-- R331: every accepted operation reaches its completion step, after at most the scheduled number of host accesses. -/
def Obligations.OperationsTerminate : Prop :=
  ∀ s : State, s.seq = .busy → HostAccess.reset ∉ s.pending →
    ∃ (k : Nat) (t : State), k ≤ s.wait + 1 ∧ Sys2Proof.core.run k s = Host.Outcome.next t ∧ t.seq = .idle ∧ t.done = true

/-- The host's write of a word to CMD is the fetch of a command (R75): the step is exec of the decoded command at the
state without that access; while BUSY the write is one of the accesses the operation waits for (log 4). -/
def Obligations.StepRunsTheDecodedCommand : Prop :=
  ∀ (s : State) (w : Word) (rest : List HostAccess), s.pending = writeCmd w :: rest →
    (s.seq = .idle → step s = exec (decodeCmd w) { s with pending := rest }) ∧
    (∀ k, s.seq = .busy → s.wait = k + 1 → step s = exec (decodeCmd w) { s with pending := rest, wait := k })

/-- R313, R315, R332: an operation that completes later, by the engine's own step, gives the results it gives at once, whatever
IN_LEN is and whatever IN holds. That the schedule's number becomes `wait`, and that 0 completes in the same step, are the
model's choices (logs 4 and 5). -/
def Obligations.LaterCompletionGivesTheSame : Prop :=
  ∀ (i : Instr) (s : State) (k : Nat) (more : List Nat), IsStart i → s.seq = .idle →
    ∃ t u v, exec i { s with schedule := 0 :: more } = .next t ∧
      exec i { s with schedule := (k + 1) :: more } = .next u ∧ u.seq = .busy ∧ u.wait = k + 1 ∧
      step { u with wait := 0 } = .next v ∧ SameResults t v

/-- R70, R67, R395: no host access during an operation changes what it will report, nor any register but those of the
host's own reading. The input, where the operation reads any, is written (R68): a long input (R355) and an unsupported ALG
(R330) read none. -/
def Obligations.HostCannotDisturbAnOperation : Prop :=
  ∀ (s t : State) (a : HostAccess), s.seq = .busy → s.params.Legal → a ≠ .reset →
    (s.algL.toNat < 3 → s.nL.toNat ≤ s.params.maxIn → ∀ i, i < s.nL.toNat → s.bufByte .inp i ≠ none) →
    s.serve a = .next t →
    BlockKept s t ∧ SameResults s.completeLatched t.completeLatched

/-- R332, R327, R48: the results of a command depend on the parameters, IN_LEN and IN[0..IN_LEN) alone: not on AUX_IN,
AUX_IN_LEN, earlier results or anything else of the state. The input, where the command reads any, is written (R68): a long
input (R355) and an unsupported ALG (R330) read none. Ready, the completion in the same step, is the model's choice (log 4;
LaterCompletionGivesTheSame and HostCannotDisturbAnOperation are about the others). -/
def Obligations.ResultsAreAFunctionOfTheInput : Prop :=
  ∀ (i : Instr) (s u : State), IsStart i → s.params.Legal → u.params = s.params → s.Ready → u.Ready →
    u.inLen = s.inLen →
    (HasCoder i → s.inLen.toNat ≤ s.params.maxIn →
      ∀ j, j < s.inLen.toNat → s.bufByte .inp j ≠ none ∧ u.bufByte .inp j = s.bufByte .inp j) →
    ∃ t v, exec i s = .next t ∧ exec i u = .next v ∧ SameResults t v

/-! ### The host bus -/

/-- R61, R62, R63, R69: which reads and writes are refused, by address and size, and that they set REFUSED. -/
def Obligations.IllegalAccessesAreRefused : Prop :=
  ∀ (s : State) (addr : Word) (size : Nat), s.params.Legal →
    (s.readBus addr size = .refused ↔ ¬ LegalAccess s.params addr.toNat size) ∧
    (¬ LegalAccess s.params addr.toNat size →
      (∃ t, s.serve (.read addr size) = .next t ∧ t.refused = true) ∧
      ∀ w, ∃ t, s.serve (.write addr size w) = .next t ∧ t.refused = true)

/-- R64: a read has no effect on the block and reading again gives the same; a write to a read-only register, to OUT or to
AUX_OUT changes nothing. -/
def Obligations.ReadsAndReadOnlyWritesHaveNoEffect : Prop :=
  (∀ (s t : State) (addr : Word) (size : Nat), s.serve (.read addr size) = .next t →
    BlockKept s t ∧ t.readBus addr size = s.readBus addr size) ∧
  (∀ (s : State) (off : Nat) (w : Word), 4 ≤ off → off < 0x1000 → off % 4 = 0 → off ≠ 0x08 → off ≠ 0x0C →
    s.serve (.write (BitVec.ofNat 32 off) 4 w) = .next s) ∧
  (∀ (s : State) (i : Nat) (w : Word), s.params.Legal → i < s.params.maxOut →
    s.serve (.write (BitVec.ofNat 32 (0x30000000 + i)) 1 w) = .next s) ∧
  (∀ (s : State) (i : Nat) (w : Word), s.params.Legal → i < s.params.maxAux →
    s.serve (.write (BitVec.ofNat 32 (0x40000000 + i)) 1 w) = .next s)

/-- R22, R23, R36: what a 32-bit read of each register offset gives. -/
def Obligations.RegisterFileReads : Prop :=
  ∀ s : State,
    s.readBus 0x00 4 = .value 0 ∧ s.readBus 0x04 4 = .value s.status ∧ s.readBus 0x08 4 = .value s.inLen ∧
    s.readBus 0x0C 4 = .value s.auxInLen ∧ s.readBus 0x10 4 = .value s.outLen ∧
    s.readBus 0x14 4 = .value s.auxOutLen ∧ s.readBus 0x18 4 = .value s.origSize ∧
    s.readBus 0x1C 4 = .value s.resultSize ∧ s.readBus 0x20 4 = .value s.bytesSaved ∧
    s.readBus 0x24 4 = .value s.ratioNum ∧ s.readBus 0x28 4 = .value s.ratioDen ∧
    s.readBus 0x2C 4 = .value s.elapsed ∧ s.readBus 0x30 4 = .value s.algTag ∧
    ∀ off, 0x34 ≤ off → off ≤ 0xFFC → off % 4 = 0 →
      s.readBus (BitVec.ofNat 32 off) 4 = .value 0 ∧ ∀ w, s.serve (.write (BitVec.ofNat 32 off) 4 w) = .next s

/-- R25, R26: a host write to IN_LEN or AUX_IN_LEN stores any 32-bit value while IDLE and is ignored while BUSY; nothing
else changes. -/
def Obligations.LengthRegistersAreWritable : Prop :=
  ∀ (s : State) (w : Word),
    (s.seq = .idle → s.serve (.write 0x08 4 w) = .next { s with inLen := w } ∧
      s.serve (.write 0x0C 4 w) = .next { s with auxInLen := w }) ∧
    (s.seq = .busy → s.serve (.write 0x08 4 w) = .next s ∧ s.serve (.write 0x0C 4 w) = .next s)

/-- R24, R21: the fields of STATUS. -/
def Obligations.StatusLayout : Prop :=
  ∀ s : State, (s.status.getLsbD 0 = true ↔ s.seq = .busy) ∧ s.status.getLsbD 1 = s.done ∧
    s.status.extractLsb' 8 8 = s.err ∧ s.status.extractLsb' 2 6 = 0 ∧ s.status.extractLsb' 16 16 = 0

/-- R71, R38: while IDLE a byte the host writes to IN or AUX_IN is read back, every other byte is as before, and no register
changes. -/
def Obligations.WrittenBytesAreReadBack : Prop :=
  ∀ (s : State) (i : Nat) (v : Byte), s.params.Legal → s.seq = .idle →
    (i < s.params.maxIn → ∃ t, s.serve (wrb .inp i v) = .next t ∧
      t.readBus (BitVec.ofNat 32 (0x10000000 + i)) 1 = .value (v.setWidth 32) ∧
      (∀ a, a ≠ 0x10000000 + i → t.mem.read a = s.mem.read a) ∧ BlockKept s { t with mem := s.mem }) ∧
    (i < s.params.maxAux → ∃ t, s.serve (wrb .auxIn i v) = .next t ∧
      t.readBus (BitVec.ofNat 32 (0x20000000 + i)) 1 = .value (v.setWidth 32) ∧
      (∀ a, a ≠ 0x20000000 + i → t.mem.read a = s.mem.read a) ∧ BlockKept s { t with mem := s.mem })

/-- R70: host accesses while BUSY. -/
def Obligations.AccessesWhileBusy : Prop :=
  ∀ s : State, s.params.Legal → s.seq = .busy →
    (∀ i w, i < s.params.maxIn → s.serve (.write (BitVec.ofNat 32 (0x10000000 + i)) 1 w) = .next s) ∧
    (∀ i w, i < s.params.maxAux → s.serve (.write (BitVec.ofNat 32 (0x20000000 + i)) 1 w) = .next s) ∧
    (∀ w, s.serve (.write 0x08 4 w) = .next s ∧ s.serve (.write 0x0C 4 w) = .next s ∧
      s.serve (.write 0x00 4 w) = .next s) ∧
    (∀ a t, a ≠ .reset → s.serve a = .next t → ResultsKept s t ∧ t.inLen = s.inLen ∧ t.auxInLen = s.auxInLen) ∧
    s.status.getLsbD 0 = true ∧
    (∀ i, i < s.params.maxOut → s.readBus (BitVec.ofNat 32 (0x30000000 + i)) 1 = .unspecified) ∧
    (∀ i, i < s.params.maxAux → s.readBus (BitVec.ofNat 32 (0x40000000 + i)) 1 = .unspecified) ∧
    (∀ i b, i < s.params.maxIn → s.bufByte .inp i = some b →
      s.readBus (BitVec.ofNat 32 (0x10000000 + i)) 1 = .value (b.setWidth 32)) ∧
    (∀ i b, i < s.params.maxAux → s.bufByte .auxIn i = some b →
      s.readBus (BitVec.ofNat 32 (0x20000000 + i)) 1 = .value (b.setWidth 32))

/-- R74, R72: the host reads the stored byte of OUT below OUT_LEN while IDLE; at or above OUT_LEN, at or above
AUX_OUT_LEN, and where nothing was written it receives a free value. That a free value is Config.freeByte at the count of draws,
which then advances (log 6), and that what was read is kept in a list (log 14), are the model's choices. -/
def Obligations.UnspecifiedBytesAreDrawn : Prop :=
  ∀ (s : State) (i : Nat), s.params.Legal →
    (i < s.params.maxOut → s.outLen.toNat ≤ i →
      s.readBus (BitVec.ofNat 32 (0x30000000 + i)) 1 = .unspecified) ∧
    (i < s.params.maxAux → s.auxOutLen.toNat ≤ i →
      s.readBus (BitVec.ofNat 32 (0x40000000 + i)) 1 = .unspecified) ∧
    (i < s.params.maxIn → s.bufByte .inp i = none →
      s.readBus (BitVec.ofNat 32 (0x10000000 + i)) 1 = .unspecified) ∧
    (i < s.params.maxAux → s.bufByte .auxIn i = none →
      s.readBus (BitVec.ofNat 32 (0x20000000 + i)) 1 = .unspecified) ∧
    (i < s.params.maxOut → s.bufByte .out i = none →
      s.readBus (BitVec.ofNat 32 (0x30000000 + i)) 1 = .unspecified) ∧
    (i < s.params.maxAux → s.bufByte .auxOut i = none →
      s.readBus (BitVec.ofNat 32 (0x40000000 + i)) 1 = .unspecified) ∧
    (∀ b, s.seq = .idle → i < s.params.maxOut → i < s.outLen.toNat → s.bufByte .out i = some b →
      s.readBus (BitVec.ofNat 32 (0x30000000 + i)) 1 = .value (b.setWidth 32)) ∧
    (∀ b, s.seq = .idle → i < s.params.maxAux → i < s.auxOutLen.toNat → s.bufByte .auxOut i = some b →
      s.readBus (BitVec.ofNat 32 (0x40000000 + i)) 1 = .value (b.setWidth 32)) ∧
    (∀ addr size, s.readBus addr size = .unspecified → ∃ t, s.serve (.read addr size) = .next t ∧
      t.received = (Config.freeByte s.draws).setWidth 32 :: s.received ∧ t.draws = s.draws + 1)

/-! ### Tree coder -/

/-- R66, R140, R141, R142: packing and unpacking, bit by bit, and the pad bits. -/
def Obligations.PackedBitsAreMsbFirst : Prop :=
  (∀ bits : List Bool, (pack bits).length = (bits.length + 7) / 8 ∧
    ∀ j, ((pack bits).getD (j / 8) 0).getLsbD (7 - j % 8) = bits.getD j false) ∧
  (∀ (p : List Byte) (j : Nat), j < 8 * p.length →
    (unpack p)[j]? = some ((p.getD (j / 8) 0).getLsbD (7 - j % 8))) ∧
  (∀ p : List Byte, (unpack p).length = 8 * p.length)

/-- R150, R151: the counts of FREQ sum to n; there are k entries that are not 0, 1 <= k <= min(n, 256) for n >= 1, one
leaf each, ascending with seq 0 to k - 1 (R152), and the place the order gives it (R156; log 16). -/
def Obligations.FrequencyTable : Prop :=
  ∀ (c : TreeChoices) (inp : List Byte),
    ((freqTable inp).map Prod.snd).sum = inp.length ∧ (freqTable inp).length = 256 ∧
    (∀ v : Byte, (freqTable inp)[v.toNat]? = some (v, inp.count v)) ∧
    (presentEntries inp).length ≤ min inp.length 256 ∧ (inp ≠ [] → 1 ≤ (presentEntries inp).length) ∧
    (presentEntries inp).Pairwise (fun a b => a.1.toNat < b.1.toNat) ∧
    (leaves c inp).map (fun x => (x.tree, x.weight)) = (presentEntries inp).map (fun e => (CodeTree.leaf e.1, e.2)) ∧
    (leaves c inp).map PoolNode.seq = List.range (presentEntries inp).length ∧
    (leaves c inp).map PoolNode.rank = (List.range (presentEntries inp).length).map c.rank

/-- R153, R156: the selection order decides: of nodes with different creation numbers, the one taken comes before every other
(weight, then the order's rank, then creation number), and the others stay. Where no rank is set, as under the default order
of R152 to R154, that is weight, then creation number. The form of an order is the model's choice (log 16). -/
def Obligations.SelectionTakesTheFirst : Prop :=
  ∀ (x : PoolNode) (rest : List PoolNode), ((x :: rest).map PoolNode.seq).Nodup →
    ((takeFirst x rest).1 :: (takeFirst x rest).2).Perm (x :: rest) ∧
    (∀ b ∈ (takeFirst x rest).2, (takeFirst x rest).1.Before b) ∧
    ((∀ n ∈ x :: rest, n.rank = 0) → ∀ b ∈ (takeFirst x rest).2, (takeFirst x rest).1.BeforeByCreation b)

/-- R154, R156: one pass of the merge loop: of at least two nodes it takes the first two of the selection order, for a new node
with their weights' sum and the next creation number. Under the default order (R152 to R154) the first is the left child and
the second the right; another order may have it the other way. The form of an order is the model's choice (log 16). -/
def Obligations.MergeJoinsTheFirstTwo : Prop :=
  ∀ (merges seq : Nat) (x y : PoolNode) (ys : List PoolNode), ((x :: y :: ys).map PoolNode.seq).Nodup →
    (∀ c : TreeChoices, ∃ (a b : PoolNode) (others : List PoolNode), (a :: b :: others).Perm (x :: y :: ys) ∧
      a.Before b ∧ (∀ o ∈ others, b.Before o) ∧
      mergeAll c (merges + 1) seq x (y :: ys) =
        mergeAll c merges (seq + 1) ⟨a.weight + b.weight, c.rank seq, seq,
          if c.swap seq then .node b.tree a.tree else .node a.tree b.tree⟩ others) ∧
    ∀ inp, (∀ n ∈ x :: y :: ys, n.rank = 0) →
      ∃ (a b : PoolNode) (others : List PoolNode), (a :: b :: others).Perm (x :: y :: ys) ∧
        a.BeforeByCreation b ∧ (∀ o ∈ others, b.BeforeByCreation o) ∧
        mergeAll (creationOrder inp) (merges + 1) seq x (y :: ys) =
          mergeAll (creationOrder inp) merges (seq + 1) ⟨a.weight + b.weight, 0, seq, .node a.tree b.tree⟩ others

/-- R155, R157, R161: under every order (R156), the tree of an input with k >= 2 distinct values: ROOT has weight n and seq 2k - 2; k leaves, one per
value present, k - 1 internal nodes, depth at most k - 1; its serialization has 3k - 1 bytes, more than 255 exactly
when k >= 86. -/
def Obligations.TreeOfAnInput : Prop :=
  ∀ (c : TreeChoices) (inp : List Byte) (x y : PoolNode) (rest : List PoolNode), leaves c inp = x :: y :: rest →
    (mergeAll c (y :: rest).length ((y :: rest).length + 1) x (y :: rest)).weight = inp.length ∧
    (mergeAll c (y :: rest).length ((y :: rest).length + 1) x (y :: rest)).seq + 2 = 2 * (leaves c inp).length ∧
    (buildTree c x (y :: rest)).leafCount = (leaves c inp).length ∧
    (buildTree c x (y :: rest)).internalCount + 1 = (leaves c inp).length ∧
    (buildTree c x (y :: rest)).values.Perm ((presentEntries inp).map Prod.fst) ∧
    (buildTree c x (y :: rest)).depth + 1 ≤ (leaves c inp).length ∧
    (serialize (buildTree c x (y :: rest))).length + 1 = 3 * (leaves c inp).length ∧
    (255 < (serialize (buildTree c x (y :: rest))).length ↔ 86 ≤ (leaves c inp).length)

/-- R158, R159: in the encoder's code table, under every tree order, a value has a code exactly when it is in the input; the code
is the path from ROOT to its leaf (0 left, 1 right): it leads there, and every shorter prefix of it to an internal node; it
has at most k - 1 bits. A one-leaf tree gives the code "0". -/
def Obligations.CodesLeadToTheirLeaves : Prop :=
  (∀ (c : TreeChoices) (inp : List Byte) (x y : PoolNode) (rest : List PoolNode), leaves c inp = x :: y :: rest → ∀ v : Byte,
    (codeOf (codeTable (buildTree c x (y :: rest))) v ≠ [] ↔ 0 < inp.count v) ∧
    (0 < inp.count v →
      (codeOf (codeTable (buildTree c x (y :: rest))) v).foldl CodeTree.child (buildTree c x (y :: rest)) = .leaf v ∧
      ∀ p, p <+: codeOf (codeTable (buildTree c x (y :: rest))) v → p ≠ codeOf (codeTable (buildTree c x (y :: rest))) v →
        ∃ l r, p.foldl CodeTree.child (buildTree c x (y :: rest)) = .node l r) ∧
    (codeOf (codeTable (buildTree c x (y :: rest))) v).length + 1 ≤ (leaves c inp).length) ∧
  ∀ v : Byte, codeTable (.leaf v) = [(v, [false])]

/-- R162: no code is a prefix of another; parsing a serialized tree gives it back and takes exactly its bytes; no proper
prefix of it parses. -/
def Obligations.SerializedTreesParseBack : Prop :=
  (∀ t : CodeTree, (codeTable t).Pairwise (fun a b => ¬ a.2 <+: b.2 ∧ ¬ b.2 <+: a.2)) ∧
  (∀ (t : CodeTree) (rest : List Byte) (fuel : Nat), (serialize t).length ≤ fuel →
    parseTree fuel (serialize t ++ rest) = some (t, rest)) ∧
  (∀ (t : CodeTree) (p : List Byte) (fuel : Nat), p <+: serialize t → p ≠ serialize t → parseTree fuel p = none)

/-- R171, R172, R174, R175, R176: the paths of the tree encoder, under every tree order (R156). -/
def Obligations.TreeEncoderPaths : Prop :=
  ∀ order : TreePolicy,
  hufEncode order [] = ([], []) ∧
  (∀ (v : Byte) (n : Nat), 1 ≤ n →
    hufEncode order (List.replicate n v) = ([0xFF, v] ++ be24 (n % 2 ^ 24), [])) ∧
  (∀ (inp : List Byte) (a b : Byte), a ∈ inp → b ∈ inp → a ≠ b →
    ∃ (x y : PoolNode) (rest : List PoolNode) (root : CodeTree), leaves (order inp) inp = x :: y :: rest ∧
      root = buildTree (order inp) x (y :: rest) ∧
      (inp.length ≤ (pack (payloadBits root inp)).length + (serialize root).length + 4 →
        hufEncode order inp = (0xFE :: inp, [])) ∧
      ((pack (payloadBits root inp)).length + (serialize root).length + 4 < inp.length →
        hufEncode order inp =
          ([0x00, BitVec.ofNat 8 ((serialize root).length % 256)] ++ be16 (inp.length % 65536) ++ serialize root ++
            pack (payloadBits root inp), serialize root)))

/-- R190: where the tree coder gives the input back, under every tree order (R156). -/
def Obligations.TreeCoderRoundTrip : Prop :=
  ∀ (order : TreePolicy) (inp : List Byte) (cap : Nat), inp.length ≤ cap →
    (inp = [] ∨ (∃ v n, inp = List.replicate n v ∧ n < 2 ^ 24) ∨ (hufEncode order inp).1 = 0xFE :: inp ∨
      (inp.length < 65536 ∧ (presentEntries inp).length ≤ 85)) →
    hufDecode cap (hufEncode order inp).1 = .ok inp

/-- R191: what the tree coder gives outside that domain, under every tree order (R156). -/
def Obligations.TreeCoderBeyondItsDomain : Prop :=
  ∀ order : TreePolicy,
  (∀ (v : Byte) (n cap : Nat), 1 ≤ n → n % 2 ^ 24 ≤ cap →
    hufDecode cap (hufEncode order (List.replicate n v)).1 = .ok (List.replicate (n % 2 ^ 24) v)) ∧
  (∀ (inp : List Byte) (cap : Nat), (hufEncode order inp).2 ≠ [] → 86 ≤ (presentEntries inp).length →
    hufDecode cap (hufEncode order inp).1 = .error .malformedTree) ∧
  (∀ (inp : List Byte) (cap : Nat), (hufEncode order inp).2 ≠ [] → (presentEntries inp).length ≤ 85 →
    inp.length % 65536 ≤ cap → hufDecode cap (hufEncode order inp).1 = .ok (inp.take (inp.length % 65536)))

/-- R156, R184, R187: a general container made with any tree, in whatever order it was built, decodes to the string its payload
encodes; what follows the tree in its region and the payload bits after the last code are ignored. -/
def Obligations.AnyTreeContainerDecodes : Prop :=
  ∀ (root : CodeTree) (inp junk : List Byte) (more : List Bool) (cap : Nat),
    (∀ b ∈ inp, b ∈ root.values) → (serialize root).length + junk.length ≤ 255 → inp.length < 65536 →
    inp.length ≤ cap →
    hufDecode cap ([0x00, BitVec.ofNat 8 ((serialize root).length + junk.length)] ++ be16 inp.length ++
      serialize root ++ junk ++ pack (payloadBits root inp ++ more)) = .ok inp

/-- R179, R180, R181, R182, R188: the tags of a tree container, and the errors before the tree is parsed. -/
def Obligations.TreeContainerTags : Prop :=
  (∀ (cap : Nat) (tag : Byte) (rest : List Byte), tag ≠ 0x00 → tag ≠ 0xFE → tag ≠ 0xFF →
    hufDecode cap (tag :: rest) = .error .malformedInput) ∧
  (∀ (cap : Nat) (rest : List Byte), rest.length < 4 → hufDecode cap (0xFF :: rest) = .error .malformedInput) ∧
  (∀ (cap : Nat) (v a b c : Byte) (rest : List Byte),
    hufDecode cap (0xFF :: v :: a :: b :: c :: rest) =
      if a.toNat * 65536 + b.toNat * 256 + c.toNat ≤ cap then
        .ok (List.replicate (a.toNat * 65536 + b.toNat * 256 + c.toNat) v)
      else .error .capacityExceeded) ∧
  (∀ (cap : Nat) (rest : List Byte),
    hufDecode cap (0xFE :: rest) = if rest.length ≤ cap then .ok rest else .error .capacityExceeded) ∧
  (∀ (cap : Nat) (rest : List Byte), rest.length < 3 → hufDecode cap (0x00 :: rest) = .error .malformedInput) ∧
  (∀ (cap : Nat) (tl o1 o0 : Byte) (body : List Byte), body.length < tl.toNat →
    hufDecode cap (0x00 :: tl :: o1 :: o0 :: body) = .error .malformedTree)

/-! ### Window coder -/

/-- R220 to R224: the search gives the longest match in the window of 1024 bytes, of the longest ones the farthest, at most 15
bytes and within the input; (0, 0) when nothing matches. -/
def Obligations.SearchFindsTheFarthestLongest : Prop :=
  ∀ (inp : List Byte) (pos len dist : Nat), pos < inp.length → findMatch inp pos (inp.drop pos) = (len, dist) →
    len ≤ min 15 (inp.length - pos) ∧ (len = 0 → dist = 0) ∧
    (0 < len → 1 ≤ dist ∧ dist ≤ min pos 1024 ∧ MatchesFor inp (pos - dist) pos len) ∧
    (∀ d l, 1 ≤ d → d ≤ min pos 1024 → l ≤ min 15 (inp.length - pos) → MatchesFor inp (pos - d) pos l →
      l ≤ len ∧ (l = len → 0 < l → d ≤ dist))

/-- R241, R229, R225 to R227: a container is at most n + 1 bytes; every match token emitted has length 3 to 15 and distance 1
to 1024; a token stream begins with 0x00. The token loop at a cursor emits the match found there, if it has 3 bytes or more,
with the byte after it (0x00 at the end of the input), and goes on past that byte; else the byte at the cursor. -/
def Obligations.WindowStreamBounds : Prop :=
  (∀ (inp : List Byte) (pos len dist : Nat) (b : Byte), inp[pos]? = some b → findMatch inp pos (inp.drop pos) = (len, dist) →
    (3 ≤ len → lzTokensFrom inp 0 pos (inp.drop pos) =
      [0x01, BitVec.ofNat 8 (dist / 256), BitVec.ofNat 8 dist, BitVec.ofNat 8 len, inp.getD (pos + len) 0x00] ++
        lzTokensFrom inp 0 (pos + len + 1) (inp.drop (pos + len + 1))) ∧
    (len < 3 → lzTokensFrom inp 0 pos (inp.drop pos) =
      [0x00, b] ++ lzTokensFrom inp 0 (pos + 1) (inp.drop (pos + 1)))) ∧
  (∀ (inp : List Byte) (pos : Nat), inp.length ≤ pos → lzTokensFrom inp 0 pos (inp.drop pos) = []) ∧
  (∀ inp : List Byte, lzTokens inp = lzTokensFrom inp 0 0 inp) ∧
  ∀ inp : List Byte, (lzEncode inp).length ≤ inp.length + 1 ∧ WindowStream (lzTokens inp) ∧
    (inp ≠ [] → (lzTokens inp).head? = some 0x00) ∧
    (lzEncode inp = lzTokens inp ∨ lzEncode inp = 0xFF :: inp) ∧
    (lzEncode inp = 0xFF :: inp ↔ inp ≠ [] ∧ inp.length ≤ (lzTokens inp).length)

/-- R240: where the window coder gives the input back, and where not: it does for the fallback record and for a kept stream in
which no match token is followed by an input byte 0x00; for any other it gives a shorter string, or MALFORMED_INPUT. -/
def Obligations.WindowCoderRoundTrip : Prop :=
  ∀ (inp : List Byte) (cap : Nat), inp.length ≤ cap →
    (lzEncode inp = 0xFF :: inp ∨ lzLosesNul inp = false → lzDecode cap (lzEncode inp) = .ok inp) ∧
    (lzEncode inp ≠ 0xFF :: inp → lzLosesNul inp = true →
      (∃ d, lzDecode cap (lzEncode inp) = .ok d ∧ d.length < inp.length) ∨
        lzDecode cap (lzEncode inp) = .error .malformedInput)

/-- R236, R398, R355: the copy of a match reads bytes it has itself just written: byte j of the copy is the byte `d` before it.
The copy is done exactly when it fits, and is CAPACITY_EXCEEDED else. -/
def Obligations.CopyIsByteByByte : Prop :=
  ∀ (cap d l : Nat) (o : Output), o.len = o.rev.length → 1 ≤ d → d ≤ o.len →
    (∀ o', o.copyBack cap d l = .ok o' →
      o'.bytes.length = o.bytes.length + l ∧ o.bytes <+: o'.bytes ∧
      ∀ j, o.bytes.length ≤ j → j < o'.bytes.length → o'.bytes[j]? = o'.bytes[j - d]?) ∧
    (o.len + l ≤ cap → ∃ o', o.copyBack cap d l = .ok o' ∧ o'.len = o.len + l) ∧
    (o.len ≤ cap → cap < o.len + l → o.copyBack cap d l = .error .capacityExceeded)

/-- R234, R235, R237, R238, R355: one token of the window decoder, at a token boundary with the output `o`, its errors in order: a
literal, a copy or a nextChar that does not fit is CAPACITY_EXCEEDED. R232, R233: a container with a leading 0xFF gives the
remainder, any other runs the tokens from the empty output. -/
def Obligations.WindowDecoderTokens : Prop :=
  (∀ (cap : Nat) (rest : List Byte),
    lzDecode cap (0xFF :: rest) = if rest.length ≤ cap then .ok rest else .error .capacityExceeded) ∧
  (∀ (cap : Nat) (f : Byte) (rest : List Byte), f ≠ 0xFF →
    lzDecode cap (f :: rest) =
      match lzDecodeTokens cap (f :: rest) ⟨0, []⟩ with
      | .ok o => .ok o.rev.reverse
      | .error e => .error e) ∧
  ∀ (cap : Nat) (o : Output),
    lzDecodeTokens cap [] o = .ok o ∧
    (∀ f rest, 2 ≤ BitVec.toNat (w := 8) f → lzDecodeTokens cap (f :: rest) o = .error .malformedInput) ∧
    lzDecodeTokens cap [0x00] o = .error .malformedInput ∧
    (∀ b rest, o.len < cap →
      lzDecodeTokens cap (0x00 :: b :: rest) o = lzDecodeTokens cap rest ⟨o.len + 1, b :: o.rev⟩) ∧
    (∀ b rest, cap ≤ o.len → lzDecodeTokens cap (0x00 :: b :: rest) o = .error .capacityExceeded) ∧
    (∀ rest, List.length rest < 4 → lzDecodeTokens cap (0x01 :: rest) o = .error .malformedInput) ∧
    (∀ a b l c rest, (a.toNat * 256 + b.toNat = 0 ∨ o.len < a.toNat * 256 + b.toNat) →
      lzDecodeTokens cap (0x01 :: a :: b :: l :: c :: rest) o = .error .malformedInput) ∧
    (∀ a b l c rest o', 1 ≤ a.toNat * 256 + b.toNat → a.toNat * 256 + b.toNat ≤ o.len →
      o.copyBack cap (a.toNat * 256 + b.toNat) (BitVec.toNat (w := 8) l) = .ok o' →
      (c ≠ 0x00 → o'.len < cap) →
      lzDecodeTokens cap (0x01 :: a :: b :: l :: c :: rest) o =
        lzDecodeTokens cap rest (if c = 0x00 then o' else ⟨o'.len + 1, c :: o'.rev⟩)) ∧
    (∀ a b l c rest, 1 ≤ a.toNat * 256 + b.toNat → a.toNat * 256 + b.toNat ≤ o.len → o.len ≤ cap →
      (cap < o.len + BitVec.toNat (w := 8) l ∨ (cap = o.len + BitVec.toNat (w := 8) l ∧ c ≠ 0x00)) →
      lzDecodeTokens cap (0x01 :: a :: b :: l :: c :: rest) o = .error .capacityExceeded)

/-! ### Run coder -/

/-- R270 to R276: the tokens of a string that begins with a run of c bytes v (cut at 255), by the run's length and value and
P_RLE_ZERO_RUNS, and of the empty string; the container is the fallback record exactly when the input is not empty and its
tokens are not shorter, else the tokens. -/
def Obligations.RunsAreEncoded : Prop :=
  (∀ (zr : ZeroRuns) (c : Nat) (v : Byte) (rest : List Byte), 1 ≤ c → c ≤ 255 → (c = 255 ∨ rest.head? ≠ some v) →
    rleTokens zr (List.replicate c v ++ rest) =
      (if 3 ≤ c then [0x00, BitVec.ofNat 8 c, v]
       else if v = 0x00 ∧ zr = .escape then [0x00, BitVec.ofNat 8 c, 0x00]
       else List.replicate c v) ++ rleTokens zr rest) ∧
  (∀ zr : ZeroRuns, rleTokens zr [] = [] ∧ rleEncode zr [] = []) ∧
  ∀ (zr : ZeroRuns) (inp : List Byte), inp ≠ [] →
    (inp.length ≤ (rleTokens zr inp).length → rleEncode zr inp = 0xFF :: inp) ∧
    ((rleTokens zr inp).length < inp.length → rleEncode zr inp = rleTokens zr inp)

/-- R283: where the run coder gives the input back, with P_RLE_ZERO_RUNS = ESCAPE: unless the kept stream begins with a
literal 0xFF; then the decoder gives the stream without its first byte. -/
def Obligations.RunCoderRoundTrip : Prop :=
  ∀ (inp : List Byte) (cap : Nat), inp.length ≤ cap →
    ((rleEncode .escape inp = 0xFF :: inp ∨ inp.head? ≠ some 0xFF ∨
      (∃ rest, inp = 0xFF :: 0xFF :: 0xFF :: rest)) →
      rleDecode cap (rleEncode .escape inp) = .ok inp) ∧
    (rleEncode .escape inp ≠ 0xFF :: inp → inp.head? = some 0xFF →
      (¬ ∃ rest, inp = 0xFF :: 0xFF :: 0xFF :: rest) →
      rleDecode cap (rleEncode .escape inp) = .ok (rleEncode .escape inp).tail)

/-- R280, R281, R355: one record of the run decoder, at a record boundary with the output `o`; a run or a literal that does not
fit is CAPACITY_EXCEEDED. R278, R279: a container with a leading 0xFF gives the remainder, any other runs the records from the
empty output. -/
def Obligations.RunDecoderRecords : Prop :=
  (∀ (cap : Nat) (rest : List Byte),
    rleDecode cap (0xFF :: rest) = if rest.length ≤ cap then .ok rest else .error .capacityExceeded) ∧
  (∀ (cap : Nat) (b : Byte) (rest : List Byte), b ≠ 0xFF →
    rleDecode cap (b :: rest) =
      match rleDecodeTokens cap (b :: rest) ⟨0, []⟩ with
      | .ok o => .ok o.rev.reverse
      | .error e => .error e) ∧
  ∀ (cap : Nat) (o : Output), o.len = o.rev.length →
    rleDecodeTokens cap [] o = .ok o ∧
    (∀ rest, List.length rest < 2 → rleDecodeTokens cap (0x00 :: rest) o = .error .malformedInput) ∧
    (∀ v rest, rleDecodeTokens cap (0x00 :: 0x00 :: v :: rest) o = .error .malformedInput) ∧
    (∀ c v rest, c ≠ 0x00 → o.len + c.toNat ≤ cap →
      rleDecodeTokens cap (0x00 :: c :: v :: rest) o =
        rleDecodeTokens cap rest ⟨o.len + c.toNat, List.replicate c.toNat v ++ o.rev⟩) ∧
    (∀ c v rest, c ≠ 0x00 → o.len ≤ cap → cap < o.len + c.toNat →
      rleDecodeTokens cap (0x00 :: c :: v :: rest) o = .error .capacityExceeded) ∧
    (∀ b rest, b ≠ 0x00 → o.len < cap →
      rleDecodeTokens cap (b :: rest) o = rleDecodeTokens cap rest ⟨o.len + 1, b :: o.rev⟩) ∧
    (∀ b rest, b ≠ 0x00 → cap ≤ o.len → rleDecodeTokens cap (b :: rest) o = .error .capacityExceeded)

/-! ### All coders -/

/-- R351 to R355: which errors a decoder can raise: MALFORMED_TREE only HUF.DEC, and none of them UNSUPPORTED_ALGORITHM or
EXPANSION_INVARIANT_VIOLATED. The empty container decodes to the empty string. On the general path of HUF.DEC: a tree region
that ends before its tree is whole, or has a node tag 0x02 to 0xFF before that, is MALFORMED_TREE (R183); a tree of one leaf
gives origLen copies or CAPACITY_EXCEEDED (R184); a payload whose bits run out too early, between codes or inside one, is
MALFORMED_INPUT (R186), and one that holds more bytes than fit, of those asked for, CAPACITY_EXCEEDED (R355). -/
def Obligations.DecoderErrorKinds : Prop :=
  (∀ (cap : Nat) (recs : List (Option Byte)) (tail payload : List Byte) (tl o1 o0 : Byte), 0 < missingNodes 1 recs →
    (tail = [] ∨ tail = [0x01] ∨ ∃ tag more, tail = tag :: more ∧ 2 ≤ BitVec.toNat (w := 8) tag) →
    (recs.flatMap nodeRecord ++ tail).length = tl.toNat →
    hufDecode cap (0x00 :: tl :: o1 :: o0 :: (recs.flatMap nodeRecord ++ tail ++ payload)) = .error .malformedTree) ∧
  (∀ (cap : Nat) (v : Byte) (junk payload : List Byte) (tl o1 o0 : Byte), (serialize (.leaf v) ++ junk).length = tl.toNat →
    hufDecode cap (0x00 :: tl :: o1 :: o0 :: (serialize (.leaf v) ++ junk ++ payload)) =
      if o1.toNat * 256 + o0.toNat ≤ cap then .ok (List.replicate (o1.toNat * 256 + o0.toNat) v)
      else .error .capacityExceeded) ∧
  (∀ (cap : Nat) (l r : CodeTree) (inp junk payload : List Byte) (extra : List Bool) (tl o1 o0 : Byte),
    (serialize (.node l r) ++ junk).length = tl.toNat → (∀ b ∈ inp, b ∈ (CodeTree.node l r).values) →
    unpack payload = payloadBits (.node l r) inp ++ extra →
    (inp.length < o1.toNat * 256 + o0.toNat → inp.length ≤ cap →
      (∃ l' r', extra.foldl CodeTree.child (.node l r) = .node l' r') →
      hufDecode cap (0x00 :: tl :: o1 :: o0 :: (serialize (.node l r) ++ junk ++ payload)) = .error .malformedInput) ∧
    (inp.length ≤ o1.toNat * 256 + o0.toNat → cap < inp.length →
      hufDecode cap (0x00 :: tl :: o1 :: o0 :: (serialize (.node l r) ++ junk ++ payload)) =
        .error .capacityExceeded)) ∧
  (∀ (cap : Nat) (buf : List Byte) (e : CodecError), hufDecode cap buf = .error e →
    e = .malformedTree ∨ e = .malformedInput ∨ e = .capacityExceeded) ∧
  (∀ (cap : Nat) (buf : List Byte) (e : CodecError), lzDecode cap buf = .error e ∨ rleDecode cap buf = .error e →
    e = .malformedInput ∨ e = .capacityExceeded) ∧
  ∀ cap : Nat, hufDecode cap [] = .ok [] ∧ lzDecode cap [] = .ok [] ∧ rleDecode cap [] = .ok []

/-- R324: a container is at most max(n + 1, 5) bytes and an auxiliary tree at most 767, so a compress never runs out of
OUT or AUX_OUT. -/
def Obligations.CompressOutputsFit : Prop :=
  ∀ (p : Params) (order : TreePolicy) (inp : List Byte), p.Legal → inp.length ≤ p.maxIn →
    max (inp.length + 1) 5 ≤ p.maxIn + 4 ∧ p.maxIn + 4 ≤ p.maxOut ∧ 767 ≤ p.maxAux ∧
    (hufEncode order inp).1.length ≤ max (inp.length + 1) 5 ∧ (hufEncode order inp).2.length ≤ 767 ∧
    (lzEncode inp).length ≤ max (inp.length + 1) 5 ∧
    ∀ zr, (rleEncode zr inp).length ≤ max (inp.length + 1) 5
end

