-- ==== Sys2Proof/Laws/Memory.lean ====
section
/-!
SUPPORT. Laws of the memory: what each operation does to a read, and that it keeps the canonical form.
-/

namespace Sys2Proof.Machine

theorem Memory.read_nil (a : Nat) : Memory.read [] a = none := rfl

theorem Memory.read_cons (c : Host.Cell) (m : Memory) (a : Nat) :
    Memory.read (c :: m) a = if a = c.1 then some c.2 else Memory.read m a := by
  obtain ⟨k, b⟩ := c
  by_cases h : a = k <;> simp [Memory.read, List.lookup, h]
  simp [beq_eq_false_iff_ne.mpr h]

theorem Memory.read_append (m n : Memory) (a : Nat) :
    Memory.read (m ++ n) a = (Memory.read m a).or (Memory.read n a) := by
  induction m with
  | nil => simp [Memory.read_nil]
  | cons c m ih => by_cases h : a = c.1 <;> simp [Memory.read_cons, h, ih]

/-- A filter by address keeps exactly the reads of the addresses it keeps. -/
theorem Memory.read_filter (m : Memory) (p : Nat → Bool) (a : Nat) :
    Memory.read (m.filter (fun c => p c.1)) a = if p a then Memory.read m a else none := by
  induction m with
  | nil => simp [Memory.read_nil]
  | cons c m ih =>
    by_cases hp : p c.1 <;> by_cases ha : a = c.1
    · simp [hp, Memory.read_cons, ha]
    · simp [hp, Memory.read_cons, ha, ih]
    · subst ha; simp [hp, ih]
    · simp [hp, Memory.read_cons, ha, ih]

theorem cellsFrom_read (a : Nat) (bs : List Byte) (x : Nat) :
    Memory.read (cellsFrom a bs) x = if a ≤ x then bs[x - a]? else none := by
  induction bs generalizing a with
  | nil => simp [cellsFrom, Memory.read_nil]
  | cons b bs ih =>
    rw [cellsFrom, Memory.read_cons, ih]
    by_cases h : x = a
    · subst h; simp
    · by_cases h2 : a ≤ x
      · have h3 : a + 1 ≤ x := by omega
        have h4 : x - a = (x - (a + 1)) + 1 := by omega
        simp [h, h2, h3, h4]
      · have h3 : ¬ a + 1 ≤ x := by omega
        simp [h, h2, h3]

/-- What a stored string does to every read. -/
theorem Memory.read_writeRange (m : Memory) (a : Nat) (bs : List Byte) (x : Nat) :
    (m.writeRange a bs).read x =
      if a ≤ x ∧ x < a + bs.length then bs[x - a]? else m.read x := by
  have hf := Memory.read_filter m (fun k => decide (k < a)) x
  have hg := Memory.read_filter m (fun k => decide (a + bs.length ≤ k)) x
  rw [Memory.writeRange, Memory.read_append, Memory.read_append, hf, hg, cellsFrom_read]
  by_cases h1 : x < a
  · have : ¬ (a ≤ x) := by omega
    have h3 : ¬ (a + bs.length ≤ x) := by omega
    simp [h1, this, h3]
  · have h2 : a ≤ x := by omega
    by_cases h3 : a + bs.length ≤ x
    · have h4 : ¬ (x < a + bs.length) := by omega
      have h5 : bs[x - a]? = none := by simp; omega
      simp [h1, h2, h3, h4, h5]
    · have h4 : x < a + bs.length := by omega
      have h5 : x - a < bs.length := by omega
      simp [h1, h2, h3, h4, h5]

/-- Reading a byte after writing one. -/
theorem Memory.read_write (m : Memory) (a : Nat) (b : Byte) (x : Nat) :
    (m.write a b).read x = if x = a then some b else m.read x := by
  rw [Memory.write, Memory.read_writeRange]
  by_cases h : x = a
  · subst h; simp
  · rw [if_neg (by simp only [List.length_singleton]; omega), if_neg h]

/-- What clearing a range does to every read. -/
theorem Memory.read_clearRange (m : Memory) (a n x : Nat) :
    (m.clearRange a n).read x = if a ≤ x ∧ x < a + n then none else m.read x := by
  have h := Memory.read_filter m (fun k => decide (k < a) || decide (a + n ≤ k)) x
  rw [Memory.clearRange, h]
  by_cases h1 : a ≤ x ∧ x < a + n
  · have h2 : ¬ (x < a) := by omega
    have h3 : ¬ (a + n ≤ x) := by omega
    simp [h1, h2, h3]
  · have h2 : x < a ∨ a + n ≤ x := by omega
    simp [h1, h2]

theorem cellsFrom_addr {a : Nat} {bs : List Byte} {c : Host.Cell} (h : c ∈ cellsFrom a bs) :
    a ≤ c.1 ∧ c.1 < a + bs.length := by
  induction bs generalizing a with
  | nil => simp [cellsFrom] at h
  | cons b bs ih =>
    simp only [cellsFrom, List.mem_cons] at h
    rcases h with rfl | h
    · simp
    · have := ih h; simp only [List.length_cons]; omega

theorem cellsFrom_wf (a : Nat) (bs : List Byte) : Memory.wf (cellsFrom a bs) := by
  induction bs generalizing a with
  | nil => simp [cellsFrom]
  | cons b bs ih =>
    simp only [cellsFrom, Memory.wf, List.pairwise_cons]
    exact ⟨fun c hc => by have := cellsFrom_addr hc; show a < c.1; omega, ih _⟩

/-- Storing a string keeps the canonical form. -/
theorem Memory.wf_writeRange {m : Memory} (h : m.wf) (a : Nat) (bs : List Byte) : (m.writeRange a bs).wf := by
  rw [Memory.writeRange, Memory.wf, List.pairwise_append, List.pairwise_append]
  refine ⟨⟨h.filter _, cellsFrom_wf a bs, ?_⟩, h.filter _, ?_⟩
  · intro c hc d hd
    have h1 : c.1 < a := by simpa using (List.mem_filter.mp hc).2
    have h2 := cellsFrom_addr hd
    omega
  · intro c hc d hd
    have h2 : a + bs.length ≤ d.1 := by simpa using (List.mem_filter.mp hd).2
    rcases List.mem_append.mp hc with hc | hc
    · have h1 : c.1 < a := by simpa using (List.mem_filter.mp hc).2
      omega
    · have h1 := cellsFrom_addr hc
      omega

/-- Storing a byte keeps the canonical form. -/
theorem Memory.wf_write {m : Memory} (h : m.wf) (a : Nat) (b : Byte) : (m.write a b).wf :=
  Memory.wf_writeRange h a [b]

/-- Clearing a range keeps the canonical form. -/
theorem Memory.wf_clearRange {m : Memory} (h : m.wf) (a n : Nat) : (m.clearRange a n).wf := h.filter _

/-- The memory of the state after reset is in the canonical form. -/
theorem State.reset_mem_wf : State.reset.mem.wf := List.Pairwise.nil

/-- The cells a stored string leaves. -/
theorem Memory.mem_writeRange {m : Memory} {a : Nat} {bs : List Byte} {c : Host.Cell} (h : c ∈ m.writeRange a bs) :
    (c ∈ m ∧ ¬ (a ≤ c.1 ∧ c.1 < a + bs.length)) ∨ (a ≤ c.1 ∧ c.1 < a + bs.length) := by
  by_cases hr : a ≤ c.1 ∧ c.1 < a + bs.length
  · exact .inr hr
  · refine .inl ⟨?_, hr⟩
    rcases List.mem_append.mp h with h | h
    · rcases List.mem_append.mp h with h | h
      · exact (List.mem_filter.mp h).1
      · exact absurd (cellsFrom_addr h) hr
    · exact (List.mem_filter.mp h).1

/-- The cells a cleared range leaves. -/
theorem Memory.mem_clearRange {m : Memory} {a n : Nat} {c : Host.Cell} :
    c ∈ m.clearRange a n ↔ c ∈ m ∧ ¬ (a ≤ c.1 ∧ c.1 < a + n) := by
  simp only [Memory.clearRange, List.mem_filter, Bool.or_eq_true, decide_eq_true_eq]
  constructor
  · rintro ⟨h, h2⟩; exact ⟨h, by omega⟩
  · rintro ⟨h, h2⟩; exact ⟨h, by omega⟩

/-- `writtenRange` looks at exactly the bytes of the range. -/
theorem Memory.writtenRange_iff (m : Memory) (a n : Nat) :
    m.writtenRange a n = true ↔ ∀ i, i < n → (m.read (a + i)).isSome = true := by
  induction n generalizing a with
  | zero => simp [Memory.writtenRange]
  | succ n ih =>
    simp only [Memory.writtenRange, Bool.and_eq_true, ih]
    constructor
    · rintro ⟨h0, h⟩ i hi
      cases i with
      | zero => simpa using h0
      | succ i => have := h i (by omega); rwa [show a + 1 + i = a + (i + 1) by omega] at this
    · intro h
      refine ⟨by simpa using h 0 (by omega), fun i hi => ?_⟩
      have := h (i + 1) (by omega)
      rwa [show a + (i + 1) = a + 1 + i by omega] at this

end Sys2Proof.Machine
end

