-- ==== Sys2Proof/Laws/State.lean ====
section
/-!
SUPPORT. One lemma per field per update of State, each true by rfl, so that no later proof unfolds a record update.
-/

namespace Sys2Proof.Machine


/-! ### flagsAtStart -/

@[simp] theorem State.flagsAtStart_params (s : State) : (s.flagsAtStart).params = s.params := rfl
@[simp] theorem State.flagsAtStart_seq (s : State) : (s.flagsAtStart).seq = .busy := rfl
@[simp] theorem State.flagsAtStart_done (s : State) : (s.flagsAtStart).done = false := rfl
@[simp] theorem State.flagsAtStart_err (s : State) : (s.flagsAtStart).err = errNone := rfl
@[simp] theorem State.flagsAtStart_inLen (s : State) : (s.flagsAtStart).inLen = s.inLen := rfl
@[simp] theorem State.flagsAtStart_auxInLen (s : State) : (s.flagsAtStart).auxInLen = s.auxInLen := rfl
@[simp] theorem State.flagsAtStart_outLen (s : State) : (s.flagsAtStart).outLen = s.outLen := rfl
@[simp] theorem State.flagsAtStart_auxOutLen (s : State) : (s.flagsAtStart).auxOutLen = s.auxOutLen := rfl
@[simp] theorem State.flagsAtStart_origSize (s : State) : (s.flagsAtStart).origSize = s.origSize := rfl
@[simp] theorem State.flagsAtStart_resultSize (s : State) : (s.flagsAtStart).resultSize = s.resultSize := rfl
@[simp] theorem State.flagsAtStart_bytesSaved (s : State) : (s.flagsAtStart).bytesSaved = s.bytesSaved := rfl
@[simp] theorem State.flagsAtStart_ratioNum (s : State) : (s.flagsAtStart).ratioNum = s.ratioNum := rfl
@[simp] theorem State.flagsAtStart_ratioDen (s : State) : (s.flagsAtStart).ratioDen = s.ratioDen := rfl
@[simp] theorem State.flagsAtStart_elapsed (s : State) : (s.flagsAtStart).elapsed = s.elapsed := rfl
@[simp] theorem State.flagsAtStart_algTag (s : State) : (s.flagsAtStart).algTag = s.algTag := rfl
@[simp] theorem State.flagsAtStart_opL (s : State) : (s.flagsAtStart).opL = s.opL := rfl
@[simp] theorem State.flagsAtStart_algL (s : State) : (s.flagsAtStart).algL = s.algL := rfl
@[simp] theorem State.flagsAtStart_nL (s : State) : (s.flagsAtStart).nL = s.nL := rfl
@[simp] theorem State.flagsAtStart_mem (s : State) : (s.flagsAtStart).mem = s.mem := rfl
@[simp] theorem State.flagsAtStart_refused (s : State) : (s.flagsAtStart).refused = s.refused := rfl
@[simp] theorem State.flagsAtStart_draws (s : State) : (s.flagsAtStart).draws = s.draws := rfl
@[simp] theorem State.flagsAtStart_pending (s : State) : (s.flagsAtStart).pending = s.pending := rfl
@[simp] theorem State.flagsAtStart_received (s : State) : (s.flagsAtStart).received = s.received := rfl
@[simp] theorem State.flagsAtStart_schedule (s : State) : (s.flagsAtStart).schedule = s.schedule := rfl
@[simp] theorem State.flagsAtStart_wait (s : State) : (s.flagsAtStart).wait = s.wait := rfl

/-! ### flagsAtCompletion -/

@[simp] theorem State.flagsAtCompletion_params (s : State) (e : Byte) : (s.flagsAtCompletion e).params = s.params := rfl
@[simp] theorem State.flagsAtCompletion_seq (s : State) (e : Byte) : (s.flagsAtCompletion e).seq = .idle := rfl
@[simp] theorem State.flagsAtCompletion_done (s : State) (e : Byte) : (s.flagsAtCompletion e).done = true := rfl
@[simp] theorem State.flagsAtCompletion_err (s : State) (e : Byte) : (s.flagsAtCompletion e).err = e := rfl
@[simp] theorem State.flagsAtCompletion_inLen (s : State) (e : Byte) : (s.flagsAtCompletion e).inLen = s.inLen := rfl
@[simp] theorem State.flagsAtCompletion_auxInLen (s : State) (e : Byte) : (s.flagsAtCompletion e).auxInLen = s.auxInLen := rfl
@[simp] theorem State.flagsAtCompletion_outLen (s : State) (e : Byte) : (s.flagsAtCompletion e).outLen = s.outLen := rfl
@[simp] theorem State.flagsAtCompletion_auxOutLen (s : State) (e : Byte) : (s.flagsAtCompletion e).auxOutLen = s.auxOutLen := rfl
@[simp] theorem State.flagsAtCompletion_origSize (s : State) (e : Byte) : (s.flagsAtCompletion e).origSize = s.origSize := rfl
@[simp] theorem State.flagsAtCompletion_resultSize (s : State) (e : Byte) : (s.flagsAtCompletion e).resultSize = s.resultSize := rfl
@[simp] theorem State.flagsAtCompletion_bytesSaved (s : State) (e : Byte) : (s.flagsAtCompletion e).bytesSaved = s.bytesSaved := rfl
@[simp] theorem State.flagsAtCompletion_ratioNum (s : State) (e : Byte) : (s.flagsAtCompletion e).ratioNum = s.ratioNum := rfl
@[simp] theorem State.flagsAtCompletion_ratioDen (s : State) (e : Byte) : (s.flagsAtCompletion e).ratioDen = s.ratioDen := rfl
@[simp] theorem State.flagsAtCompletion_elapsed (s : State) (e : Byte) : (s.flagsAtCompletion e).elapsed = s.elapsed := rfl
@[simp] theorem State.flagsAtCompletion_algTag (s : State) (e : Byte) : (s.flagsAtCompletion e).algTag = s.algTag := rfl
@[simp] theorem State.flagsAtCompletion_opL (s : State) (e : Byte) : (s.flagsAtCompletion e).opL = s.opL := rfl
@[simp] theorem State.flagsAtCompletion_algL (s : State) (e : Byte) : (s.flagsAtCompletion e).algL = s.algL := rfl
@[simp] theorem State.flagsAtCompletion_nL (s : State) (e : Byte) : (s.flagsAtCompletion e).nL = s.nL := rfl
@[simp] theorem State.flagsAtCompletion_mem (s : State) (e : Byte) : (s.flagsAtCompletion e).mem = s.mem := rfl
@[simp] theorem State.flagsAtCompletion_refused (s : State) (e : Byte) : (s.flagsAtCompletion e).refused = s.refused := rfl
@[simp] theorem State.flagsAtCompletion_draws (s : State) (e : Byte) : (s.flagsAtCompletion e).draws = s.draws := rfl
@[simp] theorem State.flagsAtCompletion_pending (s : State) (e : Byte) : (s.flagsAtCompletion e).pending = s.pending := rfl
@[simp] theorem State.flagsAtCompletion_received (s : State) (e : Byte) : (s.flagsAtCompletion e).received = s.received := rfl
@[simp] theorem State.flagsAtCompletion_schedule (s : State) (e : Byte) : (s.flagsAtCompletion e).schedule = s.schedule := rfl
@[simp] theorem State.flagsAtCompletion_wait (s : State) (e : Byte) : (s.flagsAtCompletion e).wait = s.wait := rfl

/-! ### accept -/

@[simp] theorem State.accept_params (s : State) (op : Op) (alg : Byte) : (s.accept op alg).params = s.params := rfl
@[simp] theorem State.accept_seq (s : State) (op : Op) (alg : Byte) : (s.accept op alg).seq = .busy := rfl
@[simp] theorem State.accept_done (s : State) (op : Op) (alg : Byte) : (s.accept op alg).done = false := rfl
@[simp] theorem State.accept_err (s : State) (op : Op) (alg : Byte) : (s.accept op alg).err = errNone := rfl
@[simp] theorem State.accept_inLen (s : State) (op : Op) (alg : Byte) : (s.accept op alg).inLen = s.inLen := rfl
@[simp] theorem State.accept_auxInLen (s : State) (op : Op) (alg : Byte) : (s.accept op alg).auxInLen = s.auxInLen := rfl
@[simp] theorem State.accept_outLen (s : State) (op : Op) (alg : Byte) : (s.accept op alg).outLen = s.outLen := rfl
@[simp] theorem State.accept_auxOutLen (s : State) (op : Op) (alg : Byte) : (s.accept op alg).auxOutLen = s.auxOutLen := rfl
@[simp] theorem State.accept_origSize (s : State) (op : Op) (alg : Byte) : (s.accept op alg).origSize = s.origSize := rfl
@[simp] theorem State.accept_resultSize (s : State) (op : Op) (alg : Byte) : (s.accept op alg).resultSize = s.resultSize := rfl
@[simp] theorem State.accept_bytesSaved (s : State) (op : Op) (alg : Byte) : (s.accept op alg).bytesSaved = s.bytesSaved := rfl
@[simp] theorem State.accept_ratioNum (s : State) (op : Op) (alg : Byte) : (s.accept op alg).ratioNum = s.ratioNum := rfl
@[simp] theorem State.accept_ratioDen (s : State) (op : Op) (alg : Byte) : (s.accept op alg).ratioDen = s.ratioDen := rfl
@[simp] theorem State.accept_elapsed (s : State) (op : Op) (alg : Byte) : (s.accept op alg).elapsed = s.elapsed := rfl
@[simp] theorem State.accept_algTag (s : State) (op : Op) (alg : Byte) : (s.accept op alg).algTag = s.algTag := rfl
@[simp] theorem State.accept_opL (s : State) (op : Op) (alg : Byte) : (s.accept op alg).opL = op := rfl
@[simp] theorem State.accept_algL (s : State) (op : Op) (alg : Byte) : (s.accept op alg).algL = alg := rfl
@[simp] theorem State.accept_nL (s : State) (op : Op) (alg : Byte) : (s.accept op alg).nL = s.inLen := rfl
@[simp] theorem State.accept_mem (s : State) (op : Op) (alg : Byte) : (s.accept op alg).mem = s.mem := rfl
@[simp] theorem State.accept_refused (s : State) (op : Op) (alg : Byte) : (s.accept op alg).refused = (s.refused || s.startReadsUnwritten alg) := rfl
@[simp] theorem State.accept_draws (s : State) (op : Op) (alg : Byte) : (s.accept op alg).draws = s.draws := rfl
@[simp] theorem State.accept_pending (s : State) (op : Op) (alg : Byte) : (s.accept op alg).pending = s.pending := rfl
@[simp] theorem State.accept_received (s : State) (op : Op) (alg : Byte) : (s.accept op alg).received = s.received := rfl
@[simp] theorem State.accept_schedule (s : State) (op : Op) (alg : Byte) : (s.accept op alg).schedule = s.schedule.tail := rfl
@[simp] theorem State.accept_wait (s : State) (op : Op) (alg : Byte) : (s.accept op alg).wait = s.schedule.headD 0 := rfl

/-! ### complete -/

@[simp] theorem State.complete_params (s : State) (r : Results) (e : Byte) : (s.complete r e).params = s.params := rfl
@[simp] theorem State.complete_seq (s : State) (r : Results) (e : Byte) : (s.complete r e).seq = .idle := rfl
@[simp] theorem State.complete_done (s : State) (r : Results) (e : Byte) : (s.complete r e).done = true := rfl
@[simp] theorem State.complete_err (s : State) (r : Results) (e : Byte) : (s.complete r e).err = e := rfl
@[simp] theorem State.complete_inLen (s : State) (r : Results) (e : Byte) : (s.complete r e).inLen = s.inLen := rfl
@[simp] theorem State.complete_auxInLen (s : State) (r : Results) (e : Byte) : (s.complete r e).auxInLen = s.auxInLen := rfl
@[simp] theorem State.complete_outLen (s : State) (r : Results) (e : Byte) : (s.complete r e).outLen = BitVec.ofNat 32 r.outLen := rfl
@[simp] theorem State.complete_auxOutLen (s : State) (r : Results) (e : Byte) : (s.complete r e).auxOutLen = BitVec.ofNat 32 r.auxOutLen := rfl
@[simp] theorem State.complete_origSize (s : State) (r : Results) (e : Byte) : (s.complete r e).origSize = BitVec.ofNat 32 r.origSize := rfl
@[simp] theorem State.complete_resultSize (s : State) (r : Results) (e : Byte) : (s.complete r e).resultSize = BitVec.ofNat 32 r.resultSize := rfl
@[simp] theorem State.complete_bytesSaved (s : State) (r : Results) (e : Byte) : (s.complete r e).bytesSaved = BitVec.ofNat 32 r.bytesSaved := rfl
@[simp] theorem State.complete_ratioNum (s : State) (r : Results) (e : Byte) : (s.complete r e).ratioNum = BitVec.ofNat 32 r.ratioNum := rfl
@[simp] theorem State.complete_ratioDen (s : State) (r : Results) (e : Byte) : (s.complete r e).ratioDen = BitVec.ofNat 32 r.ratioDen := rfl
@[simp] theorem State.complete_elapsed (s : State) (r : Results) (e : Byte) : (s.complete r e).elapsed = Config.freeElapsed s.draws := rfl
@[simp] theorem State.complete_algTag (s : State) (r : Results) (e : Byte) : (s.complete r e).algTag = s.algL.setWidth 32 := rfl
@[simp] theorem State.complete_opL (s : State) (r : Results) (e : Byte) : (s.complete r e).opL = s.opL := rfl
@[simp] theorem State.complete_algL (s : State) (r : Results) (e : Byte) : (s.complete r e).algL = s.algL := rfl
@[simp] theorem State.complete_nL (s : State) (r : Results) (e : Byte) : (s.complete r e).nL = s.nL := rfl
@[simp] theorem State.complete_mem (s : State) (r : Results) (e : Byte) : (s.complete r e).mem = s.mem := rfl
@[simp] theorem State.complete_refused (s : State) (r : Results) (e : Byte) : (s.complete r e).refused = s.refused := rfl
@[simp] theorem State.complete_draws (s : State) (r : Results) (e : Byte) : (s.complete r e).draws = s.draws + 1 := rfl
@[simp] theorem State.complete_pending (s : State) (r : Results) (e : Byte) : (s.complete r e).pending = s.pending := rfl
@[simp] theorem State.complete_received (s : State) (r : Results) (e : Byte) : (s.complete r e).received = s.received := rfl
@[simp] theorem State.complete_schedule (s : State) (r : Results) (e : Byte) : (s.complete r e).schedule = s.schedule := rfl
@[simp] theorem State.complete_wait (s : State) (r : Results) (e : Byte) : (s.complete r e).wait = 0 := rfl

/-! ### storeResult -/

@[simp] theorem State.storeResult_params (s : State) (c a : List Byte) : (s.storeResult c a).params = s.params := rfl
@[simp] theorem State.storeResult_seq (s : State) (c a : List Byte) : (s.storeResult c a).seq = s.seq := rfl
@[simp] theorem State.storeResult_done (s : State) (c a : List Byte) : (s.storeResult c a).done = s.done := rfl
@[simp] theorem State.storeResult_err (s : State) (c a : List Byte) : (s.storeResult c a).err = s.err := rfl
@[simp] theorem State.storeResult_inLen (s : State) (c a : List Byte) : (s.storeResult c a).inLen = s.inLen := rfl
@[simp] theorem State.storeResult_auxInLen (s : State) (c a : List Byte) : (s.storeResult c a).auxInLen = s.auxInLen := rfl
@[simp] theorem State.storeResult_outLen (s : State) (c a : List Byte) : (s.storeResult c a).outLen = s.outLen := rfl
@[simp] theorem State.storeResult_auxOutLen (s : State) (c a : List Byte) : (s.storeResult c a).auxOutLen = s.auxOutLen := rfl
@[simp] theorem State.storeResult_origSize (s : State) (c a : List Byte) : (s.storeResult c a).origSize = s.origSize := rfl
@[simp] theorem State.storeResult_resultSize (s : State) (c a : List Byte) : (s.storeResult c a).resultSize = s.resultSize := rfl
@[simp] theorem State.storeResult_bytesSaved (s : State) (c a : List Byte) : (s.storeResult c a).bytesSaved = s.bytesSaved := rfl
@[simp] theorem State.storeResult_ratioNum (s : State) (c a : List Byte) : (s.storeResult c a).ratioNum = s.ratioNum := rfl
@[simp] theorem State.storeResult_ratioDen (s : State) (c a : List Byte) : (s.storeResult c a).ratioDen = s.ratioDen := rfl
@[simp] theorem State.storeResult_elapsed (s : State) (c a : List Byte) : (s.storeResult c a).elapsed = s.elapsed := rfl
@[simp] theorem State.storeResult_algTag (s : State) (c a : List Byte) : (s.storeResult c a).algTag = s.algTag := rfl
@[simp] theorem State.storeResult_opL (s : State) (c a : List Byte) : (s.storeResult c a).opL = s.opL := rfl
@[simp] theorem State.storeResult_algL (s : State) (c a : List Byte) : (s.storeResult c a).algL = s.algL := rfl
@[simp] theorem State.storeResult_nL (s : State) (c a : List Byte) : (s.storeResult c a).nL = s.nL := rfl
@[simp] theorem State.storeResult_mem (s : State) (c a : List Byte) : (s.storeResult c a).mem = (((s.mem.clearRange (Buffer.base .out) regionSpan).clearRange (Buffer.base .auxOut) regionSpan).writeRange
      (Buffer.base .out) c).writeRange (Buffer.base .auxOut) a := rfl
@[simp] theorem State.storeResult_refused (s : State) (c a : List Byte) : (s.storeResult c a).refused = s.refused := rfl
@[simp] theorem State.storeResult_draws (s : State) (c a : List Byte) : (s.storeResult c a).draws = s.draws := rfl
@[simp] theorem State.storeResult_pending (s : State) (c a : List Byte) : (s.storeResult c a).pending = s.pending := rfl
@[simp] theorem State.storeResult_received (s : State) (c a : List Byte) : (s.storeResult c a).received = s.received := rfl
@[simp] theorem State.storeResult_schedule (s : State) (c a : List Byte) : (s.storeResult c a).schedule = s.schedule := rfl
@[simp] theorem State.storeResult_wait (s : State) (c a : List Byte) : (s.storeResult c a).wait = s.wait := rfl

/-! ### markRefused -/

@[simp] theorem State.markRefused_params (s : State) : (s.markRefused).params = s.params := rfl
@[simp] theorem State.markRefused_seq (s : State) : (s.markRefused).seq = s.seq := rfl
@[simp] theorem State.markRefused_done (s : State) : (s.markRefused).done = s.done := rfl
@[simp] theorem State.markRefused_err (s : State) : (s.markRefused).err = s.err := rfl
@[simp] theorem State.markRefused_inLen (s : State) : (s.markRefused).inLen = s.inLen := rfl
@[simp] theorem State.markRefused_auxInLen (s : State) : (s.markRefused).auxInLen = s.auxInLen := rfl
@[simp] theorem State.markRefused_outLen (s : State) : (s.markRefused).outLen = s.outLen := rfl
@[simp] theorem State.markRefused_auxOutLen (s : State) : (s.markRefused).auxOutLen = s.auxOutLen := rfl
@[simp] theorem State.markRefused_origSize (s : State) : (s.markRefused).origSize = s.origSize := rfl
@[simp] theorem State.markRefused_resultSize (s : State) : (s.markRefused).resultSize = s.resultSize := rfl
@[simp] theorem State.markRefused_bytesSaved (s : State) : (s.markRefused).bytesSaved = s.bytesSaved := rfl
@[simp] theorem State.markRefused_ratioNum (s : State) : (s.markRefused).ratioNum = s.ratioNum := rfl
@[simp] theorem State.markRefused_ratioDen (s : State) : (s.markRefused).ratioDen = s.ratioDen := rfl
@[simp] theorem State.markRefused_elapsed (s : State) : (s.markRefused).elapsed = s.elapsed := rfl
@[simp] theorem State.markRefused_algTag (s : State) : (s.markRefused).algTag = s.algTag := rfl
@[simp] theorem State.markRefused_opL (s : State) : (s.markRefused).opL = s.opL := rfl
@[simp] theorem State.markRefused_algL (s : State) : (s.markRefused).algL = s.algL := rfl
@[simp] theorem State.markRefused_nL (s : State) : (s.markRefused).nL = s.nL := rfl
@[simp] theorem State.markRefused_mem (s : State) : (s.markRefused).mem = s.mem := rfl
@[simp] theorem State.markRefused_refused (s : State) : (s.markRefused).refused = true := rfl
@[simp] theorem State.markRefused_draws (s : State) : (s.markRefused).draws = s.draws := rfl
@[simp] theorem State.markRefused_pending (s : State) : (s.markRefused).pending = s.pending := rfl
@[simp] theorem State.markRefused_received (s : State) : (s.markRefused).received = s.received := rfl
@[simp] theorem State.markRefused_schedule (s : State) : (s.markRefused).schedule = s.schedule := rfl
@[simp] theorem State.markRefused_wait (s : State) : (s.markRefused).wait = s.wait := rfl

/-! ### hardReset -/

@[simp] theorem State.hardReset_params (s : State) : (s.hardReset).params = s.params := rfl
@[simp] theorem State.hardReset_seq (s : State) : (s.hardReset).seq = State.reset.seq := rfl
@[simp] theorem State.hardReset_done (s : State) : (s.hardReset).done = State.reset.done := rfl
@[simp] theorem State.hardReset_err (s : State) : (s.hardReset).err = State.reset.err := rfl
@[simp] theorem State.hardReset_inLen (s : State) : (s.hardReset).inLen = State.reset.inLen := rfl
@[simp] theorem State.hardReset_auxInLen (s : State) : (s.hardReset).auxInLen = State.reset.auxInLen := rfl
@[simp] theorem State.hardReset_outLen (s : State) : (s.hardReset).outLen = State.reset.outLen := rfl
@[simp] theorem State.hardReset_auxOutLen (s : State) : (s.hardReset).auxOutLen = State.reset.auxOutLen := rfl
@[simp] theorem State.hardReset_origSize (s : State) : (s.hardReset).origSize = State.reset.origSize := rfl
@[simp] theorem State.hardReset_resultSize (s : State) : (s.hardReset).resultSize = State.reset.resultSize := rfl
@[simp] theorem State.hardReset_bytesSaved (s : State) : (s.hardReset).bytesSaved = State.reset.bytesSaved := rfl
@[simp] theorem State.hardReset_ratioNum (s : State) : (s.hardReset).ratioNum = State.reset.ratioNum := rfl
@[simp] theorem State.hardReset_ratioDen (s : State) : (s.hardReset).ratioDen = State.reset.ratioDen := rfl
@[simp] theorem State.hardReset_elapsed (s : State) : (s.hardReset).elapsed = State.reset.elapsed := rfl
@[simp] theorem State.hardReset_algTag (s : State) : (s.hardReset).algTag = State.reset.algTag := rfl
@[simp] theorem State.hardReset_opL (s : State) : (s.hardReset).opL = State.reset.opL := rfl
@[simp] theorem State.hardReset_algL (s : State) : (s.hardReset).algL = State.reset.algL := rfl
@[simp] theorem State.hardReset_nL (s : State) : (s.hardReset).nL = State.reset.nL := rfl
@[simp] theorem State.hardReset_mem (s : State) : (s.hardReset).mem = State.reset.mem := rfl
@[simp] theorem State.hardReset_refused (s : State) : (s.hardReset).refused = s.refused := rfl
@[simp] theorem State.hardReset_draws (s : State) : (s.hardReset).draws = s.draws := rfl
@[simp] theorem State.hardReset_pending (s : State) : (s.hardReset).pending = s.pending := rfl
@[simp] theorem State.hardReset_received (s : State) : (s.hardReset).received = s.received := rfl
@[simp] theorem State.hardReset_schedule (s : State) : (s.hardReset).schedule = s.schedule := rfl
@[simp] theorem State.hardReset_wait (s : State) : (s.hardReset).wait = State.reset.wait := rfl

/-! ### placeCommand -/

@[simp] theorem State.placeCommand_params (s : State) (w : Word) : (s.placeCommand w).params = s.params := rfl
@[simp] theorem State.placeCommand_seq (s : State) (w : Word) : (s.placeCommand w).seq = .idle := rfl
@[simp] theorem State.placeCommand_done (s : State) (w : Word) : (s.placeCommand w).done = s.done := rfl
@[simp] theorem State.placeCommand_err (s : State) (w : Word) : (s.placeCommand w).err = s.err := rfl
@[simp] theorem State.placeCommand_inLen (s : State) (w : Word) : (s.placeCommand w).inLen = s.inLen := rfl
@[simp] theorem State.placeCommand_auxInLen (s : State) (w : Word) : (s.placeCommand w).auxInLen = s.auxInLen := rfl
@[simp] theorem State.placeCommand_outLen (s : State) (w : Word) : (s.placeCommand w).outLen = s.outLen := rfl
@[simp] theorem State.placeCommand_auxOutLen (s : State) (w : Word) : (s.placeCommand w).auxOutLen = s.auxOutLen := rfl
@[simp] theorem State.placeCommand_origSize (s : State) (w : Word) : (s.placeCommand w).origSize = s.origSize := rfl
@[simp] theorem State.placeCommand_resultSize (s : State) (w : Word) : (s.placeCommand w).resultSize = s.resultSize := rfl
@[simp] theorem State.placeCommand_bytesSaved (s : State) (w : Word) : (s.placeCommand w).bytesSaved = s.bytesSaved := rfl
@[simp] theorem State.placeCommand_ratioNum (s : State) (w : Word) : (s.placeCommand w).ratioNum = s.ratioNum := rfl
@[simp] theorem State.placeCommand_ratioDen (s : State) (w : Word) : (s.placeCommand w).ratioDen = s.ratioDen := rfl
@[simp] theorem State.placeCommand_elapsed (s : State) (w : Word) : (s.placeCommand w).elapsed = s.elapsed := rfl
@[simp] theorem State.placeCommand_algTag (s : State) (w : Word) : (s.placeCommand w).algTag = s.algTag := rfl
@[simp] theorem State.placeCommand_opL (s : State) (w : Word) : (s.placeCommand w).opL = s.opL := rfl
@[simp] theorem State.placeCommand_algL (s : State) (w : Word) : (s.placeCommand w).algL = s.algL := rfl
@[simp] theorem State.placeCommand_nL (s : State) (w : Word) : (s.placeCommand w).nL = s.nL := rfl
@[simp] theorem State.placeCommand_mem (s : State) (w : Word) : (s.placeCommand w).mem = s.mem := rfl
@[simp] theorem State.placeCommand_refused (s : State) (w : Word) : (s.placeCommand w).refused = s.refused := rfl
@[simp] theorem State.placeCommand_draws (s : State) (w : Word) : (s.placeCommand w).draws = s.draws := rfl
@[simp] theorem State.placeCommand_pending (s : State) (w : Word) : (s.placeCommand w).pending = writeCmd w :: s.pending := rfl
@[simp] theorem State.placeCommand_received (s : State) (w : Word) : (s.placeCommand w).received = s.received := rfl
@[simp] theorem State.placeCommand_schedule (s : State) (w : Word) : (s.placeCommand w).schedule = 0 :: s.schedule := rfl
@[simp] theorem State.placeCommand_wait (s : State) (w : Word) : (s.placeCommand w).wait = 0 := rfl

/-! ### respond, writeReg, writeBuf: what they leave alone -/

@[simp] theorem State.respond_params (s : State) (r : ReadResult) : (s.respond r).params = s.params := by cases r <;> rfl
@[simp] theorem State.respond_seq (s : State) (r : ReadResult) : (s.respond r).seq = s.seq := by cases r <;> rfl
@[simp] theorem State.respond_done (s : State) (r : ReadResult) : (s.respond r).done = s.done := by cases r <;> rfl
@[simp] theorem State.respond_err (s : State) (r : ReadResult) : (s.respond r).err = s.err := by cases r <;> rfl
@[simp] theorem State.respond_inLen (s : State) (r : ReadResult) : (s.respond r).inLen = s.inLen := by cases r <;> rfl
@[simp] theorem State.respond_auxInLen (s : State) (r : ReadResult) : (s.respond r).auxInLen = s.auxInLen := by cases r <;> rfl
@[simp] theorem State.respond_outLen (s : State) (r : ReadResult) : (s.respond r).outLen = s.outLen := by cases r <;> rfl
@[simp] theorem State.respond_auxOutLen (s : State) (r : ReadResult) : (s.respond r).auxOutLen = s.auxOutLen := by cases r <;> rfl
@[simp] theorem State.respond_origSize (s : State) (r : ReadResult) : (s.respond r).origSize = s.origSize := by cases r <;> rfl
@[simp] theorem State.respond_resultSize (s : State) (r : ReadResult) : (s.respond r).resultSize = s.resultSize := by cases r <;> rfl
@[simp] theorem State.respond_bytesSaved (s : State) (r : ReadResult) : (s.respond r).bytesSaved = s.bytesSaved := by cases r <;> rfl
@[simp] theorem State.respond_ratioNum (s : State) (r : ReadResult) : (s.respond r).ratioNum = s.ratioNum := by cases r <;> rfl
@[simp] theorem State.respond_ratioDen (s : State) (r : ReadResult) : (s.respond r).ratioDen = s.ratioDen := by cases r <;> rfl
@[simp] theorem State.respond_elapsed (s : State) (r : ReadResult) : (s.respond r).elapsed = s.elapsed := by cases r <;> rfl
@[simp] theorem State.respond_algTag (s : State) (r : ReadResult) : (s.respond r).algTag = s.algTag := by cases r <;> rfl
@[simp] theorem State.respond_opL (s : State) (r : ReadResult) : (s.respond r).opL = s.opL := by cases r <;> rfl
@[simp] theorem State.respond_algL (s : State) (r : ReadResult) : (s.respond r).algL = s.algL := by cases r <;> rfl
@[simp] theorem State.respond_nL (s : State) (r : ReadResult) : (s.respond r).nL = s.nL := by cases r <;> rfl
@[simp] theorem State.respond_mem (s : State) (r : ReadResult) : (s.respond r).mem = s.mem := by cases r <;> rfl
@[simp] theorem State.respond_pending (s : State) (r : ReadResult) : (s.respond r).pending = s.pending := by cases r <;> rfl
@[simp] theorem State.respond_schedule (s : State) (r : ReadResult) : (s.respond r).schedule = s.schedule := by cases r <;> rfl
@[simp] theorem State.respond_wait (s : State) (r : ReadResult) : (s.respond r).wait = s.wait := by cases r <;> rfl
@[simp] theorem State.writeReg_params (s : State) (o : Nat) (v : Word) : (s.writeReg o v).params = s.params := by
  unfold State.writeReg; split <;> rfl
@[simp] theorem State.writeReg_seq (s : State) (o : Nat) (v : Word) : (s.writeReg o v).seq = s.seq := by
  unfold State.writeReg; split <;> rfl
@[simp] theorem State.writeReg_done (s : State) (o : Nat) (v : Word) : (s.writeReg o v).done = s.done := by
  unfold State.writeReg; split <;> rfl
@[simp] theorem State.writeReg_err (s : State) (o : Nat) (v : Word) : (s.writeReg o v).err = s.err := by
  unfold State.writeReg; split <;> rfl
@[simp] theorem State.writeReg_outLen (s : State) (o : Nat) (v : Word) : (s.writeReg o v).outLen = s.outLen := by
  unfold State.writeReg; split <;> rfl
@[simp] theorem State.writeReg_auxOutLen (s : State) (o : Nat) (v : Word) : (s.writeReg o v).auxOutLen = s.auxOutLen := by
  unfold State.writeReg; split <;> rfl
@[simp] theorem State.writeReg_origSize (s : State) (o : Nat) (v : Word) : (s.writeReg o v).origSize = s.origSize := by
  unfold State.writeReg; split <;> rfl
@[simp] theorem State.writeReg_resultSize (s : State) (o : Nat) (v : Word) : (s.writeReg o v).resultSize = s.resultSize := by
  unfold State.writeReg; split <;> rfl
@[simp] theorem State.writeReg_bytesSaved (s : State) (o : Nat) (v : Word) : (s.writeReg o v).bytesSaved = s.bytesSaved := by
  unfold State.writeReg; split <;> rfl
@[simp] theorem State.writeReg_ratioNum (s : State) (o : Nat) (v : Word) : (s.writeReg o v).ratioNum = s.ratioNum := by
  unfold State.writeReg; split <;> rfl
@[simp] theorem State.writeReg_ratioDen (s : State) (o : Nat) (v : Word) : (s.writeReg o v).ratioDen = s.ratioDen := by
  unfold State.writeReg; split <;> rfl
@[simp] theorem State.writeReg_elapsed (s : State) (o : Nat) (v : Word) : (s.writeReg o v).elapsed = s.elapsed := by
  unfold State.writeReg; split <;> rfl
@[simp] theorem State.writeReg_algTag (s : State) (o : Nat) (v : Word) : (s.writeReg o v).algTag = s.algTag := by
  unfold State.writeReg; split <;> rfl
@[simp] theorem State.writeReg_opL (s : State) (o : Nat) (v : Word) : (s.writeReg o v).opL = s.opL := by
  unfold State.writeReg; split <;> rfl
@[simp] theorem State.writeReg_algL (s : State) (o : Nat) (v : Word) : (s.writeReg o v).algL = s.algL := by
  unfold State.writeReg; split <;> rfl
@[simp] theorem State.writeReg_nL (s : State) (o : Nat) (v : Word) : (s.writeReg o v).nL = s.nL := by
  unfold State.writeReg; split <;> rfl
@[simp] theorem State.writeReg_mem (s : State) (o : Nat) (v : Word) : (s.writeReg o v).mem = s.mem := by
  unfold State.writeReg; split <;> rfl
@[simp] theorem State.writeReg_refused (s : State) (o : Nat) (v : Word) : (s.writeReg o v).refused = s.refused := by
  unfold State.writeReg; split <;> rfl
@[simp] theorem State.writeReg_draws (s : State) (o : Nat) (v : Word) : (s.writeReg o v).draws = s.draws := by
  unfold State.writeReg; split <;> rfl
@[simp] theorem State.writeReg_pending (s : State) (o : Nat) (v : Word) : (s.writeReg o v).pending = s.pending := by
  unfold State.writeReg; split <;> rfl
@[simp] theorem State.writeReg_received (s : State) (o : Nat) (v : Word) : (s.writeReg o v).received = s.received := by
  unfold State.writeReg; split <;> rfl
@[simp] theorem State.writeReg_schedule (s : State) (o : Nat) (v : Word) : (s.writeReg o v).schedule = s.schedule := by
  unfold State.writeReg; split <;> rfl
@[simp] theorem State.writeReg_wait (s : State) (o : Nat) (v : Word) : (s.writeReg o v).wait = s.wait := by
  unfold State.writeReg; split <;> rfl
@[simp] theorem State.writeBuf_params (s : State) (b : Buffer) (i : Nat) (v : Byte) : (s.writeBuf b i v).params = s.params := by
  unfold State.writeBuf; split <;> rfl
@[simp] theorem State.writeBuf_seq (s : State) (b : Buffer) (i : Nat) (v : Byte) : (s.writeBuf b i v).seq = s.seq := by
  unfold State.writeBuf; split <;> rfl
@[simp] theorem State.writeBuf_done (s : State) (b : Buffer) (i : Nat) (v : Byte) : (s.writeBuf b i v).done = s.done := by
  unfold State.writeBuf; split <;> rfl
@[simp] theorem State.writeBuf_err (s : State) (b : Buffer) (i : Nat) (v : Byte) : (s.writeBuf b i v).err = s.err := by
  unfold State.writeBuf; split <;> rfl
@[simp] theorem State.writeBuf_inLen (s : State) (b : Buffer) (i : Nat) (v : Byte) : (s.writeBuf b i v).inLen = s.inLen := by
  unfold State.writeBuf; split <;> rfl
@[simp] theorem State.writeBuf_auxInLen (s : State) (b : Buffer) (i : Nat) (v : Byte) : (s.writeBuf b i v).auxInLen = s.auxInLen := by
  unfold State.writeBuf; split <;> rfl
@[simp] theorem State.writeBuf_outLen (s : State) (b : Buffer) (i : Nat) (v : Byte) : (s.writeBuf b i v).outLen = s.outLen := by
  unfold State.writeBuf; split <;> rfl
@[simp] theorem State.writeBuf_auxOutLen (s : State) (b : Buffer) (i : Nat) (v : Byte) : (s.writeBuf b i v).auxOutLen = s.auxOutLen := by
  unfold State.writeBuf; split <;> rfl
@[simp] theorem State.writeBuf_origSize (s : State) (b : Buffer) (i : Nat) (v : Byte) : (s.writeBuf b i v).origSize = s.origSize := by
  unfold State.writeBuf; split <;> rfl
@[simp] theorem State.writeBuf_resultSize (s : State) (b : Buffer) (i : Nat) (v : Byte) : (s.writeBuf b i v).resultSize = s.resultSize := by
  unfold State.writeBuf; split <;> rfl
@[simp] theorem State.writeBuf_bytesSaved (s : State) (b : Buffer) (i : Nat) (v : Byte) : (s.writeBuf b i v).bytesSaved = s.bytesSaved := by
  unfold State.writeBuf; split <;> rfl
@[simp] theorem State.writeBuf_ratioNum (s : State) (b : Buffer) (i : Nat) (v : Byte) : (s.writeBuf b i v).ratioNum = s.ratioNum := by
  unfold State.writeBuf; split <;> rfl
@[simp] theorem State.writeBuf_ratioDen (s : State) (b : Buffer) (i : Nat) (v : Byte) : (s.writeBuf b i v).ratioDen = s.ratioDen := by
  unfold State.writeBuf; split <;> rfl
@[simp] theorem State.writeBuf_elapsed (s : State) (b : Buffer) (i : Nat) (v : Byte) : (s.writeBuf b i v).elapsed = s.elapsed := by
  unfold State.writeBuf; split <;> rfl
@[simp] theorem State.writeBuf_algTag (s : State) (b : Buffer) (i : Nat) (v : Byte) : (s.writeBuf b i v).algTag = s.algTag := by
  unfold State.writeBuf; split <;> rfl
@[simp] theorem State.writeBuf_opL (s : State) (b : Buffer) (i : Nat) (v : Byte) : (s.writeBuf b i v).opL = s.opL := by
  unfold State.writeBuf; split <;> rfl
@[simp] theorem State.writeBuf_algL (s : State) (b : Buffer) (i : Nat) (v : Byte) : (s.writeBuf b i v).algL = s.algL := by
  unfold State.writeBuf; split <;> rfl
@[simp] theorem State.writeBuf_nL (s : State) (b : Buffer) (i : Nat) (v : Byte) : (s.writeBuf b i v).nL = s.nL := by
  unfold State.writeBuf; split <;> rfl
@[simp] theorem State.writeBuf_refused (s : State) (b : Buffer) (i : Nat) (v : Byte) : (s.writeBuf b i v).refused = s.refused := by
  unfold State.writeBuf; split <;> rfl
@[simp] theorem State.writeBuf_draws (s : State) (b : Buffer) (i : Nat) (v : Byte) : (s.writeBuf b i v).draws = s.draws := by
  unfold State.writeBuf; split <;> rfl
@[simp] theorem State.writeBuf_pending (s : State) (b : Buffer) (i : Nat) (v : Byte) : (s.writeBuf b i v).pending = s.pending := by
  unfold State.writeBuf; split <;> rfl
@[simp] theorem State.writeBuf_received (s : State) (b : Buffer) (i : Nat) (v : Byte) : (s.writeBuf b i v).received = s.received := by
  unfold State.writeBuf; split <;> rfl
@[simp] theorem State.writeBuf_schedule (s : State) (b : Buffer) (i : Nat) (v : Byte) : (s.writeBuf b i v).schedule = s.schedule := by
  unfold State.writeBuf; split <;> rfl
@[simp] theorem State.writeBuf_wait (s : State) (b : Buffer) (i : Nat) (v : Byte) : (s.writeBuf b i v).wait = s.wait := by
  unfold State.writeBuf; split <;> rfl

end Sys2Proof.Machine
end

