-- ==== Sys2Proof/Laws/Operations.lean ====
section
/-!
SUPPORT. One lemma per shared operation: everything it can do, so that claims cite it instead of unfolding it.
-/

namespace Sys2Proof.Machine

/-! ### Where bytes stand -/

theorem base_out : Buffer.base .out = 0x30000000 := rfl

theorem base_auxOut : Buffer.base .auxOut = 0x40000000 := rfl

theorem regionSpan_eq : regionSpan = 0x10000000 := rfl

theorem targetOf_inp {p : Params} {i : Nat} (h : i < p.maxIn) :
    targetOf p (Buffer.base .inp + i) = .buf .inp i := by
  have ha : ¬ (0x10000000 + i < 0x1000) := by omega
  simp [targetOf, regSize, Buffer.covers, Buffer.base, Buffer.size, ha, h]

theorem targetOf_auxIn {p : Params} (hp : p.Legal) {i : Nat} (h : i < p.maxAux) :
    targetOf p (Buffer.base .auxIn + i) = .buf .auxIn i := by
  obtain ⟨-, h1, -, -, -, h2⟩ := hp
  have ha : ¬ (0x20000000 + i < 0x1000) := by omega
  have hb : ¬ (0x20000000 + i < 0x10000000 + p.maxIn) := by omega
  have hc : i < p.maxAux := h
  simp [targetOf, regSize, Buffer.covers, Buffer.base, Buffer.size, ha, hb, hc]

theorem targetOf_out {p : Params} (hp : p.Legal) {i : Nat} (h : i < p.maxOut) :
    targetOf p (Buffer.base .out + i) = .buf .out i := by
  obtain ⟨-, h1, -, h3, -, h2⟩ := hp
  have ha : ¬ (0x30000000 + i < 0x1000) := by omega
  have hb : ¬ (0x30000000 + i < 0x10000000 + p.maxIn) := by omega
  have hc : ¬ (0x30000000 + i < 0x20000000 + p.maxAux) := by omega
  simp [targetOf, regSize, Buffer.covers, Buffer.base, Buffer.size, ha, hb, hc, h]

theorem targetOf_auxOut {p : Params} (hp : p.Legal) {i : Nat} (h : i < p.maxAux) :
    targetOf p (Buffer.base .auxOut + i) = .buf .auxOut i := by
  obtain ⟨-, h1, -, h3, -, h2⟩ := hp
  have ha : ¬ (0x40000000 + i < 0x1000) := by omega
  have hb : ¬ (0x40000000 + i < 0x10000000 + p.maxIn) := by omega
  have hc : ¬ (0x40000000 + i < 0x20000000 + p.maxAux) := by omega
  have hd : ¬ (0x40000000 + i < 0x30000000 + p.maxOut) := by omega
  simp [targetOf, regSize, Buffer.covers, Buffer.base, Buffer.size, ha, hb, hc, hd, h]

/-- An address that is a byte of a buffer is the buffer's base plus the index, and the index is below the size. -/
theorem targetOf_buf {p : Params} {a : Nat} {b : Buffer} {i : Nat} (h : targetOf p a = .buf b i) :
    a = b.base + i ∧ i < b.size p := by
  unfold targetOf at h
  simp only [Buffer.covers, Bool.and_eq_true, decide_eq_true_eq] at h
  split at h
  · cases h
  split at h
  · rename_i hc; cases h; constructor <;> omega
  split at h
  · rename_i hc; cases h; constructor <;> omega
  split at h
  · rename_i hc; cases h; constructor <;> omega
  split at h
  · rename_i hc; cases h; constructor <;> omega
  · cases h

/-! ### Storing a result -/

/-- Every byte after a result is stored: OUT and AUX_OUT hold exactly it, the others are as they were. -/
theorem State.read_storeResult (s : State) (out aux : List Byte) (hc : out.length ≤ regionSpan)
    (ha : aux.length ≤ regionSpan) (x : Nat) :
    (s.storeResult out aux).mem.read x =
      if Buffer.base .out ≤ x ∧ x < Buffer.base .auxOut then out[x - Buffer.base .out]?
      else if Buffer.base .auxOut ≤ x ∧ x < Buffer.base .auxOut + regionSpan then aux[x - Buffer.base .auxOut]?
      else s.mem.read x := by
  have e1 := base_out
  have e2 := base_auxOut
  have e3 := regionSpan_eq
  rw [State.storeResult_mem, Memory.read_writeRange, Memory.read_writeRange, Memory.read_clearRange,
    Memory.read_clearRange]
  by_cases h1 : Buffer.base .out ≤ x ∧ x < Buffer.base .auxOut
  · rw [if_pos h1, if_neg (by omega)]
    by_cases h2 : Buffer.base .out ≤ x ∧ x < Buffer.base .out + out.length
    · rw [if_pos h2]
    · rw [if_neg h2, if_neg (by omega), if_pos (by omega), List.getElem?_eq_none (by omega)]
  · rw [if_neg h1]
    by_cases h2 : Buffer.base .auxOut ≤ x ∧ x < Buffer.base .auxOut + aux.length
    · rw [if_pos h2, if_pos (by omega)]
    · rw [if_neg h2, if_neg (by omega)]
      by_cases h3 : Buffer.base .auxOut ≤ x ∧ x < Buffer.base .auxOut + regionSpan
      · rw [if_pos h3, if_pos h3, List.getElem?_eq_none (by omega)]
      · rw [if_neg h3, if_neg h3, if_neg (by omega)]

theorem State.bufHolds_out_storeResult (s : State) (c a : List Byte) (hc : c.length ≤ regionSpan)
    (ha : a.length ≤ regionSpan) : (s.storeResult c a).BufHolds .out c := by
  intro i hi
  have e1 := base_out
  have e2 := base_auxOut
  have e3 := regionSpan_eq
  rw [State.bufByte, s.read_storeResult c a hc ha, if_pos (by omega), Nat.add_sub_cancel_left]

theorem State.bufHolds_auxOut_storeResult (s : State) (c a : List Byte) (hc : c.length ≤ regionSpan)
    (ha : a.length ≤ regionSpan) : (s.storeResult c a).BufHolds .auxOut a := by
  intro i hi
  have e1 := base_out
  have e2 := base_auxOut
  have e3 := regionSpan_eq
  rw [State.bufByte, s.read_storeResult c a hc ha, if_neg (by omega), if_pos (by omega), Nat.add_sub_cancel_left]

theorem State.read_storeResult_elsewhere (s : State) (c a : List Byte) (hc : c.length ≤ regionSpan)
    (ha : a.length ≤ regionSpan) {x : Nat} (hx : ¬ inOutputRegions x) :
    (s.storeResult c a).mem.read x = s.mem.read x := by
  have e1 := base_out
  have e2 := base_auxOut
  have e3 := regionSpan_eq
  unfold inOutputRegions at hx
  rw [s.read_storeResult c a hc ha, if_neg (by omega), if_neg (by omega)]

theorem State.wf_storeResult {s : State} (h : s.mem.wf) (c a : List Byte) : (s.storeResult c a).mem.wf :=
  Memory.wf_writeRange (Memory.wf_writeRange (Memory.wf_clearRange (Memory.wf_clearRange h _ _) _ _) _ _) _ _

/-! ### The three completions -/

/-- ErrorFinish does what R329 says. -/
theorem State.errorFinish_failed (s : State) (e : CodecError) : Failed (s.errorFinish e) e s.algL where
  status := ⟨rfl, rfl, rfl⟩
  outLen := rfl
  auxOutLen := rfl
  origSize := rfl
  resultSize := rfl
  bytesSaved := rfl
  ratioNum := rfl
  ratioDen := rfl
  algTag := rfl

theorem State.errorFinish_frame (s : State) (e : CodecError) : OperationFrame s (s.errorFinish e) where
  params := rfl
  inLen := rfl
  auxInLen := rfl
  pending := rfl
  received := rfl
  bytes := fun _ hx => s.read_storeResult_elsewhere [] [] (by simp) (by simp) hx

theorem toNat_ofNat32 {n : Nat} (h : n < 2 ^ 32) : (BitVec.ofNat 32 n).toNat = n := by
  simp only [BitVec.toNat_ofNat]; omega

/-- CompressFinish without a guard failure does what R316 says. -/
theorem State.compressFinish_compressed (s : State) (c a : List Byte)
    (hg : ¬ (s.params.guardMode = .fault ∧ s.nL.toNat < c.length)) (hc : c.length ≤ regionSpan)
    (ha : a.length ≤ regionSpan) : Compressed (s.compressFinish c a) s.nL.toNat c a s.algL := by
  have hn : s.nL.toNat < 2 ^ 32 := s.nL.isLt
  have hc' : c.length < 2 ^ 32 := by simp only [regionSpan] at hc; omega
  have ha' : a.length < 2 ^ 32 := by simp only [regionSpan] at ha; omega
  rw [State.compressFinish, if_neg hg]
  constructor
  · exact ⟨rfl, rfl, rfl⟩
  · exact toNat_ofNat32 hc'
  · exact toNat_ofNat32 ha'
  · exact toNat_ofNat32 hn
  · exact toNat_ofNat32 (by simp only [compressResults]; omega)
  · exact toNat_ofNat32 (by simp only [compressResults]; omega)
  · refine (toNat_ofNat32 ?_)
    simp only [compressResults]; split <;> omega
  · refine (toNat_ofNat32 ?_)
    simp only [compressResults]; split <;> omega
  · rfl
  · exact s.bufHolds_out_storeResult c a hc ha
  · exact s.bufHolds_auxOut_storeResult c a hc ha

/-- CompressFinish with a guard failure is ErrorFinish (R318). -/
theorem State.compressFinish_guard (s : State) (c a : List Byte)
    (hg : s.params.guardMode = .fault ∧ s.nL.toNat < c.length) :
    s.compressFinish c a = s.errorFinish .expansionInvariantViolated := by
  rw [State.compressFinish, if_pos hg]

theorem State.compressFinish_frame (s : State) (c a : List Byte) (hc : c.length ≤ regionSpan)
    (ha : a.length ≤ regionSpan) : OperationFrame s (s.compressFinish c a) := by
  unfold State.compressFinish
  split
  · exact s.errorFinish_frame _
  · exact ⟨rfl, rfl, rfl, rfl, rfl, fun _ hx => s.read_storeResult_elsewhere c a hc ha hx⟩

/-- DecompressFinish does what R326 says. -/
theorem State.decompressFinish_decompressed (s : State) (d : List Byte) (hd : d.length ≤ regionSpan) :
    Decompressed (s.decompressFinish d) s.nL.toNat d s.algL := by
  have hn : s.nL.toNat < 2 ^ 32 := s.nL.isLt
  have hd' : d.length < 2 ^ 32 := by simp only [regionSpan] at hd; omega
  constructor
  · exact ⟨rfl, rfl, rfl⟩
  · exact toNat_ofNat32 hd'
  · rfl
  · exact toNat_ofNat32 hn
  · exact toNat_ofNat32 hd'
  · rfl
  · rfl
  · rfl
  · rfl
  · exact s.bufHolds_out_storeResult d [] hd (by simp)

theorem State.decompressFinish_frame (s : State) (d : List Byte) (hd : d.length ≤ regionSpan) :
    OperationFrame s (s.decompressFinish d) :=
  ⟨rfl, rfl, rfl, rfl, rfl, fun _ hx => s.read_storeResult_elsewhere d [] hd (by simp) hx⟩

/-! ### Running an operation -/

/-- What a compress operation can do: refuse a long input (R355), fail the guard (R318), or finish (R316). -/
theorem State.runCompress_cases (s : State) (f : List Byte → List Byte × List Byte) :
    (s.params.maxIn < s.nL.toNat ∧ s.runCompress f = s.errorFinish .capacityExceeded) ∨
    (s.nL.toNat ≤ s.params.maxIn ∧ s.runCompress f = s.compressFinish (f s.input).1 (f s.input).2) := by
  unfold State.runCompress State.admitted
  by_cases h : s.nL.toNat ≤ s.params.maxIn
  · exact .inr ⟨h, by simp [h]⟩
  · exact .inl ⟨by omega, by simp [h]⟩

/-- What a decompress operation can do: refuse a long container (R355), fail as its decoder does (R357), or finish
(R326). -/
theorem State.runDecompress_cases (s : State) (f : Nat → List Byte → Except CodecError (List Byte)) :
    (s.params.maxIn < s.nL.toNat ∧ s.runDecompress f = s.errorFinish .capacityExceeded) ∨
    (s.nL.toNat ≤ s.params.maxIn ∧
      ((∃ e, f s.params.maxOut s.input = .error e ∧ s.runDecompress f = s.errorFinish e) ∨
       (∃ d, f s.params.maxOut s.input = .ok d ∧ s.runDecompress f = s.decompressFinish d))) := by
  unfold State.runDecompress State.admitted
  by_cases h : s.nL.toNat ≤ s.params.maxIn
  · refine .inr ⟨h, ?_⟩
    cases hf : f s.params.maxOut s.input with
    | error e => exact .inl ⟨e, rfl, by simp [h]⟩
    | ok d => exact .inr ⟨d, rfl, by simp [h]⟩
  · exact .inl ⟨by omega, by simp [h]⟩

/-! ### Issuing a command -/

theorem State.issue_busy {s : State} (h : s.seq = .busy) (op : Op) (alg : Byte) (run : State → State) :
    s.issue op alg run = s := by
  simp [State.issue, h]

theorem State.issue_ready {s : State} (h : s.Ready) (op : Op) (alg : Byte) (run : State → State) :
    s.issue op alg run = run (s.accept op alg) := by
  simp only [State.issue, h.1, State.accept_wait, h.2, if_true]

theorem State.issue_later {s : State} (h : s.seq = .idle) (hw : s.schedule.headD 0 ≠ 0) (op : Op) (alg : Byte)
    (run : State → State) : s.issue op alg run = s.accept op alg := by
  unfold State.issue; rw [h]; exact if_neg hw

/-- The input string of an operation just accepted, where the host has loaded it. -/
theorem State.accept_input {s : State} {inp : List Byte} (h : s.HoldsInput inp) (op : Op) (alg : Byte) :
    (s.accept op alg).input = inp := by
  obtain ⟨hl, -, hb⟩ := h
  apply List.ext_getElem
  · simp [State.input, hl]
  · intro i h1 h2
    have := hb i h2
    simp only [State.input, State.inputByte, State.accept_nL, List.getElem_map, List.getElem_range]
    have hm : (s.accept op alg).bufByte .inp i = s.bufByte .inp i := rfl
    rw [hm, this, List.getElem?_eq_getElem h2]; rfl

/-- A loaded input does not set REFUSED (R68). -/
theorem State.accept_refused_loaded {s : State} {inp : List Byte} (h : s.HoldsInput inp) (op : Op) (alg : Byte) :
    (s.accept op alg).refused = s.refused := by
  obtain ⟨hl, -, hb⟩ := h
  have hw : s.mem.writtenRange (Buffer.base .inp) s.inLen.toNat = true := by
    rw [Memory.writtenRange_iff]
    intro i hi
    have := hb i (hl ▸ hi)
    simp only [State.bufByte] at this
    rw [this, List.getElem?_eq_getElem (hl ▸ hi)]; rfl
  simp [State.startReadsUnwritten, hw]

/-! ### Emitting -/

theorem Output.emit_ok {cap : Nat} {o : Output} (h : o.len < cap) (b : Byte) :
    o.emit cap b = .ok ⟨o.len + 1, b :: o.rev⟩ := by
  simp [Output.emit, Nat.not_le.mpr h]

theorem Output.emit_full {cap : Nat} {o : Output} (h : cap ≤ o.len) (b : Byte) :
    o.emit cap b = .error .capacityExceeded := by
  simp [Output.emit, h]

/-- The length an output records is that of its bytes, and it fits the capacity. -/
structure Output.Ok (cap : Nat) (o : Output) : Prop where
  len : o.len = o.rev.length
  fits : o.len ≤ cap

theorem Output.ok_empty (cap : Nat) : Output.empty.Ok cap := ⟨rfl, Nat.zero_le _⟩

theorem Output.emit_cases {cap : Nat} {o o' : Output} {b : Byte} (h : o.emit cap b = .ok o') :
    o.len < cap ∧ o' = ⟨o.len + 1, b :: o.rev⟩ := by
  by_cases hc : cap ≤ o.len
  · rw [Output.emit_full hc] at h; cases h
  · rw [Output.emit_ok (by omega)] at h; cases h; exact ⟨by omega, rfl⟩

theorem Output.emit_keeps {cap : Nat} {o o' : Output} {b : Byte} (h : o.emit cap b = .ok o') (ho : o.Ok cap) :
    o'.Ok cap := by
  obtain ⟨hl, rfl⟩ := Output.emit_cases h
  exact ⟨by simp [ho.len], by show o.len + 1 ≤ cap; omega⟩

/-- Emitting a string appends it, or raises CapacityExceeded when it does not fit. -/
theorem Output.emitAll_eq {cap : Nat} {o : Output} (hf : o.len ≤ cap) (bs : List Byte) :
    o.emitAll cap bs =
      if o.len + bs.length ≤ cap then .ok ⟨o.len + bs.length, bs.reverse ++ o.rev⟩ else .error .capacityExceeded := by
  induction bs generalizing o with
  | nil => simp [Output.emitAll, hf]
  | cons b bs ih =>
    by_cases h : cap ≤ o.len
    · rw [Output.emitAll, Output.emit_full h, if_neg (by simp; omega)]
    · rw [Output.emitAll, Output.emit_ok (by omega)]
      simp only
      rw [ih (by simp; omega)]
      simp only [List.length_cons, List.reverse_cons, List.append_assoc, List.cons_append, List.nil_append,
        show o.len + 1 + bs.length = o.len + (bs.length + 1) by omega]

/-- Emitting one byte several times is emitting the repeated string. -/
theorem Output.emitN_eq_emitAll (cap : Nat) (o : Output) (b : Byte) (n : Nat) :
    o.emitN cap b n = o.emitAll cap (List.replicate n b) := by
  induction n generalizing o with
  | zero => rfl
  | succ n ih =>
    rw [Output.emitN, List.replicate_succ, Output.emitAll]
    cases o.emit cap b with
    | error e => rfl
    | ok o' => exact ih o'

/-! ### One turn -/

/-- Everything a turn can be: waiting, one host access, or the completion of the latched operation. -/
theorem State.turn_cases (s : State) :
    (s.seq = .idle ∧ s.pending = [] ∧ s.turn = .next s) ∨
    (∃ a rest, s.seq = .idle ∧ s.pending = a :: rest ∧ s.turn = State.serve { s with pending := rest } a) ∨
    (∃ a rest k, s.seq = .busy ∧ s.pending = a :: rest ∧ s.wait = k + 1 ∧
      s.turn = State.serve { s with pending := rest, wait := k } a) ∨
    (s.seq = .busy ∧ (s.wait = 0 ∨ s.pending = []) ∧ s.turn = .next s.completeLatched) := by
  unfold State.turn
  split
  · exact .inl ⟨‹_›, ‹_›, rfl⟩
  · exact .inr (.inl ⟨_, _, ‹_›, ‹_›, rfl⟩)
  · exact .inr (.inr (.inr ⟨‹_›, .inl ‹_›, rfl⟩))
  · exact .inr (.inr (.inr ⟨‹_›, .inr ‹_›, rfl⟩))
  · exact .inr (.inr (.inl ⟨_, _, _, ‹_›, ‹_›, ‹_›, rfl⟩))

end Sys2Proof.Machine
end

