-- ==== Sys2Proof/Laws/Coders.lean ====
section
/-!
SUPPORT. The coders: every decoder keeps its output within P_MAX_OUT, what the tree orders are, and how long the encoders' containers
are.
-/

namespace Sys2Proof.Machine

/-! ### Decoders -/

theorem Output.finish_ok {r : Except CodecError Output} {d : List Byte} (h : Output.finish r = .ok d) :
    ∃ o, r = .ok o ∧ d = o.bytes := by
  cases r with
  | error e => cases h
  | ok o => exact ⟨o, rfl, by cases h; rfl⟩

theorem Output.bytes_length {cap : Nat} {o : Output} (h : o.Ok cap) : o.bytes.length ≤ cap := by
  rw [Output.bytes, List.length_reverse, ← h.len]; exact h.fits

theorem Output.emitAll_keeps {cap : Nat} {o o' : Output} {bs : List Byte} (h : o.emitAll cap bs = .ok o')
    (ho : o.Ok cap) : o'.Ok cap := by
  rw [Output.emitAll_eq ho.fits] at h
  split at h
  · cases h; exact ⟨by simp [ho.len, Nat.add_comm], ‹_›⟩
  · cases h

theorem Output.emitN_keeps {cap : Nat} {o o' : Output} {b : Byte} {n : Nat} (h : o.emitN cap b n = .ok o')
    (ho : o.Ok cap) : o'.Ok cap :=
  Output.emitAll_keeps (Output.emitN_eq_emitAll cap o b n ▸ h) ho

theorem Output.copyBack_keeps {cap d n : Nat} {o o' : Output} (h : o.copyBack cap d n = .ok o') (ho : o.Ok cap) :
    o'.Ok cap := by
  induction n generalizing o with
  | zero => cases h; exact ho
  | succ n ih =>
    rw [Output.copyBack] at h
    cases he : o.emit cap (o.back d) with
    | error e => rw [he] at h; cases h
    | ok o1 => rw [he] at h; exact ih h (Output.emit_keeps he ho)

theorem Output.emitNext_keeps {cap : Nat} {o o' : Output} {c : Byte} (h : o.emitNext cap c = .ok o') (ho : o.Ok cap) :
    o'.Ok cap := by
  rw [Output.emitNext] at h
  split at h
  · cases h; exact ho
  · exact Output.emit_keeps h ho

theorem Output.applyMatch_keeps {cap d l : Nat} {o o' : Output} {c : Byte} (h : o.applyMatch cap d l c = .ok o')
    (ho : o.Ok cap) : o'.Ok cap := by
  rw [Output.applyMatch] at h
  split at h
  · cases h
  · cases he : o.copyBack cap d l with
    | error e => rw [he] at h; cases h
    | ok o1 => rw [he] at h; exact Output.emitNext_keeps h (Output.copyBack_keeps he ho)

theorem rleDecodeTokens_keeps {cap : Nat} {buf : List Byte} {o o' : Output}
    (h : rleDecodeTokens cap buf o = .ok o') (ho : o.Ok cap) : o'.Ok cap := by
  fun_induction rleDecodeTokens cap buf o with
  | case1 => cases h; exact ho
  | case2 => cases h
  | case3 => cases h
  | case4 o c v rest hc o1 he ih => exact ih h (Output.emitN_keeps he ho)
  | case5 => cases h
  | case6 => cases h
  | case7 b rest o hb o1 he ih => exact ih h (Output.emit_keeps he ho)

theorem lzDecodeTokens_keeps {cap : Nat} {buf : List Byte} {o o' : Output}
    (h : lzDecodeTokens cap buf o = .ok o') (ho : o.Ok cap) : o'.Ok cap := by
  fun_induction lzDecodeTokens cap buf o with
  | case1 => cases h; exact ho
  | case2 => cases h
  | case3 o b rest o1 he ih => exact ih h (Output.emit_keeps he ho)
  | case4 => cases h
  | case5 => cases h
  | case6 o dHi dLo l c rest o1 he hne ih => exact ih h (Output.applyMatch_keeps he ho)
  | case7 => cases h
  | case8 => cases h

theorem bitWalk_keeps {cap : Nat} {root : CodeTree} {bits : List Bool} {node : CodeTree} {need : Nat} {o o' : Output}
    (h : bitWalk cap root bits node need o = .ok o') (ho : o.Ok cap) : o'.Ok cap := by
  fun_induction bitWalk cap root bits node need o with
  | case1 => cases h; exact ho
  | case2 => cases h
  | case3 => cases h
  | case4 o bit bits node need v hv o1 he ih => exact ih h (Output.emit_keeps he ho)
  | case5 o bit bits node need l r hn ih => exact ih h ho

theorem decodeWithTree_keeps {cap : Nat} {root : CodeTree} {ol : Nat} {p : List Byte} {o' : Output}
    (h : decodeWithTree cap root ol p = .ok o') : o'.Ok cap := by
  cases root with
  | leaf v => exact Output.emitN_keeps h (Output.ok_empty cap)
  | node l r => exact bitWalk_keeps h (Output.ok_empty cap)

theorem decodeGeneral_keeps {cap tl ol : Nat} {body : List Byte} {o' : Output}
    (h : decodeGeneral cap tl ol body = .ok o') : o'.Ok cap := by
  rw [decodeGeneral] at h
  split at h
  · cases h
  · cases hp : parseTree tl (body.take tl) with
    | none => rw [hp] at h; cases h
    | some q => rw [hp] at h; exact decodeWithTree_keeps h

/-- A decoder's output never exceeds P_MAX_OUT (60_exceptions R355). -/
theorem rleDecode_fits {cap : Nat} {buf d : List Byte} (h : rleDecode cap buf = .ok d) : d.length ≤ cap := by
  unfold rleDecode at h
  split at h
  · cases h; exact Nat.zero_le _
  · split at h
    · obtain ⟨o, ho, rfl⟩ := Output.finish_ok h
      exact Output.bytes_length (Output.emitAll_keeps ho (Output.ok_empty cap))
    · obtain ⟨o, ho, rfl⟩ := Output.finish_ok h
      exact Output.bytes_length (rleDecodeTokens_keeps ho (Output.ok_empty cap))

theorem lzDecode_fits {cap : Nat} {buf d : List Byte} (h : lzDecode cap buf = .ok d) : d.length ≤ cap := by
  unfold lzDecode at h
  split at h
  · cases h; exact Nat.zero_le _
  · split at h
    · obtain ⟨o, ho, rfl⟩ := Output.finish_ok h
      exact Output.bytes_length (Output.emitAll_keeps ho (Output.ok_empty cap))
    · obtain ⟨o, ho, rfl⟩ := Output.finish_ok h
      exact Output.bytes_length (lzDecodeTokens_keeps ho (Output.ok_empty cap))

theorem hufDecode_fits {cap : Nat} {buf d : List Byte} (h : hufDecode cap buf = .ok d) : d.length ≤ cap := by
  unfold hufDecode at h
  split at h
  · cases h; exact Nat.zero_le _
  · split at h
    · split at h
      · obtain ⟨o, ho, rfl⟩ := Output.finish_ok h
        exact Output.bytes_length (Output.emitN_keeps ho (Output.ok_empty cap))
      · cases h
    · split at h
      · obtain ⟨o, ho, rfl⟩ := Output.finish_ok h
        exact Output.bytes_length (Output.emitAll_keeps ho (Output.ok_empty cap))
      · split at h
        · split at h
          · obtain ⟨o, ho, rfl⟩ := Output.finish_ok h
            exact Output.bytes_length (decodeGeneral_keeps ho)
          · cases h
        · cases h

/-! ### Encoders -/

@[simp] theorem be16_length (x : Nat) : (be16 x).length = 2 := rfl

@[simp] theorem be24_length (x : Nat) : (be24 x).length = 3 := rfl

theorem packBytes_length (n : Nat) (bits : List Bool) : (packBytes n bits).length = n := by
  induction n generalizing bits with
  | zero => rfl
  | succ n ih => simp [packBytes, ih]

/-- The general container is as long as the size test says (40_huffman R175). -/
theorem generalContainer_length (root : CodeTree) (inp : List Byte) :
    (generalContainer root inp).length = generalSize root inp := by
  simp [generalContainer, generalSize, Config.hdrGeneral]; omega

/-- What the last lines of HufEncode can answer: the fallback record, or a shorter general container. -/
theorem encodeWithTree_cases (root : CodeTree) (inp : List Byte) :
    (inp.length ≤ generalSize root inp ∧ encodeWithTree root inp = (0xFE :: inp, [])) ∨
    (generalSize root inp < inp.length ∧
      encodeWithTree root inp = (generalContainer root inp, serialize root)) := by
  unfold encodeWithTree
  split
  · exact .inl ⟨‹_›, rfl⟩
  · exact .inr ⟨by omega, rfl⟩

/-- Under the order of R152 to R154 every leaf has rank 0, and so has every merged node, with the node taken first to the
left. -/
theorem leaves_creationOrder_rank {inp' inp : List Byte} {n : PoolNode}
    (h : n ∈ leaves (creationOrder inp') inp) : n.rank = 0 := by
  obtain ⟨e, -, rfl⟩ := List.mem_map.mp h
  rfl

theorem mergeNodes_creationOrder (inp : List Byte) (seq : Nat) (a b : PoolNode) :
    mergeNodes (creationOrder inp) seq a b = ⟨a.weight + b.weight, 0, seq, .node a.tree b.tree⟩ := rfl

/-- The selection order, as a proposition (40_huffman R153, R156). -/
theorem PoolNode.precedes_iff (a b : PoolNode) : a.precedes b = true ↔ a.Before b := by
  simp [PoolNode.precedes, PoolNode.breaksTie, PoolNode.Before]

/-- Where the ranks are equal the selection order is that of R153. -/
theorem PoolNode.before_of_rank_eq {a b : PoolNode} (h : a.rank = b.rank) : a.Before b ↔ a.BeforeByCreation b := by
  simp [PoolNode.Before, PoolNode.BeforeByCreation, h]

/-- The three shapes of HufEncode's answer (R170): nothing, the single-symbol record, or one with a tree. -/
theorem hufEncode_cases (order : TreePolicy) (inp : List Byte) :
    (inp = [] ∧ hufEncode order inp = ([], [])) ∨
    (∃ v, inp.head? = some v ∧ hufEncode order inp = ([0xFF, v] ++ be24 (trunc 24 inp.length), [])) ∨
    (∃ x y rest, leaves (order inp) inp = x :: y :: rest ∧
      hufEncode order inp = encodeWithTree (buildTree (order inp) x (y :: rest)) inp) := by
  unfold hufEncode
  split
  · exact .inl ⟨rfl, rfl⟩
  · split
    · exact .inr (.inr ⟨_, _, _, ‹_›, rfl⟩)
    · exact .inr (.inl ⟨_, rfl, rfl⟩)

/-- A tree container is at most n + 4 bytes, and its auxiliary tree shorter than the input (43_dispatch R324). -/
theorem hufEncode_bounds (order : TreePolicy) (inp : List Byte) :
    (hufEncode order inp).1.length ≤ inp.length + 4 ∧ (hufEncode order inp).2.length ≤ inp.length := by
  rcases hufEncode_cases order inp with ⟨rfl, h⟩ | ⟨v, hv, h⟩ | ⟨x, y, rest, -, h⟩
  · simp [h]
  · have : inp ≠ [] := by rintro rfl; cases hv
    have : 0 < inp.length := List.length_pos_iff.mpr this
    simp [h]; omega
  · rw [h]
    rcases encodeWithTree_cases (buildTree (order inp) x (y :: rest)) inp with ⟨-, h2⟩ | ⟨h1, h2⟩
    · simp [h2]
    · rw [h2]
      refine ⟨by rw [generalContainer_length]; omega, ?_⟩
      simp only [generalSize] at h1
      show (serialize _).length ≤ _
      omega

theorem rleEncode_bound (zr : ZeroRuns) (inp : List Byte) : (rleEncode zr inp).length ≤ inp.length + 4 := by
  unfold rleEncode
  split
  · simp
  · split
    · simp
    · omega

theorem lzEncode_bound (inp : List Byte) : (lzEncode inp).length ≤ inp.length + 4 := by
  unfold lzEncode
  split
  · simp
  · split
    · simp
    · omega

end Sys2Proof.Machine
end

