-- ==== Sys2Proof/Laws/PerInstr.lean ====
section
/-!
SUPPORT. A fact of every command as syntax: its encoded word sets no reserved bit (30_encoding R90, R92), and START is
set exactly when the command is no NOP (R91).
-/

namespace Sys2Proof.Laws.EncodedWord

/-- The encoded word has its reserved bits 0, and its START bit says whether it is a NOP. -/
def Statement (i : Instr) : Prop :=
  encode i &&& 0xFFFF00FC = 0 ∧ (fieldStart (encode i) = true ↔ i ≠ .nop)

theorem nop : Statement .nop := by unfold Statement; decide

theorem hufEnc : Statement .hufEnc := by unfold Statement; decide

theorem hufDec : Statement .hufDec := by unfold Statement; decide

theorem rleEnc : Statement .rleEnc := by unfold Statement; decide

theorem rleDec : Statement .rleDec := by unfold Statement; decide

theorem lzEnc : Statement .lzEnc := by unfold Statement; decide

theorem lzDec : Statement .lzDec := by unfold Statement; decide

theorem unsupEnc (alg : Byte) : Statement (.unsupEnc alg) := by
  unfold Statement; revert alg; decide

theorem unsupDec (alg : Byte) : Statement (.unsupDec alg) := by
  unfold Statement; revert alg; decide

end Sys2Proof.Laws.EncodedWord
end

