-- ==== Sys2Proof/Laws/Steps.lean ====
section
/-!
SUPPORT. What a command and a step can do, said once: a command is issued with its operation, an operation ends in one of
the three completions, a host access has one of six effects, and a step is one of four kinds.
-/

namespace Sys2Proof.Machine

/-! ### Commands and their operations -/

/-- The operation a command runs, as the mux of 43_dispatch R313 chooses it; a NOP runs none. -/
def operationOf : Instr → State → State
  | .nop => id
  | .hufEnc => runHufEnc
  | .hufDec => runHufDec
  | .rleEnc => runRleEnc
  | .rleDec => runRleDec
  | .lzEnc => runLzEnc
  | .lzDec => runLzDec
  | .unsupEnc _ => runUnsupEnc
  | .unsupDec _ => runUnsupDec

/-- Executing a START is issuing its operation. -/
theorem exec_start {i : Instr} (h : i ≠ .nop) (s : State) : exec i s = .next (s.issue i.op i.alg (operationOf i)) := by
  cases i <;> first | exact absurd rfl h | rfl

theorem selectInstr_ne_nop (op : Op) (alg : Byte) : selectInstr op alg ≠ .nop := by
  revert alg; cases op <;> decide

theorem selectInstr_op (op : Op) (alg : Byte) : (selectInstr op alg).op = op := by
  revert alg; cases op <;> decide

theorem selectInstr_alg (op : Op) (alg : Byte) : (selectInstr op alg).alg = alg := by
  revert alg; cases op <;> decide

theorem decodeCmd_start {w : Word} (h : w.getLsbD 0 = true) : decodeCmd w = selectInstr (fieldOp w) (fieldAlg w) := by
  unfold decodeCmd fieldStart; rw [h]; rfl

theorem decodeCmd_noStart {w : Word} (h : w.getLsbD 0 = false) : decodeCmd w = .nop := by
  unfold decodeCmd fieldStart; rw [h]; rfl

/-- The engine's completion is the operation of the latched command. -/
theorem State.completeLatched_eq (s : State) : s.completeLatched = operationOf (selectInstr s.opL s.algL) s := by
  unfold State.completeLatched
  cases h : selectInstr s.opL s.algL <;> first | exact absurd h (selectInstr_ne_nop _ _) | rfl

theorem State.input_length (s : State) : s.input.length = s.nL.toNat := by simp [State.input]

/-- How every operation ends: an error, a container of bounded size, or a string that fits OUT. -/
theorem operation_cases {i : Instr} (hi : i ≠ .nop) (s : State) :
    (∃ e, operationOf i s = s.errorFinish e) ∨
    (∃ c a, s.nL.toNat ≤ s.params.maxIn ∧ c.length ≤ s.nL.toNat + 4 ∧ a.length ≤ s.nL.toNat ∧
      operationOf i s = s.compressFinish c a) ∨
    (∃ d, d.length ≤ s.params.maxOut ∧ operationOf i s = s.decompressFinish d) := by
  have compress : ∀ f : List Byte → List Byte × List Byte,
      (∀ inp, (f inp).1.length ≤ inp.length + 4 ∧ (f inp).2.length ≤ inp.length) →
      (∃ e, s.runCompress f = s.errorFinish e) ∨
      (∃ c a, s.nL.toNat ≤ s.params.maxIn ∧ c.length ≤ s.nL.toNat + 4 ∧ a.length ≤ s.nL.toNat ∧
        s.runCompress f = s.compressFinish c a) ∨
      (∃ d, d.length ≤ s.params.maxOut ∧ s.runCompress f = s.decompressFinish d) := by
    intro f hf
    rcases s.runCompress_cases f with ⟨-, h⟩ | ⟨h1, h⟩
    · exact .inl ⟨_, h⟩
    · exact .inr (.inl ⟨_, _, h1, s.input_length ▸ (hf _).1, s.input_length ▸ (hf _).2, h⟩)
  have decompress : ∀ f : Nat → List Byte → Except CodecError (List Byte),
      (∀ cap inp d, f cap inp = .ok d → d.length ≤ cap) →
      (∃ e, s.runDecompress f = s.errorFinish e) ∨
      (∃ c a, s.nL.toNat ≤ s.params.maxIn ∧ c.length ≤ s.nL.toNat + 4 ∧ a.length ≤ s.nL.toNat ∧
        s.runDecompress f = s.compressFinish c a) ∨
      (∃ d, d.length ≤ s.params.maxOut ∧ s.runDecompress f = s.decompressFinish d) := by
    intro f hf
    rcases s.runDecompress_cases f with ⟨-, h⟩ | ⟨-, ⟨e, -, h⟩ | ⟨d, hd, h⟩⟩
    · exact .inl ⟨_, h⟩
    · exact .inl ⟨_, h⟩
    · exact .inr (.inr ⟨d, hf _ _ _ hd, h⟩)
  cases i with
  | nop => exact absurd rfl hi
  | hufEnc => exact compress (hufEncode (policyOf s.params.treeOrder)) (hufEncode_bounds _)
  | rleEnc => exact compress (fun inp => (rleEncode s.params.zeroRuns inp, [])) fun _ => ⟨rleEncode_bound _ _, by simp⟩
  | lzEnc => exact compress (fun inp => (lzEncode inp, [])) fun _ => ⟨lzEncode_bound _, by simp⟩
  | hufDec => exact decompress hufDecode fun _ _ _ => hufDecode_fits
  | rleDec => exact decompress rleDecode fun _ _ _ => rleDecode_fits
  | lzDec => exact decompress lzDecode fun _ _ _ => lzDecode_fits
  | unsupEnc => exact .inl ⟨_, rfl⟩
  | unsupDec => exact .inl ⟨_, rfl⟩

theorem CodecError.code_le (e : CodecError) : e.code.toNat ≤ 5 := by cases e <;> decide

/-- What every operation leaves, however it ends. -/
structure OperationEnds (s t : State) : Prop where
  seq : t.seq = .idle
  done : t.done = true
  err : t.err.toNat ≤ 5
  algTag : t.algTag = s.algL.setWidth 32
  params : t.params = s.params
  inLen : t.inLen = s.inLen
  auxInLen : t.auxInLen = s.auxInLen
  refused : t.refused = s.refused
  opL : t.opL = s.opL
  algL : t.algL = s.algL
  nL : t.nL = s.nL
  pending : t.pending = s.pending
  received : t.received = s.received
  schedule : t.schedule = s.schedule

theorem State.errorFinish_ends (s : State) (e : CodecError) : OperationEnds s (s.errorFinish e) :=
  ⟨rfl, rfl, e.code_le, rfl, rfl, rfl, rfl, rfl, rfl, rfl, rfl, rfl, rfl, rfl⟩

theorem State.compressFinish_ends (s : State) (c a : List Byte) : OperationEnds s (s.compressFinish c a) := by
  unfold State.compressFinish
  split
  · exact s.errorFinish_ends _
  · exact ⟨rfl, rfl, (by decide : errNone.toNat ≤ 5), rfl, rfl, rfl, rfl, rfl, rfl, rfl, rfl, rfl, rfl, rfl⟩

theorem State.decompressFinish_ends (s : State) (d : List Byte) : OperationEnds s (s.decompressFinish d) :=
  ⟨rfl, rfl, (by decide : errNone.toNat ≤ 5), rfl, rfl, rfl, rfl, rfl, rfl, rfl, rfl, rfl, rfl, rfl⟩

theorem operation_ends {i : Instr} (hi : i ≠ .nop) (s : State) : OperationEnds s (operationOf i s) := by
  rcases operation_cases hi s with ⟨e, h⟩ | ⟨c, a, -, -, -, h⟩ | ⟨d, -, h⟩
  · exact h ▸ s.errorFinish_ends e
  · exact h ▸ s.compressFinish_ends c a
  · exact h ▸ s.decompressFinish_ends d

/-! ### Host accesses -/

/-- The effects a host access other than the reset can have. -/
inductive Served (s : State) (a : HostAccess) : State → Prop where
  /-- None: a NOP. -/
  | same : Served s a s
  /-- A refused write. -/
  | marked : Served s a s.markRefused
  /-- A read; a poll or a block read also changes what the host does next. -/
  | answered (r : ReadResult) (next : List HostAccess) {t : State} (h : t = { s.respond r with pending := next }) :
      Served s a t
  /-- A write to a register other than CMD. -/
  | register (offset : Nat) (w : Word) (h : offset ≠ cmdOffset) : Served s a (s.writeReg offset w)
  /-- A write to a byte of a buffer. -/
  | byte (b : Buffer) (i : Nat) (v : Byte) (h : i < b.size s.params) : Served s a (s.writeBuf b i v)
  /-- A START. -/
  | start (w : Word) (ha : a = .write 0 4 w) (hw : w.getLsbD 0 = true) :
      Served s a
        (s.issue (fieldOp w) (fieldAlg w) (operationOf (selectInstr (fieldOp w) (fieldAlg w))))

theorem targetOf_zero {p : Params} {a : Nat} (h : targetOf p a = .reg 0) : a = 0 := by
  unfold targetOf at h
  repeat' split at h
  all_goals first | (cases h; rfl) | cases h

theorem State.serve_cases (s : State) {a : HostAccess} (ha : a ≠ .reset) : ∃ t, s.serve a = .next t ∧ Served s a t := by
  cases a with
  | reset => exact absurd rfl ha
  | read addr size =>
    exact ⟨_, rfl, .answered (s.readBus addr size) s.pending (by cases s.readBus addr size <;> rfl)⟩
  | poll addr hi lo v =>
    simp only [State.serve]; split
    · exact ⟨_, rfl, .answered (s.readBus addr 4) s.pending (by cases s.readBus addr 4 <;> rfl)⟩
    · exact ⟨_, rfl, .answered _ _ rfl⟩
  | readBlock lenAddr dataAddr => exact ⟨_, rfl, .answered _ _ rfl⟩
  | write addr size v =>
    simp only [State.serve, State.writeBus]
    split
    · rename_i o ho
      split
      · rename_i hs
        split
        · rename_i h0
          have h1 : addr = 0 := BitVec.eq_of_toNat_eq (targetOf_zero (h0 ▸ ho))
          obtain ⟨rfl, -⟩ := hs
          cases hw : v.getLsbD 0
          · rw [decodeCmd_noStart hw]; exact ⟨_, rfl, .same⟩
          · rw [decodeCmd_start hw, exec_start (selectInstr_ne_nop _ _), selectInstr_op, selectInstr_alg]
            exact ⟨_, rfl, .start v (by rw [h1]) hw⟩
        · rename_i h0; exact ⟨_, rfl, .register _ _ h0⟩
      · exact ⟨_, rfl, .marked⟩
    · rename_i b i hb
      split
      · exact ⟨_, rfl, .byte _ _ _ (targetOf_buf hb).2⟩
      · exact ⟨_, rfl, .marked⟩
    · exact ⟨_, rfl, .marked⟩

/-! ### Steps -/

/-- The four kinds of a step: waiting, a reset, another host access, or the completion of the latched operation. -/
theorem step_cases {s t : State} (h : step s = .next t) :
    (s.seq = .idle ∧ s.pending = [] ∧ t = s) ∨
    (s.Serves .reset ∧ ∃ rest k, t = ({ s with pending := rest, wait := k } : State).hardReset) ∨
    (∃ a rest k, s.Serves a ∧ a ≠ .reset ∧ s.pending = a :: rest ∧
      ({ s with pending := rest, wait := k } : State).serve a = .next t ∧
      Served { s with pending := rest, wait := k } a t) ∨
    (s.seq = .busy ∧ (s.wait = 0 ∨ s.pending = []) ∧ t = s.completeLatched) := by
  have access : ∀ a rest k, s.Serves a → s.pending = a :: rest →
      ({ s with pending := rest, wait := k } : State).serve a = .next t →
      (s.Serves .reset ∧ ∃ rest k, t = ({ s with pending := rest, wait := k } : State).hardReset) ∨
      (∃ a rest k, s.Serves a ∧ a ≠ .reset ∧ s.pending = a :: rest ∧
        ({ s with pending := rest, wait := k } : State).serve a = .next t ∧
        Served { s with pending := rest, wait := k } a t) := by
    intro a rest k hs hp ht
    by_cases ha : a = .reset
    · subst ha; cases ht; exact .inl ⟨hs, _, _, rfl⟩
    · obtain ⟨u, hu, hv⟩ := State.serve_cases { s with pending := rest, wait := k } ha
      have hut := hu.symm.trans ht
      cases hut
      exact .inr ⟨a, rest, k, hs, ha, hp, hu, hv⟩
  unfold step at h
  rcases s.turn_cases with ⟨h1, h2, h3⟩ | ⟨a, rest, h1, h2, h3⟩ | ⟨a, rest, k, h1, h2, h4, h3⟩ | ⟨h1, h2, h3⟩
  · rw [h3] at h; cases h; exact .inl ⟨h1, h2, rfl⟩
  · rw [h3] at h
    rcases access a rest s.wait ⟨.inl h1, _, h2⟩ h2 h with h | h
    · exact .inr (.inl h)
    · exact .inr (.inr (.inl h))
  · rw [h3] at h
    rcases access a rest k ⟨.inr (by omega), _, h2⟩ h2 h with h | h
    · exact .inr (.inl h)
    · exact .inr (.inr (.inl h))
  · rw [h3] at h; cases h; exact .inr (.inr (.inr ⟨h1, h2, rfl⟩))

end Sys2Proof.Machine
end

