-- ==== Sys2Proof/Tests/Slice0.lean ====
section
/-!
SUPPORT. Tests on fixed values: expected results are the spec's own vectors (95_test_vectors) or worked from its rules. After
them, for each statement with hypotheses a theorem that some state and operands meet all of them (`witness_…`).
-/

namespace Sys2Proof.Tests

open Sys2Proof Sys2Proof.Machine

/-! ### Well-formedness -/

theorem test_wf_refuses_window_selector_as_unsupported_compress : (Instr.unsupEnc 0x02).wf = false := by decide

theorem test_wf_refuses_tree_selector_as_unsupported_decompress : (Instr.unsupDec 0x00).wf = false := by decide

theorem test_wf_takes_the_first_and_last_unsupported_selector :
    (Instr.unsupEnc 0x03).wf = true ∧ (Instr.unsupDec 0xFF).wf = true := by decide

/-! ### Decoding: START is bit 0, OP bit 1, ALG bits 15:8 (R90) -/

theorem test_decode_nop : decodeCmd 0b00000000000000000000001000000010 = .nop := by decide

theorem test_decode_tree_commands :
    decodeCmd 0b00000000000000000000000000000001 = .hufEnc ∧
    decodeCmd 0b00000000000000000000000000000011 = .hufDec := by decide

theorem test_decode_run_commands :
    decodeCmd 0b00000000000000000000000100000001 = .rleEnc ∧
    decodeCmd 0b00000000000000000000000100000011 = .rleDec := by decide

theorem test_decode_window_commands :
    decodeCmd 0b00000000000000000000001000000001 = .lzEnc ∧
    decodeCmd 0b00000000000000000000001000000011 = .lzDec := by decide

theorem test_decode_unsupported_commands :
    decodeCmd 0b00000000000000000000001100000001 = .unsupEnc 0b00000011 ∧
    decodeCmd 0b11111111111111111111111111111111 = .unsupDec 0b11111111 := by decide

theorem test_decode_rejects_by_name :
    decodeBits 40 1 = .error .longerThanCommandWord ∧ decodeBits 8 0x101 = .error .valueDoesNotFit ∧
    decodeTableWord 32 0x101 = some .rleEnc := ⟨rfl, rfl, rfl⟩

/-! ### A small machine -/

/-- Parameters at the lower ends of R9's table. -/
def tiny : Params :=
  { maxIn := 1, maxOut := 5, maxAux := 767, guardMode := .saturate, zeroRuns := .escape, treeOrder := .creation }

/-- Parameters for the vectors. -/
def small : Params := { tiny with maxIn := 4096, maxOut := 4100 }

/-- A machine after reset whose host has loaded a string. -/
def loaded (p : Params) (bs : List Byte) : State :=
  { State.reset with params := p, inLen := BitVec.ofNat 32 bs.length, mem := cellsFrom (Buffer.base .inp) bs }

/-- The state an outcome leaves. -/
def after : Host.Outcome State Fault Refusal → State
  | .next s => s
  | .fault _ => State.reset
  | .refused _ => State.reset

/-- One step that runs the command word on a loaded string. -/
def ran (p : Params) (bs : List Byte) (w : Word) : State := after (step ((loaded p bs).placeCommand w))

/-- The reported output. -/
def outOf (s : State) : List (Option Byte) := (List.range s.outLen.toNat).map (s.bufByte .out)

/-- BUSY with two host accesses to pass before the completion. -/
def busyState : State := { loaded small [0x41] with seq := .busy, wait := 2, nL := 1 }

/-! ### Commands -/

/-- V-DSP-11 (R312). -/
theorem test_nop_leaves_status : (ran small [0x41] 0x00000202).status = 0 ∧ (ran small [0x41] 0x00000202).draws = 0 := by
  decide +kernel

/-- R156: an order that ranks 0x42 before 0x41 and puts the node taken first to the right. -/
def reversedOrder : TreePolicy := fun _ => { rank := fun seq => 1 - seq, swap := fun _ => true }

/-- R152 to R154 and R156: two values of equal weight under the default order, and under one that takes the second first, with
either child order. -/
theorem test_tree_orders :
    (leaves (creationOrder []) [0x42, 0x41]).map PoolNode.seq = [0, 1] ∧
    buildTree (creationOrder []) ⟨1, 0, 0, .leaf 0x41⟩ [⟨1, 0, 1, .leaf 0x42⟩] = .node (.leaf 0x41) (.leaf 0x42) ∧
    buildTree (creationOrder []) ⟨1, 1, 0, .leaf 0x41⟩ [⟨1, 0, 1, .leaf 0x42⟩] = .node (.leaf 0x42) (.leaf 0x41) ∧
    buildTree (reversedOrder []) ⟨1, 0, 0, .leaf 0x41⟩ [⟨1, 0, 1, .leaf 0x42⟩] = .node (.leaf 0x42) (.leaf 0x41) := by
  decide +kernel

/-- V-HUF-7 (R170 to R176), under the default order. -/
theorem test_huf_enc_general_container :
    hufEncode creationOrder (List.replicate 6 0x41 ++ List.replicate 6 0x42 ++ List.replicate 6 0x43 ++ List.replicate 6 0x44) =
      ([0x00, 0x0B, 0x00, 0x18, 0x00, 0x00, 0x01, 0x41, 0x01, 0x42, 0x00, 0x01, 0x43, 0x01, 0x44,
        0x00, 0x05, 0x55, 0xAA, 0xAF, 0xFF],
       [0x00, 0x00, 0x01, 0x41, 0x01, 0x42, 0x00, 0x01, 0x43, 0x01, 0x44]) := by
  decide +kernel

/-- V-DSP-2 (R318): in FAULT mode the single-symbol record of one byte is an error. -/
theorem test_huf_enc_guard_fault :
    (ran { small with guardMode := .fault } [0x41] 0x00000001).status = 0x00000402 ∧
    (ran { small with guardMode := .fault } [0x41] 0x00000001).outLen = 0 := by
  decide +kernel

/-- V-HUF-D4 (R185) and V-HUF-D7 (R184). -/
theorem test_huf_dec_walks_the_tree :
    hufDecode 4100 [0x00, 0x05, 0x00, 0x05, 0x00, 0x01, 0x41, 0x01, 0x42, 0xF0] = .ok [0x42, 0x42, 0x42, 0x42, 0x41] ∧
    hufDecode 4100 [0x00, 0x02, 0x00, 0x03, 0x01, 0x41] = .ok [0x41, 0x41, 0x41] := ⟨by rfl, by rfl⟩

/-- V-DSP-8 (R355): the 1000th byte does not fit. -/
theorem test_huf_dec_output_full :
    (ran { small with maxIn := 995, maxOut := 999 } [0xFF, 0x41, 0x00, 0x03, 0xE8] 0x00000003).status = 0x00000502 := by
  decide +kernel

/-- V-RLE-5 and V-RLE-A1 (R271 to R275): a lone zero under each value of P_RLE_ZERO_RUNS. -/
theorem test_rle_enc_lone_zero :
    rleTokens .escape [0x07, 0x07, 0x00, 0x07, 0x07, 0x07, 0x07] = [0x07, 0x07, 0x00, 0x01, 0x00, 0x00, 0x04, 0x07] ∧
    rleTokens .literal [0x01, 0x00, 0x02, 0x02, 0x02, 0x02, 0x02, 0x02] = [0x01, 0x00, 0x00, 0x06, 0x02] := by
  decide +kernel

/-- V-RLE-4 (R275, R316): registers of a kept stream. -/
theorem test_rle_enc_registers :
    (ran small [0x41, 0x41, 0x41, 0x41] 0x00000101).resultSize = 3 ∧
    (ran small [0x41, 0x41, 0x41, 0x41] 0x00000101).bytesSaved = 1 ∧
    outOf (ran small [0x41, 0x41, 0x41, 0x41] 0x00000101) = [some 0x00, some 0x04, some 0x41] := by
  decide +kernel

/-- V-DSP-9 (R278, R326). -/
theorem test_rle_dec_registers :
    outOf (ran small [0x00, 0x04, 0x41] 0x00000103) = [some 0x41, some 0x41, some 0x41, some 0x41] ∧
    (ran small [0x00, 0x04, 0x41] 0x00000103).origSize = 3 ∧
    (ran small [0x00, 0x04, 0x41] 0x00000103).algTag = 1 := by
  decide +kernel

/-- V-RLE-E3 (R280). -/
theorem test_rle_dec_zero_count : (ran small [0x00, 0x00, 0x07] 0x00000103).status = 0x00000302 := by decide +kernel

/-- V-LZ-8 (R222, R223): at position 13 the farthest match is taken. -/
theorem test_lz_enc_takes_the_farthest :
    lzEncode [0x78, 0x79, 0x7A, 0x78, 0x79, 0x7A, 0x78, 0x79, 0x7A, 0x78, 0x79, 0x7A, 0x51, 0x78, 0x79, 0x7A, 0x78, 0x79,
        0x7A] =
      [0x00, 0x78, 0x00, 0x79, 0x00, 0x7A, 0x01, 0x00, 0x03, 0x09, 0x51, 0x01, 0x00, 0x0D, 0x06, 0x00] := by
  decide +kernel

/-- V-LZ-E8 (R226, R240): a zero after a match. -/
theorem test_lz_enc_zero_after_a_match :
    lzEncode (List.replicate 16 0x41 ++ [0x00] ++ List.replicate 16 0x41) =
      [0x00, 0x41, 0x01, 0x00, 0x01, 0x0F, 0x00, 0x01, 0x00, 0x11, 0x0F, 0x41] := by
  decide +kernel

/-- V-LZ-D4 (R236) and V-LZ-D6 (R235). -/
theorem test_lz_dec_overlapping_copy :
    (lzDecode 4100 [0x00, 0x61, 0x00, 0x62, 0x01, 0x00, 0x02, 0x05, 0x63]).toOption =
      some [0x61, 0x62, 0x61, 0x62, 0x61, 0x62, 0x61, 0x63] ∧
    (lzDecode 4100 [0x00, 0x41, 0x01, 0x00, 0x01, 0x14, 0x00]).toOption = some (List.replicate 21 0x41) := by
  decide +kernel

/-- V-LZ-E3 (R235). -/
theorem test_lz_dec_distance_before_the_output :
    (ran small [0x01, 0x00, 0x01, 0x03, 0x41] 0x00000203).status = 0x00000302 ∧
    (ran small [0x01, 0x00, 0x01, 0x03, 0x41] 0x00000203).algTag = 2 := by
  decide +kernel

/-- V-DSP-7 (R356): the unsupported selector is reported before the length. -/
theorem test_unsup_enc_before_the_length :
    (after (step ({ State.reset with params := small, inLen := 4097 }.placeCommand 0x00000701))).status = 0x00000102 := by
  decide +kernel

/-- V-DSP-5 (R330). -/
theorem test_unsup_dec_registers :
    (ran small [0x41, 0x42] 0x0000FF03).status = 0x00000102 ∧ (ran small [0x41, 0x42] 0x0000FF03).algTag = 0xFF := by
  decide +kernel

/-! ### The host bus and the engine -/

/-- R61, R62, R63, R69: the last byte of IN, the first address past it, a word of IN, and a register at an odd address. -/
theorem test_bus_classifies_accesses :
    (loaded tiny [0x41]).readBus 0x10000000 1 = .value 0x41 ∧ (loaded tiny [0x41]).readBus 0x10000001 1 = .refused ∧
    (loaded tiny [0x41]).readBus 0x10000000 4 = .refused ∧ (loaded tiny [0x41]).readBus 0x00000006 4 = .refused := by
  decide +kernel

/-- R68: a START over an input byte not written sets REFUSED. -/
theorem test_start_over_unwritten_input_is_refused :
    (after (step ({ State.reset with params := small, inLen := 1 }.placeCommand 0x00000301))).refused = false ∧
    (after (step ({ State.reset with params := small, inLen := 1 }.placeCommand 0x00000101))).refused = true := by
  decide +kernel

/-- R331, R323: the engine's own step completes the latched operation when its time has come. -/
theorem test_engine_completes_later :
    (after (step { busyState with wait := 0, algL := 0x07 })).status = 0x00000102 ∧
    (after (step { busyState with wait := 0, algL := 0x07 })).algTag = 7 := by
  decide +kernel

/-! ### Witnesses: the hypotheses of each statement can be met -/

theorem small_legal : small.Legal ∧ tiny.Legal := by decide

/-- A string of the largest length P_MAX_IN = 1 and the empty string are loaded inputs. -/
theorem loaded_holds : (loaded tiny [0x41]).HoldsInput [0x41] ∧ (loaded tiny []).HoldsInput [] := by
  refine ⟨⟨rfl, by decide, fun i hi => ?_⟩, ⟨rfl, by decide, fun i hi => absurd hi (Nat.not_lt_zero i)⟩⟩
  match i, hi with
  | 0, _ => rfl

theorem loaded_ready : (loaded tiny [0x41]).Ready ∧ (loaded tiny []).Ready := ⟨⟨rfl, rfl⟩, ⟨rfl, rfl⟩⟩

theorem start_commands : IsStart .hufEnc ∧ IsStart (.unsupEnc 0x03) ∧ IsStart (.unsupDec 0xFF) := by
  refine ⟨⟨rfl, by decide⟩, ⟨rfl, by decide⟩, ⟨rfl, by decide⟩⟩

theorem witness_CommandMapDecodes :
    (0xFFFFFFFE : Word) &&& 0x00000001 = 0x00000000 ∧ (0xFFFF00FD : Word) &&& 0x0000FF03 = 0x00000001 ∧
    (0xFFFF00FF : Word) &&& 0x0000FF03 = 0x00000003 ∧ (0xFFFF01FD : Word) &&& 0x0000FF03 = 0x00000101 ∧
    (0xFFFF01FF : Word) &&& 0x0000FF03 = 0x00000103 ∧ (0xFFFF02FD : Word) &&& 0x0000FF03 = 0x00000201 ∧
    (0xFFFF02FF : Word) &&& 0x0000FF03 = 0x00000203 ∧
    ((0x00000301 : Word) &&& 0x00000003 = 0x00000001 ∧ 3 ≤ ((0x00000301 : Word).extractLsb' 8 8).toNat) ∧
    ((0xFFFFFFFF : Word) &&& 0x00000003 = 0x00000003 ∧ 3 ≤ ((0xFFFFFFFF : Word).extractLsb' 8 8).toNat) := by decide

theorem witness_DecodeEncodeAgree : (Instr.unsupDec 0x03).wf = true ∧ (Instr.lzDec).wf = true := by decide

/-- While IDLE, and during an operation. -/
theorem witness_ResetGivesTheResetValues :
    State.Serves { State.reset with pending := [.reset] } .reset ∧
    State.Serves { busyState with wait := 1, pending := [.reset] } .reset :=
  ⟨⟨.inl rfl, [], rfl⟩, ⟨.inr (by decide), [], rfl⟩⟩

theorem witness_AcceptedStartLatches :
    IsStart .hufEnc ∧ State.seq { loaded small [0x41] with schedule := [1] } = .idle ∧
    (State.schedule { loaded small [0x41] with schedule := [1] }).headD 0 ≠ 0 := ⟨start_commands.1, rfl, by decide⟩

theorem witness_StartWhileBusyIgnored :
    busyState.seq = .busy ∧ Instr.lzEnc ≠ .nop ∧ (0x00000201 : Word).getLsbD 0 = true := ⟨rfl, by decide, by decide⟩

theorem witness_NopChangesNothing : (0xFFFFFFFE : Word).getLsbD 0 = false := by decide

/-- The second clause's two cases: its accesses have passed, or the host has none left. -/
theorem witness_EveryCommandCompletes :
    (IsStart (.unsupDec 0xFF) ∧ (loaded tiny [0x41]).Ready) ∧
    (State.seq { busyState with wait := 0 } = .busy ∧ State.wait { busyState with wait := 0 } = 0) ∧
    (busyState.seq = .busy ∧ busyState.pending = []) :=
  ⟨⟨start_commands.2.2, loaded_ready.1⟩, ⟨rfl, rfl⟩, ⟨rfl, rfl⟩⟩

/-- The hypotheses of the six coders' completions, at the shortest and the longest input. -/
theorem coder_inputs :
    ((loaded tiny [0x41]).params.Legal ∧ (loaded tiny [0x41]).Ready ∧ (loaded tiny [0x41]).HoldsInput [0x41]) ∧
    ((loaded tiny []).params.Legal ∧ (loaded tiny []).Ready ∧ (loaded tiny []).HoldsInput []) :=
  ⟨⟨small_legal.2, loaded_ready.1, loaded_holds.1⟩, ⟨small_legal.2, loaded_ready.2, loaded_holds.2⟩⟩

theorem witness_HufEncCompletes : ∃ (s : State) (inp : List Byte), s.params.Legal ∧ s.Ready ∧ s.HoldsInput inp :=
  ⟨_, _, coder_inputs.1⟩

theorem witness_RleEncCompletes : ∃ (s : State) (inp : List Byte), s.params.Legal ∧ s.Ready ∧ s.HoldsInput inp :=
  ⟨_, _, coder_inputs.1⟩

theorem witness_LzEncCompletes : ∃ (s : State) (inp : List Byte), s.params.Legal ∧ s.Ready ∧ s.HoldsInput inp :=
  ⟨_, _, coder_inputs.2⟩

theorem witness_HufDecCompletes : ∃ (s : State) (inp : List Byte), s.params.Legal ∧ s.Ready ∧ s.HoldsInput inp :=
  ⟨_, _, coder_inputs.1⟩

theorem witness_RleDecCompletes : ∃ (s : State) (inp : List Byte), s.params.Legal ∧ s.Ready ∧ s.HoldsInput inp :=
  ⟨_, _, coder_inputs.1⟩

theorem witness_LzDecCompletes : ∃ (s : State) (inp : List Byte), s.params.Legal ∧ s.Ready ∧ s.HoldsInput inp :=
  ⟨_, _, coder_inputs.2⟩

theorem witness_UnsupportedCompletes :
    (3 ≤ (0x03 : Byte).toNat ∧ 3 ≤ (0xFF : Byte).toNat) ∧ (loaded tiny [0x41]).Ready := ⟨by decide, loaded_ready.1⟩

theorem witness_LongInputFails :
    HasCoder .rleDec ∧ State.Ready { loaded tiny [] with inLen := 2 } ∧
    (State.params { loaded tiny [] with inLen := 2 }).maxIn < (State.inLen { loaded tiny [] with inLen := 2 }).toNat :=
  ⟨.inr (.inr (.inr (.inl rfl))), ⟨rfl, rfl⟩, by decide⟩

theorem witness_CommandFrame : (loaded tiny [0x41]).params.Legal ∧ ∃ t, exec .hufEnc (loaded tiny [0x41]) = .next t :=
  ⟨small_legal.2, _, rfl⟩

theorem witness_GuardSaturates :
    IsCompress .lzEnc ∧ (loaded tiny [0x41]).params.Legal ∧ (loaded tiny [0x41]).params.guardMode = .saturate ∧
    (loaded tiny [0x41]).Ready ∧ (loaded tiny [0x41]).HoldsInput [0x41] :=
  ⟨.inr (.inr rfl), small_legal.2, rfl, loaded_ready.1, loaded_holds.1⟩

/-- Steps of both kinds: an access without a meaning, and one with. -/
theorem witness_RefusedMarkedExactly :
    (∃ t, step { State.reset with pending := [.read 0x50000000 1] } = .next t) ∧
    (∃ t, step { State.reset with pending := [.read 0x00000004 4] } = .next t) := ⟨⟨_, rfl⟩, ⟨_, rfl⟩⟩

/-- A step of each of the four cases. -/
theorem witness_FlagsChangeOnlyByThreeEvents :
    (∃ t, step State.reset = .next t) ∧ (∃ t, step ((loaded tiny [0x41]).placeCommand 0x00000101) = .next t) ∧
    (∃ t, step { busyState with wait := 0 } = .next t) ∧ (∃ t, step { busyState with pending := [.reset] } = .next t) :=
  ⟨⟨_, rfl⟩, ⟨_, rfl⟩, ⟨_, rfl⟩, ⟨_, rfl⟩⟩

/-- A finished block (IDLE, DONE = 1) whose host fetches OUT. -/
def fetching : State := { loaded small [0x41] with done := true, outLen := 1, mem := [(0x30000000, 0x41)], pending := [fetchOut] }

/-- A read during an operation, and a fetch of a finished operation's output. -/
theorem witness_ResultsChangeOnlyAtCompletion :
    ((∃ t, step { busyState with pending := [rd32 0x10] } = .next t) ∧
      ¬ State.Serves { busyState with pending := [rd32 0x10] } .reset ∧
      ¬ State.CompletionDue { busyState with pending := [rd32 0x10] } ∧
      ¬ (State.Ready { busyState with pending := [rd32 0x10] } ∧
        State.ServesStart { busyState with pending := [rd32 0x10] })) ∧
    ((∃ t, step fetching = .next t) ∧ ¬ fetching.Serves .reset ∧ ¬ fetching.CompletionDue ∧
      ¬ (fetching.Ready ∧ fetching.ServesStart) ∧ ¬ (fetching.seq = .idle ∧ fetching.ServesStart) ∧
      fetching.params.Legal ∧ fetching.done = true) := by
  have started : ¬ fetching.ServesStart := by
    rintro ⟨a, ⟨-, rest, h⟩, w, rfl, -⟩
    cases h
  refine ⟨⟨⟨_, rfl⟩, ?_, ?_, ?_⟩, ⟨⟨_, rfl⟩, ?_, ?_, fun h => started h.2, fun h => started h.2, small_legal.1, rfl⟩⟩
  · rintro ⟨-, rest, h⟩; cases h
  · rintro ⟨-, h | h⟩ <;> cases h
  · rintro ⟨⟨h, -⟩, -⟩; cases h
  · rintro ⟨-, rest, h⟩; cases h
  · rintro ⟨h, -⟩; cases h

/-- A state with a written input byte meets the invariant, and it steps. -/
theorem witness_StepKeepsInvariant :
    (loaded tiny [0x41]).Inv ∧ ∃ t, step (loaded tiny [0x41]) = .next t := by
  refine ⟨?_, ⟨_, rfl⟩⟩
  have hc : ∀ c ∈ (loaded tiny [0x41]).mem, targetOf tiny c.1 = .buf .inp 0 := by
    intro c h
    rcases List.mem_singleton.mp h with rfl
    decide
  constructor
  · exact small_legal.2
  · exact cellsFrom_wf _ _
  · exact fun c h => ⟨.inp, 0, hc c h⟩
  · exact fun c h i hi => by cases (hc c h).symm.trans hi
  · exact fun c h i hi => by cases (hc c h).symm.trans hi
  · decide
  · decide
  · exact fun h => by cases h
  · decide
  · exact fun h => absurd rfl h
  · decide
  · decide
  · decide

theorem witness_OperationsTerminate :
    State.seq { busyState with pending := [rd32 0x04, rd32 0x04, rd32 0x04] } = .busy ∧
    HostAccess.reset ∉ State.pending { busyState with pending := [rd32 0x04, rd32 0x04, rd32 0x04] } := by decide

/-- IDLE, and BUSY with an access to pass. -/
theorem witness_StepRunsTheDecodedCommand :
    (State.pending { loaded tiny [0x41] with pending := [writeCmd 0x00000101] } = writeCmd 0x00000101 :: [] ∧
      State.seq { loaded tiny [0x41] with pending := [writeCmd 0x00000101] } = .idle) ∧
    (State.pending { busyState with pending := [writeCmd 0x00000101] } = writeCmd 0x00000101 :: [] ∧
      State.seq { busyState with pending := [writeCmd 0x00000101] } = .busy ∧
      State.wait { busyState with pending := [writeCmd 0x00000101] } = 1 + 1) := ⟨⟨rfl, rfl⟩, ⟨rfl, rfl, rfl⟩⟩

theorem witness_LaterCompletionGivesTheSame :
    IsStart .hufEnc ∧ (loaded tiny [0x41]).seq = .idle ∧ State.seq { State.reset with inLen := 1 } = .idle :=
  ⟨start_commands.1, rfl, rfl⟩

/-- Over a written input; and the two kinds of operation that read none: an unsupported ALG, and a long input. -/
theorem witness_HostCannotDisturbAnOperation :
    (busyState.seq = .busy ∧ busyState.params.Legal ∧ wrb .inp 0 0x55 ≠ .reset ∧
      (busyState.algL.toNat < 3 → busyState.nL.toNat ≤ busyState.params.maxIn →
        ∀ i, i < busyState.nL.toNat → busyState.bufByte .inp i ≠ none) ∧
      ∃ t, busyState.serve (wrb .inp 0 0x55) = .next t) ∧
    ¬ (State.algL { busyState with algL := 0x03 }).toNat < 3 ∧
    ¬ (State.nL { busyState with nL := 4097 }).toNat ≤ busyState.params.maxIn := by
  refine ⟨⟨rfl, small_legal.1, by decide, fun _ _ i hi => ?_, ⟨_, rfl⟩⟩, by decide, by decide⟩
  have h0 : i < 1 := hi
  match i, h0 with
  | 0, _ => decide

/-- Two states with the same input and different AUX_IN_LEN and results; an input too long to be read; and a command that
reads none. -/
theorem witness_ResultsAreAFunctionOfTheInput :
    (IsStart .hufEnc ∧ (loaded tiny [0x41]).params.Legal ∧
      State.params { loaded tiny [0x41] with auxInLen := 9, outLen := 4 } = (loaded tiny [0x41]).params ∧
      (loaded tiny [0x41]).Ready ∧ State.Ready { loaded tiny [0x41] with auxInLen := 9, outLen := 4 } ∧
      State.inLen { loaded tiny [0x41] with auxInLen := 9, outLen := 4 } = (loaded tiny [0x41]).inLen ∧
      (HasCoder .hufEnc → (loaded tiny [0x41]).inLen.toNat ≤ (loaded tiny [0x41]).params.maxIn →
        ∀ j, j < (loaded tiny [0x41]).inLen.toNat → (loaded tiny [0x41]).bufByte .inp j ≠ none ∧
          State.bufByte { loaded tiny [0x41] with auxInLen := 9, outLen := 4 } .inp j =
            (loaded tiny [0x41]).bufByte .inp j)) ∧
    (State.params { loaded tiny [] with inLen := 2 }).maxIn < (State.inLen { loaded tiny [] with inLen := 2 }).toNat ∧
    ¬ HasCoder (.unsupEnc 0x03) := by
  refine ⟨⟨start_commands.1, small_legal.2, rfl, loaded_ready.1, ⟨rfl, rfl⟩, rfl, fun _ _ j hj => ⟨?_, rfl⟩⟩,
    by decide, by unfold HasCoder; decide⟩
  have h0 : j < 1 := hj
  match j, h0 with
  | 0, _ => decide

/-- Legal parameters, and an access that is not legal: the first address past IN. -/
theorem witness_IllegalAccessesAreRefused :
    (loaded tiny [0x41]).params.Legal ∧ ¬ LegalAccess tiny (0x10000001 : Word).toNat 1 := by
  refine ⟨small_legal.2, ?_⟩
  unfold LegalAccess
  decide

theorem witness_ReadsAndReadOnlyWritesHaveNoEffect :
    (∃ t, (loaded tiny [0x41]).serve (.read 0x10000000 1) = .next t) ∧
    (4 ≤ 0x04 ∧ 0x04 < 0x1000 ∧ 0x04 % 4 = 0 ∧ 0x04 ≠ 0x08 ∧ 0x04 ≠ 0x0C) ∧
    (4 ≤ 0xFFC ∧ 0xFFC < 0x1000 ∧ 0xFFC % 4 = 0 ∧ 0xFFC ≠ 0x08 ∧ 0xFFC ≠ 0x0C) ∧
    (loaded tiny [0x41]).params.Legal ∧ 4 < (loaded tiny [0x41]).params.maxOut ∧
    766 < (loaded tiny [0x41]).params.maxAux :=
  ⟨⟨_, rfl⟩, by decide, by decide, small_legal.2, by decide, by decide⟩

theorem witness_RegisterFileReads :
    (0x34 ≤ 0x34 ∧ 0x34 ≤ 0xFFC ∧ 0x34 % 4 = 0) ∧ (0x34 ≤ 0xFFC ∧ 0xFFC ≤ 0xFFC ∧ 0xFFC % 4 = 0) := by decide

theorem witness_LengthRegistersAreWritable : (loaded tiny []).seq = .idle ∧ busyState.seq = .busy := ⟨rfl, rfl⟩

theorem witness_WrittenBytesAreReadBack :
    (loaded tiny []).params.Legal ∧ (loaded tiny []).seq = .idle ∧ 0 < (loaded tiny []).params.maxIn ∧
    766 < (loaded tiny []).params.maxAux := ⟨small_legal.2, rfl, by decide, by decide⟩

theorem witness_AccessesWhileBusy :
    busyState.params.Legal ∧ busyState.seq = .busy ∧ 4095 < busyState.params.maxIn ∧ 766 < busyState.params.maxAux ∧
    4099 < busyState.params.maxOut ∧ busyState.bufByte .inp 0 = some 0x41 ∧
    State.bufByte { busyState with mem := [(0x20000000, 0x42)] } .auxIn 0 = some 0x42 ∧
    ∃ t, busyState.serve (rd32 0x10) = .next t ∧ rd32 0x10 ≠ .reset :=
  ⟨small_legal.1, rfl, by decide, by decide, by decide, rfl, rfl, _, rfl, by decide⟩

/-- A machine that reports one byte of OUT and one of AUX_OUT. -/
def reporting : State :=
  { loaded tiny [] with outLen := 1, auxOutLen := 1, mem := [(0x30000000, 0x41), (0x40000000, 0x42)] }

theorem witness_UnspecifiedBytesAreDrawn :
    reporting.params.Legal ∧ (1 < reporting.params.maxOut ∧ reporting.outLen.toNat ≤ 1) ∧
    (1 < reporting.params.maxAux ∧ reporting.auxOutLen.toNat ≤ 1) ∧
    (0 < reporting.params.maxIn ∧ reporting.bufByte .inp 0 = none) ∧ reporting.bufByte .auxIn 0 = none ∧
    reporting.bufByte .out 1 = none ∧ reporting.bufByte .auxOut 1 = none ∧
    (reporting.seq = .idle ∧ 0 < reporting.outLen.toNat ∧ reporting.bufByte .out 0 = some 0x41) ∧
    (0 < reporting.auxOutLen.toNat ∧ reporting.bufByte .auxOut 0 = some 0x42) ∧
    reporting.readBus 0x10000000 1 = .unspecified := by decide +kernel

theorem witness_PackedBitsAreMsbFirst : 15 < 8 * [(0xB3 : Byte), 0x80].length := by decide

theorem witness_FrequencyTable : [(0x41 : Byte)] ≠ [] := by decide

theorem witness_SelectionTakesTheFirst :
    (([⟨2, 0, 0, .leaf 0x41⟩, ⟨2, 0, 1, .leaf 0x42⟩] : List PoolNode).map PoolNode.seq).Nodup ∧
    (∀ n ∈ ([⟨2, 0, 0, .leaf 0x41⟩, ⟨2, 0, 1, .leaf 0x42⟩] : List PoolNode), n.rank = 0) := by decide

theorem witness_MergeJoinsTheFirstTwo :
    (([⟨1, 0, 0, .leaf 0x41⟩, ⟨2, 0, 1, .leaf 0x42⟩, ⟨1, 0, 2, .leaf 0x43⟩] : List PoolNode).map PoolNode.seq).Nodup ∧
    (∀ n ∈ ([⟨1, 0, 0, .leaf 0x41⟩, ⟨2, 0, 1, .leaf 0x42⟩, ⟨1, 0, 2, .leaf 0x43⟩] : List PoolNode), n.rank = 0) := by decide

theorem witness_TreeOfAnInput :
    leaves (creationOrder []) [0x42, 0x41, 0x42] = ⟨1, 0, 0, .leaf 0x41⟩ :: ⟨2, 0, 1, .leaf 0x42⟩ :: [] ∧
    leaves (reversedOrder []) [0x42, 0x41, 0x42] = ⟨1, 1, 0, .leaf 0x41⟩ :: ⟨2, 0, 1, .leaf 0x42⟩ :: [] := by
  decide +kernel

theorem witness_CodesLeadToTheirLeaves :
    leaves (creationOrder []) [0x42, 0x41, 0x42] = ⟨1, 0, 0, .leaf 0x41⟩ :: ⟨2, 0, 1, .leaf 0x42⟩ :: [] ∧
    0 < ([0x42, 0x41, 0x42] : List Byte).count 0x41 ∧
    ([] <+: codeOf (codeTable (.node (.leaf 0x41) (.leaf 0x42))) 0x41 ∧
      [] ≠ codeOf (codeTable (.node (.leaf 0x41) (.leaf 0x42))) 0x41) := by decide +kernel

theorem witness_SerializedTreesParseBack :
    (serialize (.leaf 0x41)).length ≤ 2 ∧ [(0x01 : Byte)] <+: serialize (.leaf 0x41) ∧
    [(0x01 : Byte)] ≠ serialize (.leaf 0x41) := by decide

/-- A single-symbol input, a fallback and a general container (V-HUF-4, V-HUF-8 in short). -/
theorem witness_TreeEncoderPaths :
    1 ≤ 1 ∧ (0x41 : Byte) ∈ [(0x41 : Byte), 0x42] ∧ (0x42 : Byte) ∈ [(0x41 : Byte), 0x42] ∧ (0x41 : Byte) ≠ 0x42 ∧
    [(0x41 : Byte), 0x42].length ≤
      (pack (payloadBits (.node (.leaf 0x41) (.leaf 0x42)) [0x41, 0x42])).length +
        (serialize (.node (.leaf 0x41) (.leaf 0x42))).length + 4 ∧
    (pack (payloadBits (.node (.leaf 0x42) (.leaf 0x41)) (List.replicate 20 0x41 ++ [0x42]))).length +
        (serialize (.node (.leaf 0x42) (.leaf 0x41))).length + 4 <
      (List.replicate 20 (0x41 : Byte) ++ [0x42]).length := by decide +kernel

/-- Each of the four cases, the last with a general container. -/
theorem witness_TreeCoderRoundTrip :
    ([0x41] : List Byte).length ≤ 1 ∧ ([0x41] : List Byte) = List.replicate 1 0x41 ∧ 1 < 2 ^ 24 ∧
    (hufEncode creationOrder [0x41, 0x42]).1 = 0xFE :: [0x41, 0x42] ∧
    (hufEncode creationOrder (List.replicate 20 0x41 ++ [0x42])).1.head? = some 0x00 ∧
    (List.replicate 20 (0x41 : Byte) ++ [0x42]).length < 65536 ∧
    (presentEntries (List.replicate 20 0x41 ++ [0x42])).length ≤ 85 := by decide +kernel

/-- 86 values, one of them often enough that the container is a general one. -/
def manyValues : List Byte := (List.range 86).map (fun v => BitVec.ofNat 8 v) ++ List.replicate 320 0x05

theorem witness_TreeCoderBeyondItsDomain :
    1 ≤ 2 ^ 24 + 1 ∧ (2 ^ 24 + 1) % 2 ^ 24 ≤ 1 ∧ (hufEncode creationOrder manyValues).2 ≠ [] ∧
    86 ≤ (presentEntries manyValues).length ∧ (hufEncode creationOrder (List.replicate 20 0x41 ++ [0x42])).2 ≠ [] ∧
    (presentEntries (List.replicate 20 0x41 ++ [0x42])).length ≤ 85 ∧
    (List.replicate 20 (0x41 : Byte) ++ [0x42]).length % 65536 ≤ 21 := by decide +kernel

theorem witness_AnyTreeContainerDecodes :
    (∀ b ∈ [(0x41 : Byte), 0x42], b ∈ (CodeTree.node (.leaf 0x42) (.leaf 0x41)).values) ∧
    (serialize (.node (.leaf 0x42) (.leaf 0x41))).length + [(0x09 : Byte)].length ≤ 255 ∧
    [(0x41 : Byte), 0x42].length < 65536 ∧ [(0x41 : Byte), 0x42].length ≤ 2 := by decide

theorem witness_TreeContainerTags :
    ((0x01 : Byte) ≠ 0x00 ∧ (0x01 : Byte) ≠ 0xFE ∧ (0x01 : Byte) ≠ 0xFF) ∧
    ((0xFD : Byte) ≠ 0x00 ∧ (0xFD : Byte) ≠ 0xFE ∧ (0xFD : Byte) ≠ 0xFF) ∧ [(0x41 : Byte), 0x00, 0x00].length < 4 ∧
    [(0x05 : Byte), 0x00].length < 3 ∧ [(0x00 : Byte)].length < (0x05 : Byte).toNat := by decide

/-- At position 1 of "AAA" the match has distance 1 and runs to the end. -/
theorem witness_SearchFindsTheFarthestLongest :
    1 < ([0x41, 0x41, 0x41] : List Byte).length ∧ findMatch [0x41, 0x41, 0x41] 1 (List.drop 1 [0x41, 0x41, 0x41]) = (2, 1) ∧
    1 ≤ 1 ∧ 1 ≤ min 1 1024 ∧ 2 ≤ min 15 (3 - 1) ∧ MatchesFor [0x41, 0x41, 0x41] (1 - 1) 1 2 := by
  refine ⟨by decide, by decide, by decide, by decide, by decide, by decide, fun j hj => ?_⟩
  match j, hj with
  | 0, _ => rfl
  | 1, _ => rfl

/-- A match found at the cursor that reaches the end of the input, and none. -/
theorem witness_WindowStreamBounds :
    (List.replicate 5 (0x41 : Byte))[1]? = some 0x41 ∧
    (findMatch (List.replicate 5 0x41) 1 ((List.replicate 5 0x41).drop 1) = (4, 1) ∧ 3 ≤ 4) ∧
    (List.replicate 5 (0x41 : Byte))[0]? = some 0x41 ∧
    (findMatch (List.replicate 5 0x41) 0 ((List.replicate 5 0x41).drop 0) = (0, 0) ∧ 0 < 3) ∧
    (List.replicate 5 (0x41 : Byte)).length ≤ 6 ∧ [(0x41 : Byte)] ≠ [] := by decide

/-- Both cases of the first clause, and V-LZ-E8's input, which the second is about. -/
theorem witness_WindowCoderRoundTrip :
    ([0x41] : List Byte).length ≤ 1 ∧ lzEncode [0x41] = 0xFF :: [0x41] ∧
    lzLosesNul (List.replicate 10 0x41) = false ∧ lzEncode (List.replicate 10 0x41) ≠ 0xFF :: List.replicate 10 0x41 ∧
    lzLosesNul (List.replicate 16 0x41 ++ [0x00] ++ List.replicate 16 0x41) = true ∧
    lzEncode (List.replicate 16 0x41 ++ [0x00] ++ List.replicate 16 0x41) ≠
      0xFF :: (List.replicate 16 0x41 ++ [0x00] ++ List.replicate 16 0x41) := by decide +kernel

/-- A copy that just fits, and one that is a byte too long. -/
theorem witness_CopyIsByteByByte :
    (∃ o', (⟨1, [0x41]⟩ : Output).len = (⟨1, [0x41]⟩ : Output).rev.length ∧ 1 ≤ 1 ∧ 1 ≤ (⟨1, [0x41]⟩ : Output).len ∧
      (⟨1, [0x41]⟩ : Output).copyBack 4 1 3 = .ok o') ∧
    (⟨1, [0x41]⟩ : Output).len + 3 ≤ 4 ∧ ((⟨1, [0x41]⟩ : Output).len ≤ 4 ∧ 4 < (⟨1, [0x41]⟩ : Output).len + 4) :=
  ⟨⟨_, rfl, by decide, by decide, rfl⟩, by decide, by decide⟩

/-- A boundary of each clause's range, with the output "A". -/
theorem witness_WindowDecoderTokens :
    (0x00 : Byte) ≠ 0xFF ∧ 2 ≤ BitVec.toNat (0x02 : Byte) ∧ (⟨1, [0x41]⟩ : Output).len < 5 ∧ [(0x00 : Byte), 0x01, 0x03].length < 4 ∧
    (0x00 : Byte).toNat * 256 + (0x00 : Byte).toNat = 0 ∧
    (⟨1, [0x41]⟩ : Output).len < (0x00 : Byte).toNat * 256 + (0x02 : Byte).toNat ∧
    (1 ≤ (0x00 : Byte).toNat * 256 + (0x01 : Byte).toNat ∧
      (0x00 : Byte).toNat * 256 + (0x01 : Byte).toNat ≤ (⟨1, [0x41]⟩ : Output).len) ∧
    (∃ o', (⟨1, [0x41]⟩ : Output).copyBack 5 ((0x00 : Byte).toNat * 256 + (0x01 : Byte).toNat) (0x03 : Byte).toNat = .ok o' ∧
      o'.len < 5) ∧
    1 ≤ (⟨1, [0x41]⟩ : Output).len ∧ 4 < (⟨1, [0x41]⟩ : Output).len + (0x04 : Byte).toNat ∧
    (4 = (⟨1, [0x41]⟩ : Output).len + (0x03 : Byte).toNat ∧ (0x42 : Byte) ≠ 0x00) :=
  ⟨by decide, by decide, by decide, by decide, by decide, by decide, by decide, ⟨_, rfl, by decide⟩, by decide, by decide,
    by decide⟩

/-- A cut run and a run that another byte or the end stops. -/
theorem witness_RunsAreEncoded :
    (1 ≤ 255 ∧ 255 ≤ 255 ∧ (255 = 255 ∨ [(0x41 : Byte)].head? ≠ some 0x41)) ∧
    (1 ≤ 1 ∧ 1 ≤ 255 ∧ (1 = 255 ∨ ([] : List Byte).head? ≠ some 0x41)) ∧
    (1 ≤ 2 ∧ 2 ≤ 255 ∧ (2 = 255 ∨ [(0x42 : Byte)].head? ≠ some 0x00)) ∧
    (List.replicate 3 (0x41 : Byte) ≠ [] ∧
      (List.replicate 3 (0x41 : Byte)).length ≤ (rleTokens .escape (List.replicate 3 0x41)).length) ∧
    (rleTokens .escape (List.replicate 4 0x41)).length < (List.replicate 4 (0x41 : Byte)).length := by decide

/-- Each case: the fallback, another first byte, a run record of 0xFF, and V-RLE-E8's input, which meets none. -/
theorem witness_RunCoderRoundTrip :
    rleEncode .escape [0xFF] = 0xFF :: [0xFF] ∧ (List.replicate 4 (0x41 : Byte)).head? ≠ some 0xFF ∧
    (∃ rest, List.replicate 4 (0xFF : Byte) = 0xFF :: 0xFF :: 0xFF :: rest) ∧
    rleEncode .escape (0xFF :: List.replicate 10 0x03) ≠ 0xFF :: 0xFF :: List.replicate 10 0x03 ∧
    (0xFF :: List.replicate 10 (0x03 : Byte)).head? = some 0xFF ∧
    ¬ ∃ rest, 0xFF :: List.replicate 10 (0x03 : Byte) = 0xFF :: 0xFF :: 0xFF :: rest := by
  refine ⟨by decide, by decide, ⟨_, rfl⟩, by decide, rfl, ?_⟩
  rintro ⟨rest, h⟩
  cases h

/-- Each clause's boundary, with the output "A" and room for one more byte, or for none. -/
theorem witness_RunDecoderRecords :
    (0x05 : Byte) ≠ 0xFF ∧ (⟨1, [0x41]⟩ : Output).len = (⟨1, [0x41]⟩ : Output).rev.length ∧ [(0x05 : Byte)].length < 2 ∧
    ((0x01 : Byte) ≠ 0x00 ∧ (⟨1, [0x41]⟩ : Output).len + (0x01 : Byte).toNat ≤ 2) ∧
    ((⟨1, [0x41]⟩ : Output).len ≤ 1 ∧ 1 < (⟨1, [0x41]⟩ : Output).len + (0x01 : Byte).toNat) ∧
    ((⟨1, [0x41]⟩ : Output).len < 2) ∧ ((0x41 : Byte) ≠ 0x00 ∧ 1 ≤ (⟨1, [0x41]⟩ : Output).len) := by decide

/-- Each error; a region that ends early, one with a bad tag, a region of one leaf, and a payload byte 0x80 under the tree
(A, B): the code of B and bits that go on, which asks for one byte more than it holds, or holds more than fit. -/
theorem witness_DecoderErrorKinds :
    (hufDecode 5 [0x01] = .error .malformedInput ∧ lzDecode 5 [0x00] = .error .malformedInput ∧
      rleDecode 5 [0x00] = .error .malformedInput) ∧
    (0 < missingNodes 1 [none, some 0x41] ∧ ([none, some 0x41].flatMap nodeRecord ++ [0x01]).length = (0x04 : Byte).toNat) ∧
    (0 < missingNodes 1 [] ∧ 2 ≤ (0x02 : Byte).toNat) ∧ (serialize (.leaf 0x41) ++ []).length = (0x02 : Byte).toNat ∧
    ((serialize (.node (.leaf 0x41) (.leaf 0x42)) ++ []).length = (0x05 : Byte).toNat ∧
      unpack [0x80] = payloadBits (.node (.leaf 0x41) (.leaf 0x42)) (0x42 :: List.replicate 7 0x41) ++ [] ∧
      (0x42 :: List.replicate 7 (0x41 : Byte)).length < (0x00 : Byte).toNat * 256 + (0x09 : Byte).toNat ∧
      (0x42 :: List.replicate 7 (0x41 : Byte)).length ≤ 8 ∧ 7 < (0x42 :: List.replicate 7 (0x41 : Byte)).length) ∧
    ∃ l r, ([] : List Bool).foldl CodeTree.child (.node (.leaf 0x41) (.leaf 0x42)) = .node l r :=
  ⟨⟨rfl, rfl, rfl⟩, by decide, by decide, by decide, by decide, _, _, rfl⟩

/-- R183 and R186, worked from the rules: a bad node tag, an early end of the tree, and an early end of the payload. -/
theorem test_huf_dec_errors :
    hufDecode 5 [0x00, 0x01, 0x00, 0x01, 0x02, 0x00] = .error .malformedTree ∧
    hufDecode 5 [0x00, 0x03, 0x00, 0x01, 0x00, 0x01, 0x41, 0x00] = .error .malformedTree ∧
    hufDecode 50 [0x00, 0x05, 0x00, 0x09, 0x00, 0x01, 0x41, 0x01, 0x42, 0x80] = .error .malformedInput := ⟨rfl, rfl, rfl⟩

theorem witness_CompressOutputsFit : tiny.Legal ∧ ([0x41] : List Byte).length ≤ tiny.maxIn := by decide

end Sys2Proof.Tests
end

section
/-!
PROOF of O25, that every step keeps `State.Inv`. The auxiliary tree is at most 767 bytes because the merges keep the number of
leaves, at most 256. The invariant's clauses about memory go through `Memory.Proper`; the three completions, and then
every operation and every host access, keep the invariant.
-/

namespace Sys2Proof.Machine

/-! ### How large a serialized tree can be (43_dispatch R322, R324) -/

/-- A serialized tree is one byte short of three per leaf: two for each leaf, one for each merge. -/
theorem serialize_length (t : CodeTree) : (serialize t).length + 1 = 3 * t.leafCount := by
  induction t with
  | leaf v => rfl
  | node l r ihl ihr => simp only [serialize, CodeTree.leafCount, List.length_append, List.length_singleton]; omega

/-- The leaves of all the trees in the builder's set NODES. -/
def totalLeaves (pool : List PoolNode) : Nat := (pool.map (fun n => n.tree.leafCount)).sum

@[simp] theorem totalLeaves_cons (n : PoolNode) (pool : List PoolNode) :
    totalLeaves (n :: pool) = n.tree.leafCount + totalLeaves pool := by simp [totalLeaves]

theorem totalLeaves_perm {pool pool' : List PoolNode} (h : pool.Perm pool') : totalLeaves pool = totalLeaves pool' :=
  (h.map _).sum_eq

/-- Taking the first node of the selection order only reorders the set (40_huffman R153). -/
theorem takeFirst_perm (x : PoolNode) (ys : List PoolNode) :
    ((takeFirst x ys).1 :: (takeFirst x ys).2).Perm (x :: ys) := by
  induction ys generalizing x with
  | nil => exact .refl _
  | cons y ys ih =>
    rw [takeFirst]
    split
    · exact (List.Perm.swap _ _ _).trans ((ih y).cons x)
    · exact (List.Perm.swap _ _ _).trans (((ih x).cons y).trans (.swap _ _ _))

theorem mergeNodes_leafCount (c : TreeChoices) (seq : Nat) (a b : PoolNode) :
    (mergeNodes c seq a b).tree.leafCount = a.tree.leafCount + b.tree.leafCount := by
  unfold mergeNodes
  split
  · exact Nat.add_comm _ _
  · rfl

/-- The merges (40_huffman R154) keep every leaf, and one fewer of them than there are nodes leaves one tree (R155). -/
theorem mergeAll_leafCount (c : TreeChoices) (seq : Nat) (x : PoolNode) (rest : List PoolNode) :
    (mergeAll c rest.length seq x rest).tree.leafCount = totalLeaves (x :: rest) := by
  induction hk : rest.length generalizing seq x rest with
  | zero =>
    obtain rfl := List.length_eq_zero_iff.mp hk
    rfl
  | succ k ih =>
    cases rest with
    | nil => cases hk
    | cons y ys =>
      have first := takeFirst_perm x (y :: ys)
      rw [mergeAll]
      split
      next a h =>
        rw [h] at first
        simpa using first.length_eq
      next a z zs h =>
        rw [h] at first
        have second := takeFirst_perm z zs
        have hlen : (takeFirst z zs).2.length = k := by
          have h1 := first.length_eq
          have h2 := second.length_eq
          simp only [List.length_cons] at h1 h2 hk
          omega
        rw [ih _ _ _ hlen, ← totalLeaves_perm first, totalLeaves_cons, totalLeaves_cons, mergeNodes_leafCount,
          ← totalLeaves_perm second, totalLeaves_cons, Nat.add_assoc]

theorem buildTree_leafCount (c : TreeChoices) (x : PoolNode) (rest : List PoolNode) :
    (buildTree c x rest).leafCount = totalLeaves (x :: rest) := mergeAll_leafCount ..

/-- Each of the leaves of R152 is a tree of one leaf. -/
theorem totalLeaves_leaves (c : TreeChoices) (inp : List Byte) : totalLeaves (leaves c inp) = (presentEntries inp).length := by
  simp [totalLeaves, leaves, CodeTree.leafCount, Function.comp_def]

/-- There are at most as many leaves as byte values (40_huffman R151). -/
theorem presentEntries_length_le (inp : List Byte) : (presentEntries inp).length ≤ 256 :=
  (List.length_filter_le _ _).trans_eq (by simp [freqTable])

/-- An auxiliary tree is at most 3 * 256 - 1 bytes (43_dispatch R322). -/
theorem hufEncode_aux_le (order : TreePolicy) (inp : List Byte) : (hufEncode order inp).2.length ≤ 767 := by
  rcases hufEncode_cases order inp with ⟨-, h⟩ | ⟨v, -, h⟩ | ⟨x, y, rest, hl, h⟩
  · simp [h]
  · simp [h]
  · rw [h]
    rcases encodeWithTree_cases (buildTree (order inp) x (y :: rest)) inp with ⟨-, h2⟩ | ⟨-, h2⟩
    · simp [h2]
    · have hser := serialize_length (buildTree (order inp) x (y :: rest))
      have hk := presentEntries_length_le inp
      rw [buildTree_leafCount, ← hl, totalLeaves_leaves] at hser
      rw [h2]
      show (serialize _).length ≤ 767
      omega

/-! ### The invariant's clauses about memory -/

/-- The address may be listed where OUT_LEN and AUX_OUT_LEN have these values: a byte of a buffer, and below the reported
length in OUT and AUX_OUT. -/
def Listable (p : Params) (nOut nAux a : Nat) : Prop :=
  ∃ b i, targetOf p a = .buf b i ∧ (b = .out → i < nOut) ∧ (b = .auxOut → i < nAux)

/-- The four clauses of `State.Inv` about memory, in one. -/
structure Memory.Proper (p : Params) (nOut nAux : Nat) (m : Memory) : Prop where
  canonical : m.wf
  listable : ∀ c ∈ m, Listable p nOut nAux c.1

theorem State.Inv.memory {s : State} (h : s.Inv) : s.mem.Proper s.params s.outLen.toNat s.auxOutLen.toNat where
  canonical := h.canonical
  listable := fun c hc => by
    obtain ⟨b, i, hb⟩ := h.mapped c hc
    exact ⟨b, i, hb, fun e => h.outBelow c hc i (e ▸ hb), fun e => h.auxBelow c hc i (e ▸ hb)⟩

section
variable {p : Params} {nOut nAux : Nat} {m : Memory}

theorem Memory.Proper.mapped (h : m.Proper p nOut nAux) : ∀ c ∈ m, ∃ b i, targetOf p c.1 = .buf b i := fun c hc => by
  obtain ⟨b, i, hb, -⟩ := h.listable c hc
  exact ⟨b, i, hb⟩

theorem Memory.Proper.outBelow (h : m.Proper p nOut nAux) :
    ∀ c ∈ m, ∀ i, targetOf p c.1 = .buf .out i → i < nOut := fun c hc i hi => by
  obtain ⟨b, j, hb, hout, -⟩ := h.listable c hc
  cases hb.symm.trans hi
  exact hout rfl

theorem Memory.Proper.auxBelow (h : m.Proper p nOut nAux) :
    ∀ c ∈ m, ∀ i, targetOf p c.1 = .buf .auxOut i → i < nAux := fun c hc i hi => by
  obtain ⟨b, j, hb, -, haux⟩ := h.listable c hc
  cases hb.symm.trans hi
  exact haux rfl

/-- Storing a string keeps memory proper where each of its bytes may stand. -/
theorem Memory.Proper.writeRange (h : m.Proper p nOut nAux) {a : Nat} {bs : List Byte}
    (hbs : ∀ i, i < bs.length → Listable p nOut nAux (a + i)) : (m.writeRange a bs).Proper p nOut nAux where
  canonical := Memory.wf_writeRange h.canonical a bs
  listable := fun c hc => by
    rcases Memory.mem_writeRange hc with ⟨hm, -⟩ | ⟨h1, h2⟩
    · exact h.listable c hm
    · obtain ⟨i, hi⟩ := Nat.exists_eq_add_of_le h1
      exact hi ▸ hbs i (by omega)

theorem Memory.Proper.write (h : m.Proper p nOut nAux) {a : Nat} (ha : Listable p nOut nAux a) (v : Byte) :
    (m.write a v).Proper p nOut nAux :=
  h.writeRange fun i hi => by
    obtain rfl : i = 0 := by simpa using hi
    exact ha

/-- With the bytes of both output buffers unwritten, memory is proper whatever the reported lengths. -/
theorem Memory.Proper.clearOutputs (h : m.Proper p nOut nAux) (hp : p.Legal) (nOut' nAux' : Nat) :
    ((m.clearRange (Buffer.base .out) regionSpan).clearRange (Buffer.base .auxOut) regionSpan).Proper p nOut' nAux' where
  canonical := Memory.wf_clearRange (Memory.wf_clearRange h.canonical _ _) _ _
  listable := fun c hc => by
    obtain ⟨hc, haux⟩ := Memory.mem_clearRange.mp hc
    obtain ⟨hc, hout⟩ := Memory.mem_clearRange.mp hc
    obtain ⟨b, i, hb, -⟩ := h.listable c hc
    obtain ⟨hci, hi⟩ := targetOf_buf hb
    obtain ⟨-, -, -, hmaxOut, -, hmaxAux⟩ := hp
    have span := regionSpan_eq
    refine ⟨b, i, hb, ?_, ?_⟩
    · rintro rfl
      have : i < p.maxOut := hi
      omega
    · rintro rfl
      have : i < p.maxAux := hi
      omega

end

/-- A stored result leaves memory proper for its own lengths. -/
theorem State.Inv.memory_storeResult {s : State} (h : s.Inv) {c a : List Byte} (hc : c.length ≤ s.params.maxOut)
    (ha : a.length ≤ 767) : (s.storeResult c a).mem.Proper s.params c.length a.length := by
  obtain ⟨-, -, -, -, hmaxAux, -⟩ := h.legal
  rw [State.storeResult_mem]
  refine ((h.memory.clearOutputs h.legal c.length a.length).writeRange fun i hi => ?_).writeRange fun i hi => ?_
  · exact ⟨.out, i, targetOf_out h.legal (by omega), fun _ => hi, nofun⟩
  · exact ⟨.auxOut, i, targetOf_auxOut h.legal (by omega), nofun, fun _ => hi⟩

/-! ### Completion steps keep the invariant -/

/-- What is left to show of a state in which an operation has ended. -/
theorem OperationEnds.inv {s t : State} (ends : OperationEnds s t) (h : s.Inv)
    (memory : t.mem.Proper s.params t.outLen.toNat t.auxOutLen.toNat)
    (outFits : t.outLen.toNat ≤ s.params.maxOut) (auxFits : t.auxOutLen.toNat ≤ 767)
    (noOutput : t.err ≠ 0 → t.outLen = 0 ∧ t.auxOutLen = 0)
    (ratio : t.ratioDen ≠ 0 ∧ t.ratioNum.toNat ≤ t.ratioDen.toNat)
    (saved : t.bytesSaved.toNat ≤ t.origSize.toNat) : t.Inv where
  legal := ends.params ▸ h.legal
  canonical := memory.canonical
  mapped := ends.params ▸ memory.mapped
  outBelow := ends.params ▸ memory.outBelow
  auxBelow := ends.params ▸ memory.auxBelow
  outFits := ends.params ▸ outFits
  auxFits := auxFits
  busyNotDone := fun hb => by cases ends.seq.symm.trans hb
  errKnown := ends.err
  errReported := fun he => ⟨ends.done, noOutput he⟩
  ratio := ratio
  saved := saved
  algTagByte := by
    rw [ends.algTag, BitVec.toNat_setWidth]
    have := s.algL.isLt
    omega

/-- ErrorFinish (43_dispatch R329) stores no output, so its result fits any capacity. -/
theorem State.Inv.errorFinish {s : State} (h : s.Inv) (e : CodecError) : (s.errorFinish e).Inv := by
  apply (s.errorFinish_ends e).inv h
  case memory => exact h.memory_storeResult (c := []) (a := []) (Nat.zero_le _) (Nat.zero_le _)
  case outFits => exact Nat.zero_le _
  case auxFits => exact Nat.zero_le _
  case noOutput => exact fun _ => ⟨rfl, rfl⟩
  case ratio => exact ⟨(by decide : (1 : Word) ≠ 0), Nat.zero_le _⟩
  case saved => exact Nat.zero_le _

/-- CompressFinish (43_dispatch R316): a container of at most n + 4 bytes fits OUT by 00_scope R9, and the guarded size
(R317) keeps the ratio at most 1. -/
theorem State.Inv.compressFinish {s : State} (h : s.Inv) {c a : List Byte} (hn : s.nL.toNat ≤ s.params.maxIn)
    (hc : c.length ≤ s.nL.toNat + 4) (ha : a.length ≤ 767) : (s.compressFinish c a).Inv := by
  obtain ⟨-, -, hmaxOut, hspan, -⟩ := h.legal
  have span := regionSpan_eq
  have hfits : c.length ≤ s.params.maxOut := by omega
  by_cases hg : s.params.guardMode = .fault ∧ s.nL.toNat < c.length
  · rw [State.compressFinish_guard s c a hg]
    exact h.errorFinish _
  · have done := s.compressFinish_compressed c a hg (by omega) (by omega)
    apply (s.compressFinish_ends c a).inv h
    case memory =>
      rw [done.outLen, done.auxOutLen, State.compressFinish, if_neg hg]
      exact h.memory_storeResult hfits ha
    case outFits => exact done.outLen ▸ hfits
    case auxFits => exact done.auxOutLen ▸ ha
    case noOutput => exact fun he => absurd done.status.err he
    case ratio =>
      have positive : 0 < (s.compressFinish c a).ratioDen.toNat := by rw [done.ratioDen]; split <;> omega
      refine ⟨fun h0 => by simp [h0] at positive, ?_⟩
      rw [done.ratioNum, done.ratioDen]
      split <;> omega
    case saved =>
      rw [done.bytesSaved, done.origSize]
      exact Nat.sub_le _ _

/-- DecompressFinish (43_dispatch R326) keeps the invariant for a string that fits OUT. -/
theorem State.Inv.decompressFinish {s : State} (h : s.Inv) {d : List Byte} (hd : d.length ≤ s.params.maxOut) :
    (s.decompressFinish d).Inv := by
  obtain ⟨-, -, -, hspan, -⟩ := h.legal
  have span := regionSpan_eq
  have done := s.decompressFinish_decompressed d (by omega)
  apply (s.decompressFinish_ends d).inv h
  case memory =>
    rw [done.outLen, done.auxOutLen]
    exact h.memory_storeResult (a := []) hd (Nat.zero_le _)
  case outFits => exact done.outLen ▸ hd
  case auxFits => rw [done.auxOutLen]; exact Nat.zero_le _
  case noOutput => exact fun he => absurd done.status.err he
  case ratio => rw [done.ratioNum, done.ratioDen]; decide
  case saved => rw [done.bytesSaved]; exact Nat.zero_le _

theorem State.Inv.runCompress {s : State} (h : s.Inv) {f : List Byte → List Byte × List Byte}
    (hf : ∀ inp, (f inp).1.length ≤ inp.length + 4 ∧ (f inp).2.length ≤ 767) : (s.runCompress f).Inv := by
  rcases s.runCompress_cases f with ⟨-, hr⟩ | ⟨hn, hr⟩
  · exact hr ▸ h.errorFinish _
  · obtain ⟨hc, ha⟩ := hf s.input
    exact hr ▸ h.compressFinish hn (s.input_length ▸ hc) ha

theorem State.Inv.runDecompress {s : State} (h : s.Inv) {f : Nat → List Byte → Except CodecError (List Byte)}
    (hf : ∀ {cap inp d}, f cap inp = .ok d → d.length ≤ cap) : (s.runDecompress f).Inv := by
  rcases s.runDecompress_cases f with ⟨-, hr⟩ | ⟨-, ⟨e, -, hr⟩ | ⟨d, hd, hr⟩⟩
  · exact hr ▸ h.errorFinish _
  · exact hr ▸ h.errorFinish e
  · exact hr ▸ h.decompressFinish (hf hd)

/-- Every operation of 43_dispatch R313 keeps the invariant, however it ends. -/
theorem State.Inv.operation {s : State} (h : s.Inv) (i : Instr) : (operationOf i s).Inv := by
  cases i with
  | nop => exact h
  | hufEnc => exact h.runCompress fun inp => ⟨(hufEncode_bounds _ inp).1, hufEncode_aux_le _ inp⟩
  | hufDec => exact h.runDecompress hufDecode_fits
  | rleEnc => exact h.runCompress (f := fun inp => (rleEncode s.params.zeroRuns inp, [])) fun inp =>
      ⟨rleEncode_bound _ inp, Nat.zero_le _⟩
  | rleDec => exact h.runDecompress rleDecode_fits
  | lzEnc => exact h.runCompress (f := fun inp => (lzEncode inp, [])) fun inp => ⟨lzEncode_bound inp, Nat.zero_le _⟩
  | lzDec => exact h.runDecompress lzDecode_fits
  | unsupEnc => exact h.errorFinish _
  | unsupDec => exact h.errorFinish _

/-! ### Host accesses keep the invariant -/

/-- An accepted START (43_dispatch R310) clears DONE and ERR and leaves results and memory alone. -/
theorem State.Inv.accept {s : State} (h : s.Inv) (op : Op) (alg : Byte) : (s.accept op alg).Inv :=
  { h with
    busyNotDone := fun _ => rfl
    errKnown := Nat.zero_le _
    errReported := fun he => absurd rfl he }

theorem State.Inv.issue {s : State} (h : s.Inv) (op : Op) (alg : Byte) (i : Instr) :
    (s.issue op alg (operationOf i)).Inv := by
  cases hs : s.seq with
  | busy => rw [State.issue_busy hs]; exact h
  | idle =>
    by_cases hw : s.schedule.headD 0 = 0
    · rw [State.issue_ready ⟨hs, hw⟩]
      exact (h.accept op alg).operation i
    · rw [State.issue_later hs hw]
      exact h.accept op alg

theorem State.Inv.respond {s : State} (h : s.Inv) (r : ReadResult) : (s.respond r).Inv := by
  cases r <;> exact { h with }

theorem State.Inv.writeReg {s : State} (h : s.Inv) (offset : Nat) (w : Word) : (s.writeReg offset w).Inv := by
  unfold State.writeReg
  split <;> exact { h with }

/-- A state that differs in its memory alone. -/
theorem State.Inv.withMem {s : State} (h : s.Inv) {m : Memory}
    (hm : m.Proper s.params s.outLen.toNat s.auxOutLen.toNat) : State.Inv { s with mem := m } :=
  { h with canonical := hm.canonical, mapped := hm.mapped, outBelow := hm.outBelow, auxBelow := hm.auxBelow }

/-- A host write stores a byte of IN or AUX_IN only (20_memory R64, R70). -/
theorem State.Inv.writeBuf {s : State} (h : s.Inv) {b : Buffer} {i : Nat} (hi : i < b.size s.params) (v : Byte) :
    (s.writeBuf b i v).Inv := by
  unfold State.writeBuf
  split
  · exact h.withMem (h.memory.write ⟨.inp, i, targetOf_inp hi, nofun, nofun⟩ v)
  · exact h.withMem (h.memory.write ⟨.auxIn, i, targetOf_auxIn h.legal hi, nofun, nofun⟩ v)
  · exact h

theorem State.Inv.hardReset {s : State} (h : s.Inv) : s.hardReset.Inv where
  legal := h.legal
  canonical := State.reset_mem_wf
  mapped := nofun
  outBelow := nofun
  auxBelow := nofun
  outFits := Nat.zero_le _
  auxFits := Nat.zero_le _
  busyNotDone := fun _ => rfl
  errKnown := Nat.zero_le _
  errReported := fun he => absurd rfl he
  ratio := ⟨(by decide : (1 : Word) ≠ 0), Nat.zero_le _⟩
  saved := Nat.zero_le _
  algTagByte := (by decide : (0 : Word).toNat < 256)

theorem State.Inv.served {s t : State} {a : HostAccess} (h : s.Inv) (served : Served s a t) : t.Inv := by
  cases served with
  | same => exact h
  | marked => exact { h with }
  | answered r next ht => exact ht ▸ { h.respond r with }
  | register offset w _ => exact h.writeReg offset w
  | byte b i v hi => exact h.writeBuf hi v
  | start w _ _ => exact h.issue _ _ _

/-- The host's access leaves the list before it is served. -/
theorem State.Inv.withTurn {s : State} (h : s.Inv) (rest : List HostAccess) (k : Nat) :
    State.Inv { s with pending := rest, wait := k } := { h with }

/-- Settles O25, by the four kinds of a step: waiting, the reset, another host access, the completion of an operation.
What it says of the bytes of OUT and AUX_OUT at or above the reported lengths is the model's own choice (log 9). -/
theorem stepKeepsInvariant : Obligations.StepKeepsInvariant := by
  intro s t h hstep
  rcases step_cases hstep with ⟨-, -, rfl⟩ | ⟨-, rest, k, rfl⟩ | ⟨a, rest, k, -, -, -, -, served⟩ | ⟨-, -, rfl⟩
  · exact h
  · exact (h.withTurn rest k).hardReset
  · exact (h.withTurn rest k).served served
  · rw [State.completeLatched_eq]
    exact h.operation _

end Sys2Proof.Machine
end

section
/-!
PROOF of O33, O34 and O35: the register file as the host sees it. A word access to the register region is one register read or
write, and a word written to CMD is its command; STATUS is given bit by bit.
-/

namespace Sys2Proof.Machine

/-! ### The register region of the bus (10_state R22, 20_memory R61, R62) -/

theorem targetOf_reg {p : Params} {off : Nat} (h : off < regSize) :
    targetOf p (BitVec.ofNat 32 off).toNat = .reg off := by
  rw [toNat_ofNat32 (by simp only [regSize] at h; omega), targetOf, if_pos h]

theorem State.readBus_reg (s : State) {off : Nat} (h : off < regSize) (aligned : off % 4 = 0) :
    s.readBus (BitVec.ofNat 32 off) 4 = .value (s.readReg off) := by
  simp only [State.readBus, targetOf_reg h, aligned, and_self, if_true]

theorem State.serve_write_cmd (s : State) (w : Word) : s.serve (writeCmd w) = exec (decodeCmd w) s := by
  have target : targetOf s.params (BitVec.ofNat 32 cmdOffset).toNat = .reg cmdOffset := targetOf_reg (by decide)
  simp only [writeCmd, State.serve, State.writeBus, target]
  rfl

theorem State.serve_write_reg (s : State) {off : Nat} (h : off < regSize) (aligned : off % 4 = 0) (notCmd : off ≠ cmdOffset)
    (w : Word) : s.serve (.write (BitVec.ofNat 32 off) 4 w) = .next (s.writeReg off w) := by
  simp only [State.serve, State.writeBus, targetOf_reg h, aligned, and_self, if_true, if_neg notCmd]

/-- Above ALG_TAG the register region reads 0 (10_state R36). -/
theorem State.readReg_reserved (s : State) {off : Nat} (h : 0x34 ≤ off) : s.readReg off = 0 := by
  unfold State.readReg
  split
  case h_13 => rfl
  all_goals omega

/-- Only IN_LEN and AUX_IN_LEN can be written (10_state R25, R26, R36). -/
theorem State.writeReg_ignored (s : State) {off : Nat} (notInLen : off ≠ 0x08) (notAuxInLen : off ≠ 0x0C) (w : Word) :
    s.writeReg off w = s := by
  unfold State.writeReg
  split
  · exact absurd rfl notInLen
  · exact absurd rfl notAuxInLen
  · rfl

theorem State.writeReg_busy {s : State} (h : s.seq = .busy) (off : Nat) (w : Word) : s.writeReg off w = s := by
  simp only [State.writeReg, h]

theorem State.writeReg_inLen_idle {s : State} (h : s.seq = .idle) (w : Word) : s.writeReg 0x08 w = { s with inLen := w } := by
  simp only [State.writeReg, h]

theorem State.writeReg_auxInLen_idle {s : State} (h : s.seq = .idle) (w : Word) :
    s.writeReg 0x0C w = { s with auxInLen := w } := by
  simp only [State.writeReg, h]

/-- Settles O33, by the register each offset selects. -/
theorem registerFileReads : Obligations.RegisterFileReads := by
  intro s
  have reads (off : Nat) (h : off < regSize ∧ off % 4 = 0) : s.readBus (BitVec.ofNat 32 off) 4 = .value (s.readReg off) :=
    s.readBus_reg h.1 h.2
  refine ⟨reads 0x00 (by decide), reads 0x04 (by decide), reads 0x08 (by decide), reads 0x0C (by decide),
    reads 0x10 (by decide), reads 0x14 (by decide), reads 0x18 (by decide), reads 0x1C (by decide),
    reads 0x20 (by decide), reads 0x24 (by decide), reads 0x28 (by decide), reads 0x2C (by decide),
    reads 0x30 (by decide), fun off low high aligned => ⟨?_, fun w => ?_⟩⟩
  · rw [reads off ⟨Nat.lt_succ_of_le (high.trans (by decide)), aligned⟩, s.readReg_reserved low]
  · rw [s.serve_write_reg (Nat.lt_succ_of_le (high.trans (by decide))) aligned (by simp only [cmdOffset]; omega),
      s.writeReg_ignored (by omega) (by omega)]

/-- Settles O34: a word write to either register is `writeReg`, which looks at SEQ. -/
theorem lengthRegistersAreWritable : Obligations.LengthRegistersAreWritable := by
  intro s w
  have inLen : s.serve (.write 0x08 4 w) = .next (s.writeReg 0x08 w) :=
    s.serve_write_reg (by decide) (by decide) (by decide) w
  have auxInLen : s.serve (.write 0x0C 4 w) = .next (s.writeReg 0x0C w) :=
    s.serve_write_reg (by decide) (by decide) (by decide) w
  rw [inLen, auxInLen]
  exact ⟨fun idle => ⟨congrArg _ (State.writeReg_inLen_idle idle w), congrArg _ (State.writeReg_auxInLen_idle idle w)⟩,
    fun busy => ⟨congrArg _ (State.writeReg_busy busy 0x08 w), congrArg _ (State.writeReg_busy busy 0x0C w)⟩⟩

/-! ### The fields of STATUS (10_state R24) -/

/-- Every bit of STATUS: BUSY, DONE, and from bit 8 up the bits of ERR. -/
theorem statusWord_getLsbD (busy done : Bool) (err : Byte) (i : Nat) :
    (statusWord busy done err).getLsbD i =
      if i = 0 then busy else if i = 1 then done else decide (8 ≤ i) && err.getLsbD (i - 8) := by
  have parts : (statusWord busy done err).getLsbD i =
      BitVec.getLsbD (w := 16 + 8 + 6 + 1 + 1)
        (0#16 ++ err ++ 0#6 ++ BitVec.ofBool done ++ BitVec.ofBool busy) i := rfl
  rw [parts]
  simp only [BitVec.getLsbD_append, BitVec.getLsbD_ofBool, BitVec.getLsbD_zero]
  match i with
  | 0 => simp
  | 1 => simp
  | i + 2 =>
    by_cases below : i < 6
    · simp [below]
    · have shift : i + 2 - 8 = i - 6 := by omega
      by_cases inErr : i - 6 < 8
      · simp [below, inErr, shift, show 8 ≤ i + 2 by omega]
      · simp [below, inErr, shift, BitVec.getLsbD_of_ge _ _ (Nat.le_of_not_lt inErr)]

/-- Settles O35, bit by bit. -/
theorem statusLayout : Obligations.StatusLayout := by
  intro s
  have bits := statusWord_getLsbD s.busy s.done s.err
  have aboveDone (i : Nat) (hi : 2 ≤ i) : s.status.getLsbD i = (decide (8 ≤ i) && s.err.getLsbD (i - 8)) := by
    rw [State.status, bits, if_neg (by omega), if_neg (by omega)]
  refine ⟨?_, bits 1, ?_, ?_, ?_⟩
  · rw [State.status, bits, if_pos rfl, State.busy, decide_eq_true_iff]
  · ext i hi
    simp [aboveDone (8 + i) (by omega), hi]
  · ext i hi
    simp [aboveDone (2 + i) (by omega), show 2 + i < 8 by omega]
  · ext i hi
    simp [aboveDone (16 + i) (by omega), BitVec.getLsbD_of_ge s.err (16 + i - 8) (by omega)]

end Sys2Proof.Machine
end

section
/-!
PROOF of O27 and O20: the step that serves the host's next access, and which accesses set REFUSED. Each access sets it exactly
when it has no meaning; no other kind of step touches it.
-/

namespace Sys2Proof.Machine

/-! ### Which step serves the host's next access (43_dispatch R331) -/

theorem step_serves_idle {s : State} {a : HostAccess} {rest : List HostAccess} (idle : s.seq = .idle)
    (next : s.pending = a :: rest) : step s = State.serve { s with pending := rest } a := by
  simp only [step, State.turn, idle, next]

theorem step_serves_busy {s : State} {a : HostAccess} {rest : List HostAccess} {k : Nat} (busy : s.seq = .busy)
    (passing : s.wait = k + 1) (next : s.pending = a :: rest) :
    step s = State.serve { s with pending := rest, wait := k } a := by
  simp only [step, State.turn, busy, passing, next]

/-- Settles O27: the access served is the write to CMD, which is its command. -/
theorem stepRunsTheDecodedCommand : Obligations.StepRunsTheDecodedCommand := by
  intro s w rest next
  refine ⟨fun idle => ?_, fun k busy passing => ?_⟩
  · rw [step_serves_idle idle next, State.serve_write_cmd]
  · rw [step_serves_busy busy passing next, State.serve_write_cmd]

/-- At most one access is served by a step. -/
theorem State.Serves.exists_iff {s : State} {a : HostAccess} (ha : s.Serves a) (P : HostAccess → Prop) :
    (∃ b, s.Serves b ∧ P b) ↔ P a := by
  refine ⟨fun ⟨b, hb, hP⟩ => ?_, fun hP => ⟨a, ha, hP⟩⟩
  obtain ⟨-, rest, ha⟩ := ha
  obtain ⟨-, rest', hb⟩ := hb
  cases ha.symm.trans hb
  exact hP

theorem State.not_serves_of_nothing_pending {s : State} (h : s.pending = []) (a : HostAccess) : ¬ s.Serves a := by
  rintro ⟨-, rest, next⟩
  rw [h] at next
  cases next

theorem State.CompletionDue.not_serves {s : State} (due : s.CompletionDue) (a : HostAccess) : ¬ s.Serves a := by
  obtain ⟨busy, passed | nothing⟩ := due
  · rintro ⟨idle | passing, -⟩
    · cases busy.symm.trans idle
    · omega
  · exact State.not_serves_of_nothing_pending nothing a

/-! ### What sets REFUSED (10_state R49) -/

theorem State.readBuf_ne_refused (s : State) (b : Buffer) (i : Nat) : s.readBuf b i ≠ .refused := by
  have stored : ∀ v, ReadResult.ofByte v ≠ .refused := fun v => by cases v <;> nofun
  cases b with
  | inp => exact stored _
  | auxIn => exact stored _
  | out => simp only [State.readBuf]; split; exacts [stored _, nofun]
  | auxOut => simp only [State.readBuf]; split; exacts [stored _, nofun]

/-- A read is refused exactly for an access of 20_memory R62, R63 or R69. -/
theorem State.readBus_refused_iff (s : State) (addr : Word) (size : Nat) :
    s.readBus addr size = .refused ↔ IllegalAccess s.params addr size := by
  unfold State.readBus IllegalAccess
  cases targetOf s.params addr.toNat with
  | reg off => by_cases legal : size = 4 ∧ off % 4 = 0 <;> simp [legal]
  | buf b i => by_cases legal : size = 1 <;> simp [legal, s.readBuf_ne_refused]
  | unmapped => simp

theorem State.respond_refused_iff (s : State) (r : ReadResult) :
    (s.respond r).refused = true ↔ s.refused = true ∨ r = .refused := by
  cases r <;> simp [State.respond]

theorem State.respond_readBus_refused_iff (s : State) (addr : Word) (size : Nat) :
    (s.respond (s.readBus addr size)).refused = true ↔ s.refused = true ∨ IllegalAccess s.params addr size := by
  rw [State.respond_refused_iff, State.readBus_refused_iff]

theorem supportedAlg_iff (alg : Byte) : supportedAlg alg = true ↔ alg.toNat < 3 := decide_eq_true_iff

/-- The model's check for a START over unwritten input is the rule's (20_memory R68). -/
theorem startsOverUnwritten_iff (s : State) {w : Word} (start : w.getLsbD 0 = true) :
    StartsOverUnwritten s w ↔ s.seq = .idle ∧ s.startReadsUnwritten (fieldAlg w) = true := by
  have unwritten : s.mem.writtenRange (Buffer.base .inp) s.inLen.toNat = false ↔
      ∃ i, i < s.inLen.toNat ∧ s.bufByte .inp i = none := by
    rw [← Bool.not_eq_true, Memory.writtenRange_iff]
    simp [State.bufByte]
  simp only [StartsOverUnwritten, State.startReadsUnwritten, supportedAlg_iff, fieldAlg, start, Bool.and_eq_true,
    Bool.not_eq_true', decide_eq_true_iff, unwritten, true_and, and_assoc]

theorem State.issue_refused_iff (s : State) {i : Instr} (hi : i ≠ .nop) (op : Op) (alg : Byte) :
    (s.issue op alg (operationOf i)).refused = true ↔
      s.refused = true ∨ (s.seq = .idle ∧ s.startReadsUnwritten alg = true) := by
  cases hs : s.seq with
  | busy => simp [State.issue_busy hs]
  | idle =>
    by_cases hw : s.schedule.headD 0 = 0
    · rw [State.issue_ready ⟨hs, hw⟩, (operation_ends hi _).refused]
      simp
    · rw [State.issue_later hs hw]
      simp

theorem exec_decodeCmd_start {w : Word} (start : w.getLsbD 0 = true) (s : State) :
    exec (decodeCmd w) s =
      .next (s.issue (fieldOp w) (fieldAlg w) (operationOf (selectInstr (fieldOp w) (fieldAlg w)))) := by
  rw [decodeCmd_start start, exec_start (selectInstr_ne_nop _ _), selectInstr_op, selectInstr_alg]

theorem exec_decodeCmd_refused_iff {s t : State} {w : Word} (h : exec (decodeCmd w) s = .next t) :
    t.refused = true ↔ s.refused = true ∨ StartsOverUnwritten s w := by
  cases start : w.getLsbD 0 with
  | false =>
    rw [decodeCmd_noStart start] at h
    cases h
    simp only [StartsOverUnwritten, start, Bool.false_eq_true, false_and, and_false, or_false]
  | true =>
    rw [exec_decodeCmd_start start] at h
    cases h
    rw [s.issue_refused_iff (selectInstr_ne_nop _ _), startsOverUnwritten_iff s start]

theorem State.writeBus_refused_iff {s t : State} {addr : Word} {size : Nat} {w : Word}
    (h : s.writeBus addr size w = .next t) :
    t.refused = true ↔ s.refused = true ∨ Meaningless s (.write addr size w) := by
  unfold State.writeBus at h
  unfold Meaningless IllegalAccess
  cases ht : targetOf s.params addr.toNat with
  | unmapped =>
    simp only [ht] at h ⊢
    cases h
    simp
  | buf b i =>
    simp only [ht] at h ⊢
    by_cases legal : size = 1
    · simp only [legal, if_true] at h
      cases h
      simp [legal]
    · rw [if_neg legal] at h
      cases h
      simp [legal]
  | reg off =>
    simp only [ht] at h ⊢
    by_cases legal : size = 4 ∧ off % 4 = 0
    · rw [if_pos legal] at h
      by_cases cmd : off = cmdOffset
      · have zero : addr = 0 := BitVec.eq_of_toNat_eq (targetOf_zero (cmd ▸ ht))
        rw [if_pos cmd] at h
        rw [exec_decodeCmd_refused_iff h]
        simp [legal, zero]
      · have nonzero : addr ≠ 0 := by
          rintro rfl
          cases ht
          exact cmd rfl
        rw [if_neg cmd] at h
        cases h
        simp only [legal, nonzero, and_self, not_true, false_and, or_false, State.writeReg_refused]
    · rw [if_neg legal] at h
      cases h
      simp [legal]

/-- Serving an access sets REFUSED exactly if it has no meaning. -/
theorem State.serve_refused_iff {s t : State} {a : HostAccess} (h : s.serve a = .next t) :
    t.refused = true ↔ s.refused = true ∨ Meaningless s a := by
  cases a with
  | read addr size => cases h; exact s.respond_readBus_refused_iff addr size
  | write addr size w => exact State.writeBus_refused_iff h
  | poll addr hi lo v =>
    have answered : t.refused = (s.respond (s.readBus addr 4)).refused := by
      simp only [State.serve] at h
      split at h <;> (cases h; rfl)
    rw [answered]
    exact s.respond_readBus_refused_iff addr 4
  | readBlock lenAddr dataAddr => cases h; exact s.respond_readBus_refused_iff lenAddr 4
  | reset => cases h; simp [Meaningless]

/-- Settles O20, by the kinds of a step: only one that serves an access can set REFUSED, and it serves one access. -/
theorem refusedMarkedExactly : Obligations.RefusedMarkedExactly := by
  intro s t hstep
  have unserved (h : ∀ a, ¬ s.Serves a) : ¬ ∃ a, s.Serves a ∧ Meaningless s a := fun ⟨a, ha, _⟩ => h a ha
  rcases step_cases hstep with ⟨-, nothing, rfl⟩ | ⟨ha, rest, k, rfl⟩ | ⟨a, rest, k, ha, -, -, hserve, -⟩ | ⟨busy, due, rfl⟩
  · simp [unserved (State.not_serves_of_nothing_pending nothing)]
  · rw [ha.exists_iff]
    simp [Meaningless]
  · rw [ha.exists_iff]
    have marked := State.serve_refused_iff hserve
    exact marked
  · rw [s.completeLatched_eq, (operation_ends (selectInstr_ne_nop _ _) s).refused]
    simp [unserved (State.CompletionDue.not_serves ⟨busy, due⟩)]

end Sys2Proof.Machine
end

section
/-!
PROOF of O21 and O22: what a step may change of the flags and the results. A host access other than a reset or an accepted START
keeps them with the output buffers (`OutputsKept`), and then the host reads of OUT and AUX_OUT what it read before.
-/

namespace Sys2Proof.Machine

/-! ### What a host access leaves of a finished operation (70_reset R400, 20_memory R64, R70) -/

/-- The flags and all an operation has reported are as they were. -/
structure OutputsKept (s t : State) : Prop where
  params : t.params = s.params
  seq : t.seq = s.seq
  done : t.done = s.done
  err : t.err = s.err
  results : ResultsKept s t
  bytes : s.params.Legal → ∀ a, inOutputRegions a → t.mem.read a = s.mem.read a

theorem OutputsKept.refl (s : State) : OutputsKept s s :=
  ⟨rfl, rfl, rfl, rfl, ⟨rfl, rfl, rfl, rfl, rfl, rfl, rfl, rfl, rfl⟩, fun _ _ _ => rfl⟩

/-- Taking the access from the list changes nothing of the block. -/
theorem OutputsKept.of_turn {s t : State} {rest : List HostAccess} {k : Nat}
    (kept : OutputsKept { s with pending := rest, wait := k } t) : OutputsKept s t :=
  { kept with results := { kept.results with } }

theorem State.markRefused_outputsKept (s : State) : OutputsKept s s.markRefused :=
  ⟨rfl, rfl, rfl, rfl, ⟨rfl, rfl, rfl, rfl, rfl, rfl, rfl, rfl, rfl⟩, fun _ _ _ => rfl⟩

theorem State.respond_outputsKept (s : State) (r : ReadResult) (next : List HostAccess) :
    OutputsKept s { s.respond r with pending := next } := by
  cases r <;> exact ⟨rfl, rfl, rfl, rfl, ⟨rfl, rfl, rfl, rfl, rfl, rfl, rfl, rfl, rfl⟩, fun _ _ _ => rfl⟩

theorem State.writeReg_outputsKept (s : State) (off : Nat) (w : Word) : OutputsKept s (s.writeReg off w) := by
  constructor
  case results => constructor <;> simp
  all_goals simp

/-- The host stores into IN and AUX_IN only, which end below OUT (20_memory R61). -/
theorem State.read_writeBuf_outputs (s : State) {b : Buffer} {i : Nat} (hi : i < b.size s.params) (v : Byte)
    (hp : s.params.Legal) {a : Nat} (ha : inOutputRegions a) : (s.writeBuf b i v).mem.read a = s.mem.read a := by
  obtain ⟨-, hmaxIn, -, -, -, hmaxAux⟩ := hp
  obtain ⟨above, -⟩ := ha
  rw [base_out] at above
  unfold State.writeBuf
  split
  · have : i < s.params.maxIn := hi
    exact (Memory.read_write ..).trans (if_neg (by simp only [Buffer.base]; omega))
  · have : i < s.params.maxAux := hi
    exact (Memory.read_write ..).trans (if_neg (by simp only [Buffer.base]; omega))
  · rfl

theorem State.writeBuf_outputsKept (s : State) {b : Buffer} {i : Nat} (hi : i < b.size s.params) (v : Byte) :
    OutputsKept s (s.writeBuf b i v) := by
  constructor
  case results => constructor <;> simp
  case bytes => exact fun hp _ ha => s.read_writeBuf_outputs hi v hp ha
  all_goals simp

/-- A host access other than the reset keeps the flags and the outputs, unless it is a START accepted while IDLE. -/
theorem Served.outputsKept_or_start {s t : State} {a : HostAccess} (served : Served s a t) :
    OutputsKept s t ∨
    (s.seq = .idle ∧ IsStartWrite a ∧
      ∃ op alg i, i ≠ .nop ∧ t = s.issue op alg (operationOf i)) := by
  cases served with
  | same => exact .inl (.refl s)
  | marked => exact .inl s.markRefused_outputsKept
  | answered r next ht => exact .inl (ht ▸ s.respond_outputsKept r next)
  | register off w _ => exact .inl (s.writeReg_outputsKept off w)
  | byte b i v hi => exact .inl (s.writeBuf_outputsKept hi v)
  | start w ha hw =>
    cases hs : s.seq with
    | busy => rw [State.issue_busy hs]; exact .inl (.refl s)
    | idle => exact .inr ⟨rfl, ⟨w, ha, hw⟩, _, _, _, selectInstr_ne_nop _ _, rfl⟩

/-- A START accepted while IDLE leaves the block BUSY or has completed at once. -/
theorem State.issue_flags {s t : State} (idle : s.seq = .idle) {op : Op} {alg : Byte} {i : Instr} (hi : i ≠ .nop)
    (ht : t = s.issue op alg (operationOf i)) :
    (t.seq = .busy ∧ t.done = false ∧ t.err = 0) ∨ (t.seq = .idle ∧ t.done = true ∧ t.err.toNat ≤ 5) := by
  subst ht
  by_cases hw : s.schedule.headD 0 = 0
  · rw [State.issue_ready ⟨idle, hw⟩]
    have ends := operation_ends hi (s.accept op alg)
    exact .inr ⟨ends.seq, ends.done, ends.err⟩
  · rw [State.issue_later idle hw]
    exact .inl ⟨rfl, rfl, rfl⟩

/-- Settles O21, by the kinds of a step; an access that is no accepted START keeps the flags. -/
theorem flagsChangeOnlyByThreeEvents : Obligations.FlagsChangeOnlyByThreeEvents := by
  intro s t hstep
  rcases step_cases hstep with ⟨-, -, rfl⟩ | ⟨ha, rest, k, rfl⟩ | ⟨a, rest, k, ha, -, -, -, served⟩ | ⟨busy, due, rfl⟩
  · exact .inl ⟨rfl, rfl, rfl⟩
  · exact .inr (.inr (.inr ⟨ha, rfl, rfl, rfl⟩))
  · rcases served.outputsKept_or_start with kept | ⟨idle, start, op, alg, i, hi, ht⟩
    · exact .inl ⟨kept.seq, kept.done, kept.err⟩
    · exact .inr (.inl ⟨idle, ⟨a, ha, start⟩, State.issue_flags idle hi ht⟩)
  · have ends := operation_ends (selectInstr_ne_nop s.opL s.algL) s
    rw [← s.completeLatched_eq] at ends
    exact .inr (.inr (.inl ⟨busy, due, ends.seq, ends.done, ends.err⟩))

/-! ### What the host reads of OUT and AUX_OUT -/

theorem inOutputRegions_out {p : Params} (hp : p.Legal) {i : Nat} (hi : i < p.maxOut) :
    inOutputRegions (Buffer.base .out + i) := by
  obtain ⟨-, -, -, hmaxOut, -⟩ := hp
  simp only [inOutputRegions, base_out, base_auxOut, regionSpan_eq]
  omega

theorem inOutputRegions_auxOut {p : Params} (hp : p.Legal) {i : Nat} (hi : i < p.maxAux) :
    inOutputRegions (Buffer.base .auxOut + i) := by
  obtain ⟨-, -, -, -, -, hmaxAux⟩ := hp
  simp only [inOutputRegions, base_out, base_auxOut, regionSpan_eq]
  omega

theorem State.readBus_byte (s : State) {a : Nat} {b : Buffer} {i : Nat} (ha : a < 2 ^ 32)
    (target : targetOf s.params a = .buf b i) : s.readBus (BitVec.ofNat 32 a) 1 = s.readBuf b i := by
  simp only [State.readBus, toNat_ofNat32 ha, target, if_true]

/-- A byte read depends on the byte, SEQ and the reported lengths. -/
theorem OutputsKept.readBuf {s t : State} (kept : OutputsKept s t) {b : Buffer} {i : Nat}
    (byte : t.bufByte b i = s.bufByte b i) : t.readBuf b i = s.readBuf b i := by
  have busy : t.busy = s.busy := by rw [State.busy, State.busy, kept.seq]
  unfold State.readBuf
  rw [busy, kept.results.outLen, kept.results.auxOutLen]
  cases b <;> simp only [byte]

theorem OutputsKept.readBus {s t : State} (kept : OutputsKept s t) (hp : s.params.Legal) {b : Buffer} {i : Nat}
    (target : targetOf s.params (b.base + i) = .buf b i) (output : inOutputRegions (b.base + i)) :
    t.readBus (BitVec.ofNat 32 (b.base + i)) 1 = s.readBus (BitVec.ofNat 32 (b.base + i)) 1 := by
  have mapped : b.base + i < 2 ^ 32 := by
    obtain ⟨-, below⟩ := output
    rw [base_auxOut, regionSpan_eq] at below
    omega
  rw [s.readBus_byte mapped target, t.readBus_byte mapped (kept.params ▸ target)]
  exact kept.readBuf (kept.bytes hp _ output)

/-- What O22 says of a step that keeps the outputs. -/
theorem OutputsKept.reads {s t : State} (kept : OutputsKept s t) (hp : s.params.Legal) (i : Nat) :
    (i < s.params.maxOut → t.readBus (BitVec.ofNat 32 (Buffer.base .out + i)) 1 =
      s.readBus (BitVec.ofNat 32 (Buffer.base .out + i)) 1) ∧
    (i < s.params.maxAux → t.readBus (BitVec.ofNat 32 (Buffer.base .auxOut + i)) 1 =
      s.readBus (BitVec.ofNat 32 (Buffer.base .auxOut + i)) 1) :=
  ⟨fun hi => kept.readBus hp (targetOf_out hp hi) (inOutputRegions_out hp hi),
    fun hi => kept.readBus hp (targetOf_auxOut hp hi) (inOutputRegions_auxOut hp hi)⟩

/-- A step that is no reset and no completion keeps the outputs, or accepts a START that completes later. -/
theorem step_keeps_outputs_or_accepts {s t : State} (hstep : step s = .next t) (noReset : ¬ s.Serves .reset)
    (notDue : ¬ s.CompletionDue) (notAtOnce : ¬ (s.Ready ∧ s.ServesStart)) :
    OutputsKept s t ∨ ((s.seq = .idle ∧ s.ServesStart) ∧ ResultsKept s t ∧ t.mem = s.mem) := by
  rcases step_cases hstep with ⟨-, -, rfl⟩ | ⟨ha, -⟩ | ⟨a, rest, k, ha, -, -, -, served⟩ | ⟨busy, due, -⟩
  · exact .inl (.refl t)
  · exact absurd ha noReset
  · rcases served.outputsKept_or_start with kept | ⟨idle, start, op, alg, i, -, rfl⟩
    · exact .inl kept.of_turn
    · have later : s.schedule.headD 0 ≠ 0 := fun hw => notAtOnce ⟨⟨idle, hw⟩, a, ha, start⟩
      rw [State.issue_later idle later]
      exact .inr ⟨⟨idle, a, ha, start⟩, ⟨rfl, rfl, rfl, rfl, rfl, rfl, rfl, rfl, rfl⟩, rfl⟩
  · exact absurd ⟨busy, due⟩ notDue

/-- Settles O22: where the step keeps the outputs, the host reads what it read; where it accepts a START, the results and
memory stay. -/
theorem resultsChangeOnlyAtCompletion : Obligations.ResultsChangeOnlyAtCompletion := by
  intro s t hstep noReset notDue notAtOnce
  rcases step_keeps_outputs_or_accepts hstep noReset notDue notAtOnce with kept | ⟨accepts, results, mem⟩
  · exact ⟨kept.results, kept.bytes, fun _ => ⟨kept.seq, kept.done, kept.err, kept.reads⟩⟩
  · exact ⟨results, fun _ _ _ => by rw [mem], fun notAccepted => absurd accepts notAccepted⟩

end Sys2Proof.Machine
end

section
/-!
PROOF of O31, O32, O36, O37 and O38: the host bus. Which accesses the address map gives a meaning, what a one-byte access to a
buffer does, and what an access leaves alone, in general and while BUSY.
-/

namespace Sys2Proof.Machine

/-! ### The address map (20_memory R61) -/

/-- What can stand at a host address: a byte of the register region, a byte of a buffer, or nothing. -/
theorem targetOf_cases (p : Params) (a : Nat) :
    (a < regSize ∧ targetOf p a = .reg a) ∨
    (∃ b i, a = b.base + i ∧ i < b.size p ∧ targetOf p a = .buf b i) ∨
    (regSize ≤ a ∧ (∀ b : Buffer, ¬ (b.base ≤ a ∧ a < b.base + b.size p)) ∧ targetOf p a = .unmapped) := by
  cases target : targetOf p a with
  | reg off =>
    have below : a < regSize := by
      by_contra above
      simp only [targetOf, if_neg above] at target
      repeat' split at target
      all_goals cases target
    rw [targetOf, if_pos below] at target
    exact .inl ⟨below, target.symm⟩
  | buf b i =>
    obtain ⟨ha, hi⟩ := targetOf_buf target
    exact .inr (.inl ⟨b, i, ha, hi, rfl⟩)
  | unmapped =>
    simp only [targetOf, Buffer.covers, Bool.and_eq_true, decide_eq_true_eq] at target
    repeat' split at target
    all_goals cases target
    refine .inr (.inr ⟨Nat.le_of_not_lt ‹_›, fun b => ?_, rfl⟩)
    cases b <;> assumption

theorem targetOf_byte {p : Params} (hp : p.Legal) {b : Buffer} {i : Nat} (hi : i < b.size p) :
    targetOf p (b.base + i) = .buf b i := by
  cases b with
  | inp => exact targetOf_inp hi
  | auxIn => exact targetOf_auxIn hp hi
  | out => exact targetOf_out hp hi
  | auxOut => exact targetOf_auxOut hp hi

theorem byteAddress_lt {p : Params} (hp : p.Legal) {b : Buffer} {i : Nat} (hi : i < b.size p) : b.base + i < 2 ^ 32 := by
  obtain ⟨-, hmaxIn, -, hmaxOut, -, hmaxAux⟩ := hp
  cases b <;> simp only [Buffer.base, Buffer.size] at hi ⊢ <;> omega

/-- The accesses without a meaning, by target, are those not in the map of legal addresses and sizes. -/
theorem illegalAccess_iff {p : Params} (hp : p.Legal) (addr : Word) (size : Nat) :
    IllegalAccess p addr size ↔ ¬ LegalAccess p addr.toNat size := by
  obtain ⟨-, hmaxIn, -, hmaxOut, -, hmaxAux⟩ := hp
  unfold IllegalAccess LegalAccess
  rcases targetOf_cases p addr.toNat with ⟨below, target⟩ | ⟨b, i, ha, hi, target⟩ | ⟨above, uncovered, target⟩
  · simp only [target]
    simp only [regSize] at below
    omega
  · simp only [target]
    rw [ha]
    cases b <;> simp only [Buffer.base, Buffer.size] at hi ⊢ <;> omega
  · have inp := uncovered .inp
    have auxIn := uncovered .auxIn
    have out := uncovered .out
    have auxOut := uncovered .auxOut
    simp only [target, true_iff]
    simp only [regSize, Buffer.base, Buffer.size] at above inp auxIn out auxOut
    omega

/-- Settles O31: a read is refused, and any access sets REFUSED, exactly where the address map gives it no meaning. -/
theorem illegalAccessesAreRefused : Obligations.IllegalAccessesAreRefused := by
  intro s addr size hp
  have marked {a : HostAccess} (notReset : a ≠ .reset) (meaningless : Meaningless s a) :
      ∃ t, s.serve a = .next t ∧ t.refused = true := by
    obtain ⟨t, served, -⟩ := s.serve_cases notReset
    exact ⟨t, served, (State.serve_refused_iff served).mpr (.inr meaningless)⟩
  rw [s.readBus_refused_iff, illegalAccess_iff hp]
  refine ⟨Iff.rfl, fun illegal => ?_⟩
  rw [← illegalAccess_iff hp] at illegal
  exact ⟨marked nofun illegal, fun w => marked nofun (.inl illegal)⟩

/-! ### One-byte accesses to the buffers (10_state R38, 20_memory R63) -/

theorem State.readBus_at (s : State) (hp : s.params.Legal) {b : Buffer} {i : Nat} (hi : i < b.size s.params) :
    s.readBus (BitVec.ofNat 32 (b.base + i)) 1 = s.readBuf b i :=
  s.readBus_byte (byteAddress_lt hp hi) (targetOf_byte hp hi)

theorem State.serve_write_at (s : State) (hp : s.params.Legal) {b : Buffer} {i : Nat} (hi : i < b.size s.params) (w : Word) :
    s.serve (.write (BitVec.ofNat 32 (b.base + i)) 1 w) = .next (s.writeBuf b i (w.setWidth 8)) := by
  simp only [State.serve, State.writeBus, toNat_ofNat32 (byteAddress_lt hp hi), targetOf_byte hp hi, if_true]

/-- The host reads what byte i of the buffer stores: always in IN and AUX_IN, in OUT and AUX_OUT while IDLE and below the
reported length (20_memory R70, R74). -/
def State.Shows (s : State) (b : Buffer) (i : Nat) : Prop :=
  match b with
  | .inp => True
  | .auxIn => True
  | .out => s.seq = .idle ∧ i < s.outLen.toNat
  | .auxOut => s.seq = .idle ∧ i < s.auxOutLen.toNat

theorem State.busy_eq_false_iff (s : State) : s.busy = false ↔ s.seq = .idle := by
  cases h : s.seq <;> simp [State.busy, h]

theorem State.readBuf_of_shows {s : State} {b : Buffer} {i : Nat} (shown : s.Shows b i) :
    s.readBuf b i = .ofByte (s.bufByte b i) := by
  cases b with
  | inp => rfl
  | auxIn => rfl
  | out => exact if_pos ⟨s.busy_eq_false_iff.mpr shown.1, shown.2⟩
  | auxOut => exact if_pos ⟨s.busy_eq_false_iff.mpr shown.1, shown.2⟩

theorem State.readBuf_of_not_shows {s : State} {b : Buffer} {i : Nat} (hidden : ¬ s.Shows b i) :
    s.readBuf b i = .unspecified := by
  cases b with
  | inp => exact absurd trivial hidden
  | auxIn => exact absurd trivial hidden
  | out => exact if_neg fun ⟨idle, below⟩ => hidden ⟨s.busy_eq_false_iff.mp idle, below⟩
  | auxOut => exact if_neg fun ⟨idle, below⟩ => hidden ⟨s.busy_eq_false_iff.mp idle, below⟩

section
variable {s : State} (hp : s.params.Legal) {b : Buffer} {i : Nat} (hi : i < b.size s.params)
include hp hi

theorem State.readBus_stored {v : Byte} (shown : s.Shows b i) (stored : s.bufByte b i = some v) :
    s.readBus (BitVec.ofNat 32 (b.base + i)) 1 = .value (v.setWidth 32) := by
  rw [s.readBus_at hp hi, State.readBuf_of_shows shown, stored]
  rfl

theorem State.readBus_hidden (hidden : ¬ s.Shows b i) : s.readBus (BitVec.ofNat 32 (b.base + i)) 1 = .unspecified := by
  rw [s.readBus_at hp hi, State.readBuf_of_not_shows hidden]

theorem State.readBus_unwritten (unwritten : s.bufByte b i = none) :
    s.readBus (BitVec.ofNat 32 (b.base + i)) 1 = .unspecified := by
  by_cases shown : s.Shows b i
  · rw [s.readBus_at hp hi, State.readBuf_of_shows shown, unwritten]
    rfl
  · exact State.readBus_hidden hp hi shown

end

/-- The host can write IN and AUX_IN; it cannot write OUT and AUX_OUT (20_memory R64). -/
def Buffer.IsInput (b : Buffer) : Prop := b = .inp ∨ b = .auxIn

theorem State.shows_input (s : State) {b : Buffer} (input : b.IsInput) (i : Nat) : s.Shows b i := by
  rcases input with rfl | rfl <;> trivial

theorem State.writeBuf_input {s : State} (idle : s.seq = .idle) {b : Buffer} (input : b.IsInput) (i : Nat) (v : Byte) :
    s.writeBuf b i v = { s with mem := s.mem.write (b.base + i) v } := by
  rcases input with rfl | rfl <;> simp only [State.writeBuf, idle]

theorem State.writeBuf_output (s : State) {b : Buffer} (output : ¬ b.IsInput) (i : Nat) (v : Byte) : s.writeBuf b i v = s := by
  unfold State.writeBuf
  split
  · exact absurd (.inl rfl) output
  · exact absurd (.inr rfl) output
  · rfl

theorem State.writeBuf_busy {s : State} (busy : s.seq = .busy) (b : Buffer) (i : Nat) (v : Byte) : s.writeBuf b i v = s := by
  simp only [State.writeBuf, busy]

/-! ### What an access leaves alone (20_memory R64, R70) -/

theorem BlockKept.refl (s : State) : BlockKept s s :=
  ⟨rfl, rfl, rfl, rfl, rfl, rfl, ⟨rfl, rfl, rfl, rfl, rfl, rfl, rfl, rfl, rfl⟩, rfl, rfl, rfl, rfl⟩

theorem State.markRefused_blockKept (s : State) : BlockKept s s.markRefused :=
  ⟨rfl, rfl, rfl, rfl, rfl, rfl, ⟨rfl, rfl, rfl, rfl, rfl, rfl, rfl, rfl, rfl⟩, rfl, rfl, rfl, rfl⟩

theorem State.respond_blockKept (s : State) (r : ReadResult) : BlockKept s (s.respond r) := by
  constructor
  case results => constructor <;> simp
  all_goals simp

/-- What the host does next is nothing of the block. -/
theorem BlockKept.withPending {s t : State} (kept : BlockKept s t) (next : List HostAccess) :
    BlockKept s { t with pending := next } :=
  { kept with results := { kept.results with } }

/-- What a read gives is fixed by the block's registers and memory. -/
theorem State.readBus_respond (s : State) (r : ReadResult) (addr : Word) (size : Nat) :
    (s.respond r).readBus addr size = s.readBus addr size := by
  cases r <;> rfl

/-- Settles O32: a read only responds, and the writes named are the ones `writeReg` and `writeBuf` ignore. -/
theorem readsAndReadOnlyWritesHaveNoEffect : Obligations.ReadsAndReadOnlyWritesHaveNoEffect := by
  have outputIgnored (s : State) (hp : s.params.Legal) (b : Buffer) (output : ¬ b.IsInput) (i : Nat)
      (hi : i < b.size s.params) (w : Word) : s.serve (.write (BitVec.ofNat 32 (b.base + i)) 1 w) = .next s := by
    rw [s.serve_write_at hp hi, s.writeBuf_output output]
  refine ⟨fun s t addr size read => ?_, fun s off w low high aligned notInLen notAuxInLen => ?_,
    fun s i w hp hi => outputIgnored s hp .out (by simp [Buffer.IsInput]) i hi w,
    fun s i w hp hi => outputIgnored s hp .auxOut (by simp [Buffer.IsInput]) i hi w⟩
  · cases read
    exact ⟨s.respond_blockKept _, s.readBus_respond _ addr size⟩
  · rw [s.serve_write_reg high aligned (by simp only [cmdOffset]; omega), s.writeReg_ignored notInLen notAuxInLen]

/-- A byte written to IN or AUX_IN while IDLE, and its frame. -/
theorem State.serve_wrb_input {s : State} (hp : s.params.Legal) (idle : s.seq = .idle) {b : Buffer} (input : b.IsInput)
    {i : Nat} (hi : i < b.size s.params) (v : Byte) :
    ∃ t, s.serve (wrb b i v) = .next t ∧
      t.readBus (BitVec.ofNat 32 (b.base + i)) 1 = .value (v.setWidth 32) ∧
      (∀ a, a ≠ b.base + i → t.mem.read a = s.mem.read a) ∧ BlockKept s { t with mem := s.mem } := by
  have written := s.serve_write_at hp hi (v.setWidth 32)
  rw [BitVec.setWidth_setWidth_of_le v (by decide), BitVec.setWidth_eq, State.writeBuf_input idle input] at written
  refine ⟨_, written, ?_, fun a ha => ?_, .refl s⟩
  · refine State.readBus_stored (s := { s with mem := s.mem.write (b.base + i) v }) hp hi (State.shows_input _ input i) ?_
    exact (Memory.read_write ..).trans (if_pos rfl)
  · exact (Memory.read_write ..).trans (if_neg ha)

/-- Settles O36, for either input buffer alike. -/
theorem writtenBytesAreReadBack : Obligations.WrittenBytesAreReadBack := fun _ _ v hp idle =>
  ⟨fun hi => State.serve_wrb_input (b := .inp) hp idle (.inl rfl) hi v,
    fun hi => State.serve_wrb_input (b := .auxIn) hp idle (.inr rfl) hi v⟩

/-! ### Accesses while BUSY (20_memory R70, 43_dispatch R311) -/

theorem exec_busy {s : State} (busy : s.seq = .busy) (i : Instr) : exec i s = .next s := by
  by_cases nop : i = .nop
  · rw [nop]
    rfl
  · rw [exec_start nop, State.issue_busy busy]

/-- No access of the host but the reset touches a running block. -/
theorem Served.blockKept_of_busy {s t : State} {a : HostAccess} (served : Served s a t) (busy : s.seq = .busy) :
    BlockKept s t := by
  cases served with
  | same => exact .refl s
  | marked => exact s.markRefused_blockKept
  | answered r next ht => exact ht ▸ (s.respond_blockKept r).withPending next
  | register off w _ => rw [State.writeReg_busy busy]; exact .refl s
  | byte b i v _ => rw [State.writeBuf_busy busy]; exact .refl s
  | start w _ _ => rw [State.issue_busy busy]; exact .refl s

theorem State.serve_blockKept_of_busy {s t : State} {a : HostAccess} (busy : s.seq = .busy) (notReset : a ≠ .reset)
    (served : s.serve a = .next t) : BlockKept s t := by
  obtain ⟨u, servedU, effect⟩ := s.serve_cases notReset
  cases servedU.symm.trans served
  exact effect.blockKept_of_busy busy

/-- Settles O37: while BUSY writes are ignored, outputs are hidden and inputs are shown. -/
theorem accessesWhileBusy : Obligations.AccessesWhileBusy := by
  intro s hp busy
  have byteIgnored (b : Buffer) (i : Nat) (w : Word) (hi : i < b.size s.params) :
      s.serve (.write (BitVec.ofNat 32 (b.base + i)) 1 w) = .next s := by
    rw [s.serve_write_at hp hi, State.writeBuf_busy busy]
  have registerIgnored (off : Nat) (h : off < regSize ∧ off % 4 = 0 ∧ off ≠ cmdOffset) (w : Word) :
      s.serve (.write (BitVec.ofNat 32 off) 4 w) = .next s := by
    rw [s.serve_write_reg h.1 h.2.1 h.2.2, State.writeReg_busy busy]
  have notIdle : s.seq ≠ .idle := busy ▸ nofun
  refine ⟨byteIgnored .inp, byteIgnored .auxIn, fun w => ⟨?_, ?_, ?_⟩, fun a t notReset served => ?_,
    (statusLayout s).1.mpr busy, fun i hi => ?_, fun i hi => ?_, fun i v hi stored => ?_, fun i v hi stored => ?_⟩
  · exact registerIgnored 0x08 (by decide) w
  · exact registerIgnored 0x0C (by decide) w
  · exact (s.serve_write_cmd w).trans (exec_busy busy _)
  · have kept := State.serve_blockKept_of_busy busy notReset served
    exact ⟨kept.results, kept.inLen, kept.auxInLen⟩
  · exact State.readBus_hidden (b := .out) hp hi fun ⟨idle, _⟩ => notIdle idle
  · exact State.readBus_hidden (b := .auxOut) hp hi fun ⟨idle, _⟩ => notIdle idle
  · exact State.readBus_stored (b := .inp) hp hi trivial stored
  · exact State.readBus_stored (b := .auxIn) hp hi trivial stored

/-- Settles O38: a byte is drawn where it is hidden or unwritten. That the drawn value is `Config.freeByte` at the count of draws
(log 6) and is kept in a list (log 14) is the model's own choice. -/
theorem unspecifiedBytesAreDrawn : Obligations.UnspecifiedBytesAreDrawn := by
  intro s i hp
  refine ⟨fun hi above => ?_, fun hi above => ?_, fun hi => ?_, fun hi => ?_, fun hi => ?_, fun hi => ?_,
    fun v idle hi below => ?_, fun v idle hi below => ?_, fun addr size drawn => ?_⟩
  · exact State.readBus_hidden (b := .out) hp hi fun ⟨_, below⟩ => Nat.not_lt.mpr above below
  · exact State.readBus_hidden (b := .auxOut) hp hi fun ⟨_, below⟩ => Nat.not_lt.mpr above below
  · exact State.readBus_unwritten (b := .inp) hp hi
  · exact State.readBus_unwritten (b := .auxIn) hp hi
  · exact State.readBus_unwritten (b := .out) hp hi
  · exact State.readBus_unwritten (b := .auxOut) hp hi
  · exact State.readBus_stored (b := .out) hp hi ⟨idle, below⟩
  · exact State.readBus_stored (b := .auxOut) hp hi ⟨idle, below⟩
  · refine ⟨_, rfl, ?_⟩
    rw [drawn]
    exact ⟨rfl, rfl⟩

end Sys2Proof.Machine
end

section
/-!
PROOF of O29: what an operation reports is fixed by the parameters, the latches and the input string it reads, and no host access
while BUSY changes these. A result does not depend on the memory it is stored over.
-/

namespace Sys2Proof.Machine

/-! ### Results are fixed by what was latched and read (20_memory R67, 43_dispatch R332) -/

/-- The bytes of a stored result do not depend on what stood there before. -/
theorem State.bufByte_storeResult (s u : State) (c a : List Byte) (i : Nat) :
    (i < c.length → (s.storeResult c a).bufByte .out i = (u.storeResult c a).bufByte .out i) ∧
    (i < a.length → (s.storeResult c a).bufByte .auxOut i = (u.storeResult c a).bufByte .auxOut i) := by
  constructor <;> intro hi
  all_goals simp only [State.bufByte, State.storeResult_mem, Memory.read_writeRange, Nat.le_add_right,
    Nat.add_lt_add_iff_left, hi, and_self, if_true]

/-- A completion step reports the result stored and the latched ALG (43_dispatch R315, R323). -/
theorem State.complete_sameResults {s u : State} (algL : u.algL = s.algL) {c a : List Byte} {r : Results}
    (outLen : r.outLen = c.length) (auxOutLen : r.auxOutLen = a.length) (e : Byte) :
    SameResults ((s.storeResult c a).complete r e) ((u.storeResult c a).complete r e) := by
  have reported (bs : List Byte) {i : Nat} (hi : i < (BitVec.ofNat 32 bs.length).toNat) : i < bs.length :=
    Nat.lt_of_lt_of_le hi (Nat.mod_le _ _)
  constructor
  case algTag => simp [algL]
  case out => exact fun i hi => (s.bufByte_storeResult u c a i).1 (reported c (outLen ▸ hi))
  case auxOut => exact fun i hi => (s.bufByte_storeResult u c a i).2 (reported a (auxOutLen ▸ hi))
  all_goals rfl

theorem State.errorFinish_sameResults {s u : State} (algL : u.algL = s.algL) (e : CodecError) :
    SameResults (s.errorFinish e) (u.errorFinish e) :=
  State.complete_sameResults algL rfl rfl _

/-- What the results of an operation depend on, beside its input. -/
structure SameLatches (s u : State) : Prop where
  params : u.params = s.params
  algL : u.algL = s.algL
  nL : u.nL = s.nL

section
variable {s u : State} (same : SameLatches s u)
include same

theorem SameLatches.compressFinish (c a : List Byte) : SameResults (s.compressFinish c a) (u.compressFinish c a) := by
  unfold State.compressFinish
  rw [same.params, same.nL]
  split
  · exact State.errorFinish_sameResults same.algL _
  · exact State.complete_sameResults same.algL rfl rfl _

theorem SameLatches.decompressFinish (d : List Byte) : SameResults (s.decompressFinish d) (u.decompressFinish d) := by
  unfold State.decompressFinish
  rw [same.nL]
  exact State.complete_sameResults same.algL rfl rfl _

/-- A compress operation reads its input only where it is admitted (43_dispatch R314). -/
theorem SameLatches.runCompress (f : List Byte → List Byte × List Byte)
    (input : s.nL.toNat ≤ s.params.maxIn → u.input = s.input) : SameResults (s.runCompress f) (u.runCompress f) := by
  unfold State.runCompress State.admitted
  rw [same.params, same.nL]
  by_cases fits : s.nL.toNat ≤ s.params.maxIn
  · simp only [fits, input fits, decide_true, if_true]
    exact same.compressFinish _ _
  · simp only [fits, decide_false, Bool.false_eq_true, if_false]
    exact State.errorFinish_sameResults same.algL _

/-- So does a decompress operation. -/
theorem SameLatches.runDecompress (f : Nat → List Byte → Except CodecError (List Byte))
    (input : s.nL.toNat ≤ s.params.maxIn → u.input = s.input) : SameResults (s.runDecompress f) (u.runDecompress f) := by
  unfold State.runDecompress State.admitted
  rw [same.params, same.nL]
  by_cases fits : s.nL.toNat ≤ s.params.maxIn
  · simp only [fits, input fits, decide_true, if_true]
    cases f s.params.maxOut s.input with
    | error e => exact State.errorFinish_sameResults same.algL e
    | ok d => exact same.decompressFinish d
  · simp only [fits, decide_false, Bool.false_eq_true, if_false]
    exact State.errorFinish_sameResults same.algL _

/-- Every operation of 43_dispatch R313; an unsupported ALG reads no input (R330). -/
theorem SameLatches.operation {i : Instr} (hi : i ≠ .nop)
    (input : HasCoder i → s.nL.toNat ≤ s.params.maxIn → u.input = s.input) :
    SameResults (operationOf i s) (operationOf i u) := by
  cases i with
  | nop => exact absurd rfl hi
  | hufEnc =>
    simp only [operationOf, runHufEnc, same.params]
    exact same.runCompress _ (input (by simp [HasCoder]))
  | rleEnc =>
    simp only [operationOf, runRleEnc, same.params]
    exact same.runCompress _ (input (by simp [HasCoder]))
  | lzEnc => exact same.runCompress (fun inp => (lzEncode inp, [])) (input (by simp [HasCoder]))
  | hufDec => exact same.runDecompress _ (input (by simp [HasCoder]))
  | rleDec => exact same.runDecompress _ (input (by simp [HasCoder]))
  | lzDec => exact same.runDecompress _ (input (by simp [HasCoder]))
  | unsupEnc => exact State.errorFinish_sameResults same.algL _
  | unsupDec => exact State.errorFinish_sameResults same.algL _

end

/-- An input that is written does not depend on the free values of 20_memory R68. -/
theorem State.input_eq_of_written {s u : State} (nL : u.nL = s.nL)
    (bytes : ∀ i, i < s.nL.toNat → s.bufByte .inp i ≠ none ∧ u.bufByte .inp i = s.bufByte .inp i) :
    u.input = s.input := by
  unfold State.input
  rw [nL]
  refine List.map_congr_left fun i hi => ?_
  obtain ⟨written, same⟩ := bytes i (List.mem_range.mp hi)
  obtain ⟨v, stored⟩ := Option.ne_none_iff_exists'.mp written
  simp only [State.inputByte, same, stored, Option.getD_some]

theorem HasCoder.alg_lt {i : Instr} (h : HasCoder i) : i.alg.toNat < 3 := by
  rcases h with rfl | rfl | rfl | rfl | rfl | rfl <;> decide

/-- Settles O29: an access while BUSY keeps the latches and IN, and these fix the results. -/
theorem hostCannotDisturbAnOperation : Obligations.HostCannotDisturbAnOperation := by
  intro s t a busy _ notReset written served
  have kept := State.serve_blockKept_of_busy busy notReset served
  refine ⟨kept, ?_⟩
  have latches : SameLatches s t := ⟨kept.params, kept.algL, kept.nL⟩
  rw [s.completeLatched_eq, t.completeLatched_eq, kept.opL, kept.algL]
  refine latches.operation (selectInstr_ne_nop _ _) fun coder fits => ?_
  have supported : s.algL.toNat < 3 := selectInstr_alg s.opL s.algL ▸ coder.alg_lt
  refine State.input_eq_of_written kept.nL fun i hi => ⟨written supported fits i hi, ?_⟩
  rw [State.bufByte, State.bufByte, kept.mem]

end Sys2Proof.Machine
end

section
/-!
PROOF of O39: the bit packer. A byte is the number whose binary digits are its eight bits, the first bit the highest; strings go
byte by byte.
-/

namespace Sys2Proof.Machine

/-- Reading bits into a number from the highest down: bit k of the number is the bit read k places before the last. -/
theorem testBit_foldl_bits (f : Nat → Bool) (n k : Nat) :
    ((List.range n).foldl (fun acc t => 2 * acc + (f t).toNat) 0).testBit k = (decide (k < n) && f (n - 1 - k)) := by
  induction n generalizing k with
  | zero => simp
  | succ n ih =>
    rw [List.range_succ, List.foldl_append, List.foldl_cons, List.foldl_nil]
    cases k with
    | zero => cases h : f n <;> simp [Nat.testBit_zero, h]
    | succ k =>
      rw [Nat.testBit_succ, show ∀ m, (2 * m + (f n).toNat) / 2 = m from fun m => by cases f n <;> simp; omega, ih]
      simp [show n - (k + 1) = n - 1 - k by omega]

theorem byteOfBits_getLsbD (bits : List Bool) {t : Nat} (ht : t < 8) :
    (byteOfBits bits).getLsbD (7 - t) = bits.getD t false := by
  rw [byteOfBits, BitVec.getLsbD_ofNat, testBit_foldl_bits]
  simp [show 7 - t < 8 by omega, show 7 - (7 - t) = t by omega]

/-- Byte m of a packed string holds the eight bits from 8 m on. -/
theorem packBytes_getD (n : Nat) (bits : List Bool) (m : Nat) :
    (packBytes n bits).getD m 0 = if m < n then byteOfBits ((bits.drop (8 * m)).take 8) else 0 := by
  induction n generalizing bits m with
  | zero => simp [packBytes]
  | succ n ih =>
    cases m with
    | zero => simp [packBytes]
    | succ m =>
      rw [packBytes, List.getD_cons_succ, ih, List.drop_drop]
      simp [show 8 + 8 * m = 8 * (m + 1) by omega]

theorem pack_getLsbD (bits : List Bool) (j : Nat) :
    ((pack bits).getD (j / 8) 0).getLsbD (7 - j % 8) = bits.getD j false := by
  have inByte : j % 8 < 8 := Nat.mod_lt _ (by decide)
  rw [pack, packBytes_getD]
  split
  · rw [byteOfBits_getLsbD _ inByte]
    simp [inByte, Nat.div_add_mod]
  · have past : bits.length ≤ j := by omega
    simp [past]

@[simp] theorem bitsOfByte_length (b : Byte) : (bitsOfByte b).length = 8 := rfl

theorem unpack_cons (b : Byte) (p : List Byte) : unpack (b :: p) = bitsOfByte b ++ unpack p := rfl

theorem unpack_length (p : List Byte) : (unpack p).length = 8 * p.length := by
  induction p with
  | nil => rfl
  | cons b p ih => rw [unpack_cons, List.length_append, ih, bitsOfByte_length, List.length_cons]; omega

theorem unpack_getElem? (p : List Byte) {j : Nat} (hj : j < 8 * p.length) :
    (unpack p)[j]? = some ((p.getD (j / 8) 0).getLsbD (7 - j % 8)) := by
  induction p generalizing j with
  | nil => exact absurd hj (Nat.not_lt_zero j)
  | cons b p ih =>
    rw [unpack_cons]
    by_cases first : j < 8
    · rw [List.getElem?_append_left first]
      simp [bitsOfByte, first, Nat.div_eq_of_lt first, Nat.mod_eq_of_lt first]
    · obtain ⟨k, rfl⟩ := Nat.exists_eq_add_of_le' (Nat.le_of_not_lt first)
      rw [List.getElem?_append_right (by simp), bitsOfByte_length, Nat.add_sub_cancel,
        ih (by simp only [List.length_cons] at hj; omega), Nat.add_div_right k (by decide), Nat.add_mod_right,
        List.getD_cons_succ]

/-- Settles O39: packing bit by bit through the byte that holds the bit, unpacking by induction on the bytes. -/
theorem packedBitsAreMsbFirst : Obligations.PackedBitsAreMsbFirst :=
  ⟨fun bits => ⟨packBytes_length _ bits, pack_getLsbD bits⟩, fun p _ => unpack_getElem? p, unpack_length⟩

end Sys2Proof.Machine
end

section
/-!
PROOF of O3, O1, O2 and O4: command words. The decoder looks at the fields START, OP and ALG alone, so each row of the
command map (30_encoding R93) follows from decode of encode.
-/

namespace Sys2Proof.Machine

/-! ### The fields of a command word, and the mask of its unreserved bits (30_encoding R90, R92, R107) -/

theorem unreserved_getLsbD {i : Nat} (hi : i < 32) :
    (0x0000FF03 : Word).getLsbD i = decide (i < 2 ∨ 8 ≤ i ∧ i < 16) := by
  revert i; decide

theorem fieldOp_eq_iff {w : Word} {op : Op} : fieldOp w = op ↔ w.getLsbD 1 = decide (op = .decompress) := by
  unfold fieldOp
  cases w.getLsbD 1 <;> cases op <;> decide

theorem fieldAlg_getLsbD (w : Word) {i : Nat} (hi : i < 8) : (fieldAlg w).getLsbD i = w.getLsbD (8 + i) := by
  simp [fieldAlg, hi]

/-- Bits 7:0 of an assembled word are START and OP, the rest is ALG (R107). -/
theorem commandWord_getLsbD (op : Op) (alg : Byte) {i : Nat} (hi : i < 32) :
    (commandWord op alg).getLsbD i =
      if i < 8 then decide (i = 0 ∨ i = 1 ∧ op = .decompress) else alg.getLsbD (i - 8) := by
  have startOp : commandWord op alg = alg.setWidth 32 <<< 8 ||| (if op = .decompress then 3 else 1) := by
    cases op <;> exact BitVec.or_assoc ..
  have startOpBits : ((if op = .decompress then 3 else 1) : Word).getLsbD i =
      decide (i = 0 ∨ i = 1 ∧ op = .decompress) := by
    revert i; cases op <;> decide
  rw [startOp, BitVec.getLsbD_or, startOpBits]
  by_cases low : i < 8
  · simp [low]
  · simp [low, hi, show i ≠ 0 ∧ i ≠ 1 by omega]

theorem fieldOp_commandWord (op : Op) (alg : Byte) : fieldOp (commandWord op alg) = op := by
  rw [fieldOp_eq_iff, commandWord_getLsbD op alg (by decide)]
  simp

theorem fieldAlg_commandWord (op : Op) (alg : Byte) : fieldAlg (commandWord op alg) = alg := by
  apply BitVec.eq_of_getLsbD_eq
  intro i hi
  simp [fieldAlg_getLsbD _ hi, commandWord_getLsbD op alg (show 8 + i < 32 by omega)]

/-- The word R107 assembles from the fields of a START is the START without its reserved bits. -/
theorem commandWord_fields {w : Word} (start : w.getLsbD 0 = true) :
    commandWord (fieldOp w) (fieldAlg w) = w &&& 0x0000FF03 := by
  apply BitVec.eq_of_getLsbD_eq
  intro i hi
  rw [commandWord_getLsbD _ _ hi, BitVec.getLsbD_and, unreserved_getLsbD hi]
  rcases (by omega : i = 0 ∨ i = 1 ∨ 2 ≤ i ∧ i < 8 ∨ 8 ≤ i ∧ i < 16 ∨ 16 ≤ i) with
    rfl | rfl | reserved | alg | reserved
  · simp [start]
  · simpa using (fieldOp_eq_iff.mp rfl).symm
  · simp [reserved, show i ≠ 0 ∧ ¬ i < 2 ∧ ¬ 8 ≤ i ∧ i ≠ 1 by omega]
  · rw [if_neg (by omega), fieldAlg_getLsbD w (by omega), Nat.add_sub_cancel' alg.1]
    simp [alg]
  · rw [if_neg (by omega), BitVec.getLsbD_of_ge _ _ (by omega)]
    simp [show ¬ i < 2 ∧ ¬ i < 16 by omega]

/-! ### Commands and their fields (30_encoding R91, R93) -/

theorem encode_start {i : Instr} (h : i ≠ .nop) : encode i = commandWord i.op i.alg := by
  cases i with
  | nop => exact absurd rfl h
  | _ => rfl

/-- A well-formed START is the command its own OP and ALG select; an unsupported one because the six rows fail. -/
theorem selectInstr_op_alg {i : Instr} (h : i ≠ .nop) (wf : i.wf = true) : selectInstr i.op i.alg = i := by
  cases i with
  | nop => exact absurd rfl h
  | unsupEnc alg | unsupDec alg =>
    have unsupported : ¬ (alg = 0x00 ∨ alg = 0x01 ∨ alg = 0x02) := by rintro (rfl | rfl | rfl) <;> exact nomatch wf
    simp only [not_or] at unsupported
    simp only [selectInstr, Instr.op, Instr.alg, unsupported, if_false]
  | _ => rfl

theorem selectInstr_wf (op : Op) (alg : Byte) : (selectInstr op alg).wf = true := by
  revert alg; cases op <;> decide

theorem decodeCmd_commandWord (op : Op) (alg : Byte) : decodeCmd (commandWord op alg) = selectInstr op alg := by
  rw [decodeCmd_start (commandWord_getLsbD op alg (by decide)), fieldOp_commandWord, fieldAlg_commandWord]

theorem encode_selectInstr (op : Op) (alg : Byte) : encode (selectInstr op alg) = commandWord op alg := by
  rw [encode_start (selectInstr_ne_nop op alg), selectInstr_op, selectInstr_alg]

/-! ### Decode and encode -/

theorem decodeCmd_encode {i : Instr} (wf : i.wf = true) : decodeCmd (encode i) = i := by
  by_cases nop : i = .nop
  · subst nop; rfl
  · rw [encode_start nop, decodeCmd_commandWord, selectInstr_op_alg nop wf]

theorem encode_decodeCmd (w : Word) : encode (decodeCmd w) = if w.getLsbD 0 then w &&& 0x0000FF03 else 0 := by
  cases start : w.getLsbD 0 with
  | true => rw [decodeCmd_start start, encode_selectInstr, commandWord_fields start]; rfl
  | false => rw [decodeCmd_noStart start]; rfl

theorem decodeCmd_wf (w : Word) : (decodeCmd w).wf = true := by
  cases start : w.getLsbD 0 with
  | true => rw [decodeCmd_start start]; exact selectInstr_wf _ _
  | false => rw [decodeCmd_noStart start]; rfl

theorem decodeTableWord_toNat (w : Word) : decodeTableWord 32 w.toNat = some (decodeCmd w) := by
  have fits : ¬ 2 ^ 32 ≤ w.toNat := Nat.not_le.mpr w.isLt
  simp only [decodeTableWord, decodeBits, if_neg (Nat.lt_irrefl 32), if_neg fits, BitVec.ofNat_toNat,
    BitVec.setWidth_eq]

/-- Settles O3: a START is the word assembled from its fields. That the encoder writes reserved bits and a NOP as 0 is the
model's choice (log 19). -/
theorem decodeEncodeAgree : Obligations.DecodeEncodeAgree :=
  ⟨fun _ => decodeCmd_encode, encode_decodeCmd, decodeCmd_wf, decodeTableWord_toNat⟩

/-! ### Reserved bits and the rows of the map -/

theorem decodeCmd_and_unreserved (w : Word) : decodeCmd w = decodeCmd (w &&& 0x0000FF03) := by
  cases start : w.getLsbD 0 with
  | true => rw [decodeCmd_start start, ← commandWord_fields start, decodeCmd_commandWord]
  | false => rw [decodeCmd_noStart start, decodeCmd_noStart (by simpa using start)]

/-- Settles O2: a write to CMD is its command, and the command does not depend on the reserved bits. -/
theorem reservedCommandBitsIgnored : Obligations.ReservedCommandBitsIgnored := fun w =>
  ⟨decodeCmd_and_unreserved w, fun s => by
    calc s.serve (writeCmd w)
      _ = exec (decodeCmd w) s := s.serve_write_cmd w
      _ = exec (decodeCmd (w &&& 0x0000FF03)) s := by rw [← decodeCmd_and_unreserved]
      _ = s.serve (writeCmd (w &&& 0x0000FF03)) := (s.serve_write_cmd _).symm⟩

/-- A row with a fixed ALG: the match of the row is its encoded word. -/
theorem decodeCmd_of_match {w m : Word} {i : Instr} (wf : i.wf = true) (encoded : encode i = m)
    (row : w &&& 0x0000FF03 = m) : decodeCmd w = i := by
  rw [decodeCmd_and_unreserved, row, ← encoded, decodeCmd_encode wf]

/-- A word that matches START = 1 and OP is the command OP selects with the word's own ALG. -/
theorem decodeCmd_of_startOp_match {w m : Word} (op : Op) (startOp : commandWord op 0x00 = m)
    (row : w &&& 0x00000003 = m) : decodeCmd w = selectInstr op (fieldAlg w) := by
  have start : w.getLsbD 0 = true := by
    calc w.getLsbD 0
      _ = (w &&& 0x00000003).getLsbD 0 := by simp
      _ = true := by rw [row, ← startOp, commandWord_getLsbD _ _ (by decide)]; rfl
  have sameOp : fieldOp w = op := by
    calc fieldOp w
      _ = fieldOp (w &&& 0x00000003) := by simp [fieldOp]
      _ = op := by rw [row, ← startOp, fieldOp_commandWord]
  rw [decodeCmd_start start, sameOp]

theorem unsupEnc_wf {alg : Byte} (h : 3 ≤ alg.toNat) : (Instr.unsupEnc alg).wf = true := by
  simpa [Instr.wf, supportedAlg] using h

theorem unsupDec_wf {alg : Byte} (h : 3 ≤ alg.toNat) : (Instr.unsupDec alg).wf = true := by
  simpa [Instr.wf, supportedAlg] using h

/-- Settles O1, row by row: the six rows with a fixed ALG match their encoded word, the two unsupported rows START and OP. -/
theorem commandMapDecodes : Obligations.CommandMapDecodes := by
  intro w
  refine ⟨fun nop => decodeCmd_noStart ?_, decodeCmd_of_match rfl rfl, decodeCmd_of_match rfl rfl,
    decodeCmd_of_match rfl rfl, decodeCmd_of_match rfl rfl, decodeCmd_of_match rfl rfl, decodeCmd_of_match rfl rfl,
    fun enc alg => ?_, fun dec alg => ?_⟩
  · calc w.getLsbD 0
      _ = (w &&& 0x00000001).getLsbD 0 := by simp
      _ = false := by rw [nop]; rfl
  · exact (decodeCmd_of_startOp_match .compress rfl enc).trans
      (selectInstr_op_alg (i := .unsupEnc _) nofun (unsupEnc_wf alg))
  · exact (decodeCmd_of_startOp_match .decompress rfl dec).trans
      (selectInstr_op_alg (i := .unsupDec _) nofun (unsupDec_wf alg))

/-- Settles O4, by running the decoder on each word. -/
theorem sampleCommandWords : Obligations.SampleCommandWords := by
  unfold Obligations.SampleCommandWords
  decide

end Sys2Proof.Machine
end

section
/-!
PROOF of O45: codes and serialized trees. A code is the path to its leaf, and of two paths to different leaves neither begins
with the other. The parser takes exactly what the serializer wrote, and takes nothing else, so a tree cut short does not parse.
-/

namespace Sys2Proof.Machine

/-! ### Paths and codes (40_huffman R158, R159) -/

/-- Each leaf's value with the path from the root to it, 0 for left and 1 for right, in the order of the leaves. -/
def CodeTree.paths : CodeTree → List (Byte × List Bool)
  | .leaf v => [(v, [])]
  | .node l r => l.paths.map (fun e => (e.1, false :: e.2)) ++ r.paths.map (fun e => (e.1, true :: e.2))

/-- Below the root the code generator lists the paths. -/
theorem codesBelow_of_ne_nil (t : CodeTree) {p : List Bool} (below : p ≠ []) :
    codesBelow t p = t.paths.map (fun e => (e.1, p ++ e.2)) := by
  induction t generalizing p with
  | leaf v => simp [codesBelow, CodeTree.paths, below]
  | node l r ihl ihr => simp [codesBelow, CodeTree.paths, ihl, ihr, Function.comp_def]

theorem codeTable_leaf (v : Byte) : codeTable (.leaf v) = [(v, [false])] := rfl

theorem codeTable_node (l r : CodeTree) : codeTable (.node l r) = (CodeTree.node l r).paths := by
  simp [codeTable, codesBelow, codesBelow_of_ne_nil, CodeTree.paths]

theorem CodeTree.paths_map_fst (t : CodeTree) : t.paths.map Prod.fst = t.values := by
  induction t with
  | leaf v => rfl
  | node l r ihl ihr => simp [CodeTree.paths, CodeTree.values, Function.comp_def, ← ihl, ← ihr]

/-- Only leaves have paths, so no path goes on where another ends (R162). -/
theorem CodeTree.paths_prefixFree (t : CodeTree) : t.paths.Pairwise (fun a b => ¬ a.2 <+: b.2 ∧ ¬ b.2 <+: a.2) := by
  induction t with
  | leaf v => exact List.pairwise_singleton ..
  | node l r ihl ihr =>
    rw [CodeTree.paths, List.pairwise_append, List.pairwise_map, List.pairwise_map]
    refine ⟨by simpa [List.cons_prefix_cons] using ihl, by simpa [List.cons_prefix_cons] using ihr, fun a ha b hb => ?_⟩
    obtain ⟨a, -, rfl⟩ := List.mem_map.mp ha
    obtain ⟨b, -, rfl⟩ := List.mem_map.mp hb
    simp [List.cons_prefix_cons]

theorem codeTable_prefixFree (t : CodeTree) : (codeTable t).Pairwise (fun a b => ¬ a.2 <+: b.2 ∧ ¬ b.2 <+: a.2) := by
  cases t with
  | leaf v => exact List.pairwise_singleton ..
  | node l r => exact codeTable_node l r ▸ (CodeTree.node l r).paths_prefixFree

/-! ### Parsing (40_huffman R183) -/

theorem parseTree_leaf (fuel : Nat) (v : Byte) (rest : List Byte) :
    parseTree (fuel + 1) (0x01 :: v :: rest) = some (.leaf v, rest) := rfl

theorem parseTree_node (fuel : Nat) (rest : List Byte) :
    parseTree (fuel + 1) (0x00 :: rest) = (parseTree fuel rest).bind fun left =>
      (parseTree fuel left.2).map fun right => (.node left.1 right.1, right.2) := by
  cases left : parseTree fuel rest with
  | none => simp [parseTree, left]
  | some q => cases right : parseTree fuel q.2 <;> simp [parseTree, left, right]

theorem serialize_ne_nil (t : CodeTree) : serialize t ≠ [] := by
  cases t <;> simp [serialize]

theorem serialize_node_append (l r : CodeTree) (rest : List Byte) :
    serialize (.node l r) ++ rest = 0x00 :: (serialize l ++ (serialize r ++ rest)) := by simp [serialize]

/-- Parsing a serialized tree gives the tree back and stops at its end (R162). -/
theorem parseTree_serialize (t : CodeTree) (rest : List Byte) {fuel : Nat} (enough : (serialize t).length ≤ fuel) :
    parseTree fuel (serialize t ++ rest) = some (t, rest) := by
  induction t generalizing rest fuel with
  | leaf v =>
    obtain ⟨fuel, rfl⟩ := Nat.exists_eq_add_of_le' (Nat.le_of_succ_le enough)
    exact parseTree_leaf fuel v rest
  | node l r ihl ihr =>
    simp only [serialize, List.length_append, List.length_singleton] at enough
    obtain ⟨fuel, rfl⟩ := Nat.exists_eq_add_of_le' (show 1 ≤ fuel by omega)
    rw [serialize_node_append, parseTree_node, ihl _ (by omega), Option.bind_some, ihr _ (by omega)]
    rfl

/-- What parses is a serialized tree and the bytes left over. -/
theorem serialize_of_parseTree {fuel : Nat} {p rest : List Byte} {t : CodeTree} (parsed : parseTree fuel p = some (t, rest)) :
    p = serialize t ++ rest := by
  fun_induction parseTree fuel p generalizing t rest with
  | case1 | case2 | case3 | case5 | case6 | case8 => cases parsed
  | case4 fuel v rest' => cases parsed; rfl
  | case7 fuel rest' l afterLeft parsedLeft r afterRight parsedRight _ ihl ihr =>
    cases parsed
    rw [serialize_node_append, ihl parsedLeft, ihr parsedRight]

/-- If what is left of a tree cut short parsed, it would be a whole serialized tree, and the cut tree would parse to that (R162). -/
theorem parseTree_properPrefix {t : CodeTree} {p : List Byte} (isPrefix : p <+: serialize t) (proper : p ≠ serialize t)
    (fuel : Nat) : parseTree fuel p = none := by
  by_contra parses
  obtain ⟨⟨t', rest⟩, parsed⟩ := Option.ne_none_iff_exists'.mp parses
  have whole := serialize_of_parseTree parsed
  obtain ⟨more, split⟩ := isPrefix
  have same : some (t, []) = some (t', rest ++ more) := by
    calc some (t, [])
      _ = parseTree (serialize t).length (serialize t ++ []) := (parseTree_serialize t [] le_rfl).symm
      _ = parseTree (serialize t).length (serialize t' ++ (rest ++ more)) := by
        rw [List.append_nil, ← List.append_assoc, ← whole, split]
      _ = some (t', rest ++ more) := parseTree_serialize t' _ (by simp [← split, whole])
  simp only [Option.some.injEq, Prod.mk.injEq, List.nil_eq, List.append_eq_nil_iff] at same
  obtain ⟨rfl, rfl, rfl⟩ := same
  exact proper (by simpa using whole)

/-- Settles O45: codes are paths, and the parser is the serializer's inverse in both directions. -/
theorem serializedTreesParseBack : Obligations.SerializedTreesParseBack :=
  ⟨codeTable_prefixFree, fun t rest _ => parseTree_serialize t rest, fun _ _ fuel isPrefix proper =>
    parseTree_properPrefix isPrefix proper fuel⟩

end Sys2Proof.Machine
end

section
/-!
PROOF of O49 and O50: the containers of the tree decoder. The bit walk follows a code to its leaf and emits the leaf's value, so a
payload under any tree decodes to the string whose codes it begins with; what the header says of the container is read off
the tags before.
-/

namespace Sys2Proof.Machine

/-! ### Following a path (40_huffman R158, R185) -/

theorem CodeTree.mem_paths_nil {t : CodeTree} {v : Byte} : (v, []) ∈ t.paths ↔ t = .leaf v := by
  cases t <;> simp [CodeTree.paths, eq_comm]

/-- A path that goes on begins with a step to a child. -/
theorem CodeTree.mem_paths_cons {t : CodeTree} {v : Byte} {bit : Bool} {path : List Bool} :
    (v, bit :: path) ∈ t.paths ↔ (∃ l r, t = .node l r) ∧ (v, path) ∈ (t.child bit).paths := by
  cases t with
  | leaf w => simp [CodeTree.paths]
  | node l r => cases bit <;> simp [CodeTree.paths, CodeTree.child]

theorem CodeTree.ne_nil_of_mem_paths_node {l r : CodeTree} {v : Byte} {path : List Bool}
    (h : (v, path) ∈ (CodeTree.node l r).paths) : path ≠ [] := by
  rintro rfl
  cases CodeTree.mem_paths_nil.mp h

/-- A value of the tree has one of its paths as code. -/
theorem codeOf_mem_paths {l r : CodeTree} {v : Byte} (hv : v ∈ (CodeTree.node l r).values) :
    (v, codeOf (codeTable (.node l r)) v) ∈ (CodeTree.node l r).paths := by
  rw [codeTable_node, codeOf]
  cases found : (CodeTree.node l r).paths.lookup v with
  | none =>
    rw [← CodeTree.paths_map_fst] at hv
    obtain ⟨e, he, rfl⟩ := List.mem_map.mp hv
    simpa using List.lookup_eq_none_iff.mp found e he
  | some code =>
    obtain ⟨before, after, split, -⟩ := List.lookup_eq_some_iff.mp found
    rw [split]
    simp

/-- The bit walk follows a path that begins at an internal node and emits the value of its leaf. -/
theorem bitWalk_path (cap : Nat) (root : CodeTree) {node : CodeTree} {v : Byte} {path : List Bool}
    (h : (v, path) ∈ node.paths) (internal : path ≠ []) (more : List Bool) (need : Nat) (o : Output) :
    bitWalk cap root (path ++ more) node (need + 1) o = (o.emit cap v).bind (bitWalk cap root more root need) := by
  induction path generalizing node with
  | nil => exact absurd rfl internal
  | cons bit path ih =>
    obtain ⟨-, below⟩ := CodeTree.mem_paths_cons.mp h
    rw [List.cons_append, bitWalk]
    cases child : node.child bit with
    | leaf w =>
      rw [child] at below
      obtain ⟨rfl, rfl⟩ : v = w ∧ path = [] := by simpa [CodeTree.paths] using below
      simp only [List.nil_append]
      cases o.emit cap v <;> rfl
    | node l r =>
      rw [child] at below
      exact ih below (CodeTree.ne_nil_of_mem_paths_node below)

/-- Walking the codes of a string emits it (40_huffman R185). -/
theorem bitWalk_payloadBits (cap : Nat) {l r : CodeTree} {inp : List Byte} (coded : ∀ b ∈ inp, b ∈ (CodeTree.node l r).values)
    (more : List Bool) (need : Nat) (o : Output) :
    bitWalk cap (.node l r) (payloadBits (.node l r) inp ++ more) (.node l r) (inp.length + need) o =
      (o.emitAll cap inp).bind (bitWalk cap (.node l r) more (.node l r) need) := by
  induction inp generalizing o with
  | nil => simp [payloadBits, Output.emitAll, Except.bind]
  | cons b inp ih =>
    have path := codeOf_mem_paths (coded b (by simp))
    have bits : payloadBits (.node l r) (b :: inp) ++ more =
        codeOf (codeTable (.node l r)) b ++ (payloadBits (.node l r) inp ++ more) := by simp [payloadBits]
    rw [bits, List.length_cons, Nat.add_right_comm, bitWalk_path cap _ path (CodeTree.ne_nil_of_mem_paths_node path),
      Output.emitAll]
    cases o.emit cap b with
    | error e => rfl
    | ok o' => exact ih (fun c hc => coded c (by simp [hc])) o'

/-- With no byte left to produce the walk ends, whatever bits are left (R187). -/
theorem bitWalk_done (cap : Nat) (root : CodeTree) (bits : List Bool) (node : CodeTree) (o : Output) :
    bitWalk cap root bits node 0 o = .ok o := by
  cases bits <;> rfl

/-! ### Bytes and bits -/

/-- Unpacking a packed string gives its bits, and then the pad bits (40_huffman R142). -/
theorem prefix_unpack_pack (bits : List Bool) : bits <+: unpack (pack bits) := by
  rw [List.prefix_iff_getElem?]
  intro j hj
  have inside : j < 8 * (pack bits).length := by rw [pack, packBytes_length]; omega
  rw [unpack_getElem? _ inside, pack_getLsbD]
  simp [hj]

theorem rd16_be16 (n : Nat) : rd16 (BitVec.ofNat 8 (n / 256)) (BitVec.ofNat 8 n) = n % 65536 := by
  simp only [rd16, BitVec.toNat_ofNat]; omega

theorem rd24_be24 (n : Nat) :
    rd24 (BitVec.ofNat 8 (n / 65536)) (BitVec.ofNat 8 (n / 256)) (BitVec.ofNat 8 n) = n % 2 ^ 24 := by
  simp only [rd24, BitVec.toNat_ofNat]; omega

/-! ### What the decoder gives for each tag (40_huffman R178 to R188) -/

/-- A string emitted from nothing is the answer, if it fits. -/
theorem Output.finish_emitAll (cap : Nat) (bs : List Byte) :
    Output.finish (Output.empty.emitAll cap bs) = if bs.length ≤ cap then .ok bs else .error .capacityExceeded := by
  rw [Output.emitAll_eq (Nat.zero_le cap)]
  simp only [Output.empty, Nat.zero_add]
  split <;> simp [Output.finish, Output.bytes]

theorem Output.finish_emitN (cap : Nat) (b : Byte) (n : Nat) :
    Output.finish (Output.empty.emitN cap b n) =
      if n ≤ cap then .ok (List.replicate n b) else .error .capacityExceeded := by
  rw [Output.emitN_eq_emitAll, Output.finish_emitAll, List.length_replicate]

theorem hufDecode_nil (cap : Nat) : hufDecode cap [] = .ok [] := rfl

theorem hufDecode_single (cap : Nat) (v a b c : Byte) (rest : List Byte) :
    hufDecode cap (0xFF :: v :: a :: b :: c :: rest) =
      if rd24 a b c ≤ cap then .ok (List.replicate (rd24 a b c) v) else .error .capacityExceeded :=
  Output.finish_emitN cap v _

theorem hufDecode_fallback (cap : Nat) (rest : List Byte) :
    hufDecode cap (0xFE :: rest) = if rest.length ≤ cap then .ok rest else .error .capacityExceeded :=
  Output.finish_emitAll cap rest

theorem hufDecode_header (cap : Nat) (tl o1 o0 : Byte) (body : List Byte) :
    hufDecode cap (0x00 :: tl :: o1 :: o0 :: body) = Output.finish (decodeGeneral cap tl.toNat (rd16 o1 o0) body) := rfl

theorem hufDecode_otherTag (cap : Nat) {tag : Byte} (notGeneral : tag ≠ 0x00) (notFallback : tag ≠ 0xFE)
    (notSingle : tag ≠ 0xFF) (rest : List Byte) : hufDecode cap (tag :: rest) = .error .malformedInput := by
  simp only [hufDecode, notGeneral, notFallback, notSingle, if_false]

theorem hufDecode_single_short (cap : Nat) {rest : List Byte} (short : rest.length < 4) :
    hufDecode cap (0xFF :: rest) = .error .malformedInput := by
  match rest, short with
  | [], _ | [_], _ | [_, _], _ | [_, _, _], _ => rfl

theorem hufDecode_header_short (cap : Nat) {rest : List Byte} (short : rest.length < 3) :
    hufDecode cap (0x00 :: rest) = .error .malformedInput := by
  match rest, short with
  | [], _ | [_], _ | [_, _], _ => rfl

theorem decodeGeneral_region_short (cap : Nat) {tl : Nat} (ol : Nat) {body : List Byte} (short : body.length < tl) :
    decodeGeneral cap tl ol body = .error .malformedTree := if_pos short

/-- Where the tree region does not parse the tree is malformed (R183). -/
theorem decodeGeneral_malformed (cap ol : Nat) {region : List Byte} (malformed : parseTree region.length region = none)
    (payload : List Byte) : decodeGeneral cap region.length ol (region ++ payload) = .error .malformedTree := by
  simp [decodeGeneral, malformed]

/-- Settles O50, tag by tag. -/
theorem treeContainerTags : Obligations.TreeContainerTags :=
  ⟨fun cap _ rest general fallback single => hufDecode_otherTag cap general fallback single rest,
    fun cap _ => hufDecode_single_short cap, hufDecode_single, hufDecode_fallback, fun cap _ => hufDecode_header_short cap,
    fun cap tl o1 o0 body short => by rw [hufDecode_header, decodeGeneral_region_short cap _ short]; rfl⟩

/-! ### General containers (40_huffman R182 to R187) -/

/-- A general container is decoded with the tree its region begins with; the rest of the region is ignored (R187). -/
theorem decodeGeneral_serialize (cap ol : Nat) (root : CodeTree) (junk payload : List Byte) :
    decodeGeneral cap (serialize root ++ junk).length ol (serialize root ++ junk ++ payload) =
      decodeWithTree cap root ol payload := by
  rw [decodeGeneral, if_neg (by simp), List.take_left, List.drop_left, parseTree_serialize _ _ (by simp)]

/-- The same for the whole container, whose treeLen field holds the length of the region. -/
theorem hufDecode_serialize (cap : Nat) (root : CodeTree) (junk payload : List Byte) {tl : Byte} (o1 o0 : Byte)
    (region : (serialize root ++ junk).length = tl.toNat) :
    hufDecode cap (0x00 :: tl :: o1 :: o0 :: (serialize root ++ junk ++ payload)) =
      Output.finish (decodeWithTree cap root (rd16 o1 o0) payload) := by
  rw [hufDecode_header, ← region, decodeGeneral_serialize]

/-- A payload that begins with the codes of a string gives the string first, and then what the other bits give. -/
theorem decodeWithTree_node (cap : Nat) {l r : CodeTree} {inp payload : List Byte} {more : List Bool}
    (coded : ∀ b ∈ inp, b ∈ (CodeTree.node l r).values) (bits : unpack payload = payloadBits (.node l r) inp ++ more)
    (need : Nat) :
    decodeWithTree cap (.node l r) (inp.length + need) payload =
      (Output.empty.emitAll cap inp).bind (bitWalk cap (.node l r) more (.node l r) need) := by
  rw [decodeWithTree, bits, bitWalk_payloadBits cap coded]

/-- Under any tree, a one-leaf tree too (R184), a payload that begins with the codes of a string decodes to it. -/
theorem decodeWithTree_string (cap : Nat) {root : CodeTree} {inp payload : List Byte} (coded : ∀ b ∈ inp, b ∈ root.values)
    (bits : payloadBits root inp <+: unpack payload) :
    decodeWithTree cap root inp.length payload = Output.empty.emitAll cap inp := by
  cases root with
  | leaf v =>
    have copies : inp = List.replicate inp.length v := List.eq_replicate_iff.mpr ⟨rfl, by simpa [CodeTree.values] using coded⟩
    rw [decodeWithTree, Output.emitN_eq_emitAll, ← copies]
  | node l r =>
    obtain ⟨more, bits⟩ := bits
    have walk := decodeWithTree_node cap coded bits.symm 0
    rw [Nat.add_zero] at walk
    rw [walk]
    cases Output.empty.emitAll cap inp with
    | error e => rfl
    | ok o => exact bitWalk_done ..

/-- Settles O49: the region parses to its tree, and the payload begins with the codes of the string. -/
theorem anyTreeContainerDecodes : Obligations.AnyTreeContainerDecodes := by
  intro root inp junk more cap coded regionFits short fits
  have region : (serialize root ++ junk).length = (BitVec.ofNat 8 ((serialize root).length + junk.length)).toNat := by
    rw [List.length_append, BitVec.toNat_ofNat]; omega
  have bits : payloadBits root inp <+: unpack (pack (payloadBits root inp ++ more)) :=
    (List.prefix_append ..).trans (prefix_unpack_pack _)
  calc hufDecode cap ([0x00, BitVec.ofNat 8 ((serialize root).length + junk.length)] ++ be16 inp.length ++
        serialize root ++ junk ++ pack (payloadBits root inp ++ more))
    _ = hufDecode cap (0x00 :: BitVec.ofNat 8 ((serialize root).length + junk.length) ::
          BitVec.ofNat 8 (inp.length / 256) :: BitVec.ofNat 8 inp.length ::
          (serialize root ++ junk ++ pack (payloadBits root inp ++ more))) := by simp [be16]
    _ = Output.finish (decodeWithTree cap root inp.length (pack (payloadBits root inp ++ more))) := by
      rw [hufDecode_serialize _ _ _ _ _ _ region, rd16_be16, Nat.mod_eq_of_lt short]
    _ = .ok inp := by rw [decodeWithTree_string cap coded bits, Output.finish_emitAll, if_pos fits]

end Sys2Proof.Machine
end

section
/-!
PROOF of O40: the frequency table and the leaves. The entries of FREQ are the counts of all the byte values, so they sum to n, and
those that are not 0 are the distinct values of the input.
-/

namespace Sys2Proof.Machine

/-! ### The byte values in order -/

/-- The byte values, ascending: the indices of FREQ (40_huffman R150). -/
def byteValues : List Byte := (List.range 256).map (BitVec.ofNat 8)

theorem freqTable_eq (inp : List Byte) : freqTable inp = byteValues.map (fun v => (v, inp.count v)) := by
  simp [freqTable, byteValues]

theorem byteValues_getElem? (v : Byte) : byteValues[v.toNat]? = some v := by
  simp [byteValues, List.getElem?_range v.isLt]

theorem mem_byteValues (v : Byte) : v ∈ byteValues := List.mem_of_getElem? (byteValues_getElem? v)

theorem byteValues_ascending : byteValues.Pairwise (fun a b => a.toNat < b.toNat) := by
  refine List.pairwise_map.mpr (List.pairwise_lt_range.imp_of_mem fun ha hb below => ?_)
  have := List.mem_range.mp ha
  have := List.mem_range.mp hb
  simp only [BitVec.toNat_ofNat]
  omega

theorem nodup_of_ascending {l : List Byte} (ascending : l.Pairwise (fun a b => a.toNat < b.toNat)) : l.Nodup :=
  ascending.imp fun below same => by simp [same] at below

/-! ### Counts (40_huffman R150, R151) -/

theorem freqTable_sum (inp : List Byte) : ((freqTable inp).map Prod.snd).sum = inp.length := by
  calc ((freqTable inp).map Prod.snd).sum
    _ = (byteValues.map (fun v => inp.count v)).sum := by simp [freqTable_eq, Function.comp_def]
    _ = ∑ v ∈ byteValues.toFinset, inp.count v :=
      (List.sum_toFinset _ (nodup_of_ascending byteValues_ascending)).symm
    _ = inp.length := by
      simpa only [Multiset.coe_count, Multiset.coe_card] using
        Multiset.sum_count_eq_card (m := (inp : Multiset Byte)) fun v _ => List.mem_toFinset.mpr (mem_byteValues v)

theorem freqTable_getElem? (inp : List Byte) (v : Byte) : (freqTable inp)[v.toNat]? = some (v, inp.count v) := by
  rw [freqTable_eq, List.getElem?_map, byteValues_getElem?]
  rfl

theorem mem_presentEntries {inp : List Byte} {e : Byte × Nat} :
    e ∈ presentEntries inp ↔ e.1 ∈ inp ∧ e.2 = inp.count e.1 := by
  obtain ⟨v, n⟩ := e
  simp only [presentEntries, freqTable_eq, List.mem_filter, List.mem_map, mem_byteValues, true_and, Prod.mk.injEq,
    exists_eq_left, decide_eq_true_eq]
  constructor
  · rintro ⟨rfl, present⟩
    exact ⟨List.count_pos_iff.mp present, rfl⟩
  · rintro ⟨present, rfl⟩
    exact ⟨rfl, List.count_pos_iff.mpr present⟩

/-- The entries that are 0 add nothing. -/
theorem presentEntries_sum (inp : List Byte) : ((presentEntries inp).map Prod.snd).sum = inp.length := by
  have dropZeros (l : List (Byte × Nat)) : ((l.filter fun e => decide (0 < e.2)).map Prod.snd).sum = (l.map Prod.snd).sum := by
    induction l with
    | nil => rfl
    | cons e l ih =>
      by_cases zero : e.2 = 0
      · simp [zero, ih]
      · simp [Nat.pos_of_ne_zero zero, ih]
  exact (dropZeros _).trans (freqTable_sum inp)

theorem presentEntries_ascending (inp : List Byte) : (presentEntries inp).Pairwise (fun a b => a.1.toNat < b.1.toNat) := by
  rw [presentEntries, freqTable_eq]
  exact .filter _ (List.pairwise_map.mpr byteValues_ascending)

theorem presentEntries_length_le_length (inp : List Byte) : (presentEntries inp).length ≤ inp.length := by
  have atLeastOne : ∀ n ∈ (presentEntries inp).map Prod.snd, 1 ≤ n := by
    intro n hn
    obtain ⟨e, he, rfl⟩ := List.mem_map.mp hn
    obtain ⟨present, count⟩ := mem_presentEntries.mp he
    exact count ▸ List.count_pos_iff.mpr present
  calc (presentEntries inp).length
    _ = ((presentEntries inp).map Prod.snd).length := by simp
    _ ≤ ((presentEntries inp).map Prod.snd).sum := List.length_le_sum_of_one_le _ atLeastOne
    _ = inp.length := presentEntries_sum inp

theorem presentEntries_ne_nil {inp : List Byte} (nonempty : inp ≠ []) : presentEntries inp ≠ [] := by
  intro none
  have sum := presentEntries_sum inp
  rw [none] at sum
  exact nonempty (List.length_eq_zero_iff.mp sum.symm)

/-! ### Leaves (40_huffman R152) -/

theorem leaves_map_tree_weight (c : TreeChoices) (inp : List Byte) :
    (leaves c inp).map (fun x => (x.tree, x.weight)) = (presentEntries inp).map (fun e => (CodeTree.leaf e.1, e.2)) := by
  rw [leaves, List.map_map, ← List.zipIdx_map_fst 0 (presentEntries inp), List.map_map, List.zipIdx_map_fst]
  rfl

theorem leaves_map_seq (c : TreeChoices) (inp : List Byte) :
    (leaves c inp).map PoolNode.seq = List.range (presentEntries inp).length := by
  rw [List.range_eq_range', ← List.zipIdx_map_snd 0 (presentEntries inp), leaves, List.map_map]
  rfl

theorem leaves_map_rank (c : TreeChoices) (inp : List Byte) :
    (leaves c inp).map PoolNode.rank = (List.range (presentEntries inp).length).map c.rank := by
  rw [← leaves_map_seq c inp, leaves, List.map_map, List.map_map, List.map_map]
  rfl

@[simp] theorem leaves_length (c : TreeChoices) (inp : List Byte) : (leaves c inp).length = (presentEntries inp).length := by
  simp [leaves]

/-- Settles O40, from the count of each byte value. -/
theorem frequencyTable : Obligations.FrequencyTable := fun c inp =>
  ⟨freqTable_sum inp, by simp [freqTable], freqTable_getElem? inp,
    le_min (presentEntries_length_le_length inp) (presentEntries_length_le inp),
    fun nonempty => List.length_pos_iff.mpr (presentEntries_ne_nil nonempty), presentEntries_ascending inp,
    leaves_map_tree_weight c inp, leaves_map_seq c inp, leaves_map_rank c inp⟩

end Sys2Proof.Machine
end

section
/-!
PROOF of O41, O42, O43 and O44: the tree builder. The selection order is a strict order, total on nodes with different creation
numbers, so `takeFirst` takes its least node and one pass of the merge loop the two least. What a merge keeps of the set NODES
holds of the root.
-/

namespace Sys2Proof.Machine

/-! ### Selection (40_huffman R153, R156) -/

theorem PoolNode.Before.trans {a b c : PoolNode} (h : a.Before b) (h' : b.Before c) : a.Before c := by
  unfold PoolNode.Before at *
  omega

theorem PoolNode.before_of_not_before {a b : PoolNode} (different : a.seq ≠ b.seq) (h : ¬ b.Before a) : a.Before b := by
  unfold PoolNode.Before at *
  omega

theorem nodup_seq_perm {pool pool' : List PoolNode} (h : pool.Perm pool') :
    (pool.map PoolNode.seq).Nodup ↔ (pool'.map PoolNode.seq).Nodup := (h.map _).nodup_iff

theorem takeFirst_before (x : PoolNode) (rest : List PoolNode) (different : ((x :: rest).map PoolNode.seq).Nodup) :
    ∀ b ∈ (takeFirst x rest).2, (takeFirst x rest).1.Before b := by
  induction rest generalizing x with
  | nil => simp [takeFirst]
  | cons y ys ih =>
    /- The node taken from z and ys comes before every node that z comes before. -/
    have beforeSkipped (z skipped : PoolNode) (hz : ((z :: ys).map PoolNode.seq).Nodup) (h : z.Before skipped) :
        (takeFirst z ys).1.Before skipped := by
      rcases List.mem_cons.mp ((takeFirst_perm z ys).mem_iff.mpr (List.mem_cons_self ..)) with taken | left
      · exact taken ▸ h
      · exact (ih z hz z left).trans h
    have differentX : ((x :: ys).map PoolNode.seq).Nodup := different.sublist (by simp)
    have differentY : ((y :: ys).map PoolNode.seq).Nodup := different.sublist (by simp)
    have differentXY : x.seq ≠ y.seq := fun same => by simp [same] at different
    rw [takeFirst]
    split
    next first =>
      exact List.forall_mem_cons.mpr ⟨beforeSkipped y x differentY (y.precedes_iff x |>.mp first), ih y differentY⟩
    next first =>
      have h := PoolNode.before_of_not_before differentXY (mt (y.precedes_iff x).mpr first)
      exact List.forall_mem_cons.mpr ⟨beforeSkipped x y differentX h, ih x differentX⟩

/-- Settles O41. -/
theorem selectionTakesTheFirst : Obligations.SelectionTakesTheFirst := by
  intro x rest different
  have perm := takeFirst_perm x rest
  refine ⟨perm, takeFirst_before x rest different, fun noRanks b hb => ?_⟩
  have rank (n : PoolNode) (hn : n ∈ (takeFirst x rest).1 :: (takeFirst x rest).2) : n.rank = 0 :=
    noRanks n (perm.mem_iff.mp hn)
  exact (PoolNode.before_of_rank_eq ((rank _ (by simp)).trans (rank b (by simp [hb])).symm)).mp
    (takeFirst_before x rest different b hb)

/-! ### One pass of the merge loop (40_huffman R154) -/

/-- A pass merges two nodes of the set NODES; they are the first two of the selection order if the creation numbers differ. -/
theorem mergeAll_pass (c : TreeChoices) (merges seq : Nat) (x y : PoolNode) (ys : List PoolNode) :
    ∃ a b others, (a :: b :: others).Perm (x :: y :: ys) ∧
      mergeAll c (merges + 1) seq x (y :: ys) = mergeAll c merges (seq + 1) (mergeNodes c seq a b) others ∧
      (((x :: y :: ys).map PoolNode.seq).Nodup → a.Before b ∧ ∀ o ∈ others, b.Before o) := by
  have first := takeFirst_perm x (y :: ys)
  have firstBefore := takeFirst_before x (y :: ys)
  rw [mergeAll]
  split
  next a taken =>
    rw [taken] at first
    simpa using first.length_eq
  next a z zs taken =>
    rw [taken] at first firstBefore
    have second := takeFirst_perm z zs
    refine ⟨a, _, _, (second.cons a).trans first, rfl, fun different => ⟨?_, ?_⟩⟩
    · exact firstBefore different _ (second.mem_iff.mp (by simp))
    · exact takeFirst_before z zs ((nodup_seq_perm first).mpr different).of_cons

/-- Settles O42: without ranks the two nodes a pass merges are the first two of R153. -/
theorem mergeJoinsTheFirstTwo : Obligations.MergeJoinsTheFirstTwo := by
  intro merges seq x y ys different
  refine ⟨fun c => ?_, fun inp noRanks => ?_⟩
  · obtain ⟨a, b, others, perm, pass, order⟩ := mergeAll_pass c merges seq x y ys
    exact ⟨a, b, others, perm, (order different).1, (order different).2, pass⟩
  · obtain ⟨a, b, others, perm, pass, order⟩ := mergeAll_pass (creationOrder inp) merges seq x y ys
    have rank (n : PoolNode) (hn : n ∈ a :: b :: others) : n.rank = 0 := noRanks n (perm.mem_iff.mp hn)
    have sameRank {m n : PoolNode} (hm : m ∈ a :: b :: others) (hn : n ∈ a :: b :: others) : m.rank = n.rank :=
      (rank m hm).trans (rank n hn).symm
    obtain ⟨ab, bo⟩ := order different
    refine ⟨a, b, others, perm, ?_, fun o ho => ?_, pass⟩
    · exact (PoolNode.before_of_rank_eq (sameRank (by simp) (by simp))).mp ab
    · exact (PoolNode.before_of_rank_eq (sameRank (by simp) (by simp [ho]))).mp (bo o ho)

/-! ### What the merges keep (40_huffman R155, R157) -/

/-- What does not depend on the order of the nodes, and what a merge keeps, holds of the root if it holds of the leaves. -/
theorem mergeAll_keeps {P : List PoolNode → Prop} (c : TreeChoices)
    (perm : ∀ {pool pool'}, pool.Perm pool' → P pool → P pool')
    (merge : ∀ seq a b others, P (a :: b :: others) → P (mergeNodes c seq a b :: others)) (seq : Nat) (x : PoolNode)
    (rest : List PoolNode) (start : P (x :: rest)) : P [mergeAll c rest.length seq x rest] := by
  induction k : rest.length generalizing seq x rest with
  | zero =>
    obtain rfl := List.length_eq_zero_iff.mp k
    exact start
  | succ k' ih =>
    obtain ⟨y, ys, rfl⟩ := List.exists_cons_of_length_eq_add_one k
    obtain ⟨a, b, others, reorder, pass, -⟩ := mergeAll_pass c k' seq x y ys
    have length : others.length = k' := by
      have := reorder.length_eq
      simp only [List.length_cons] at this k
      omega
    rw [pass]
    exact ih (seq + 1) _ others (merge seq a b others (perm reorder.symm start)) length

theorem mergeAll_weight (c : TreeChoices) (seq : Nat) (x : PoolNode) (rest : List PoolNode) :
    (mergeAll c rest.length seq x rest).weight = ((x :: rest).map PoolNode.weight).sum := by
  have kept := mergeAll_keeps (P := fun pool => (pool.map PoolNode.weight).sum = ((x :: rest).map PoolNode.weight).sum) c
    (fun reorder h => (reorder.map _).sum_eq.symm.trans h)
    (fun seq a b others h => by simpa [mergeNodes, Nat.add_assoc] using h) seq x rest rfl
  simpa using kept

theorem mergeNodes_values (c : TreeChoices) (seq : Nat) (a b : PoolNode) :
    (mergeNodes c seq a b).tree.values.Perm (a.tree.values ++ b.tree.values) := by
  unfold mergeNodes
  split
  · exact List.perm_append_comm
  · exact .refl _

/-- The values at the leaves of all the trees in the builder's set NODES. -/
def poolValues (pool : List PoolNode) : List Byte := pool.flatMap (fun n => n.tree.values)

theorem poolValues_perm {pool pool' : List PoolNode} (h : pool.Perm pool') : (poolValues pool).Perm (poolValues pool') :=
  h.flatMap_right _

theorem poolValues_mergeNodes (c : TreeChoices) (seq : Nat) (a b : PoolNode) (others : List PoolNode) :
    (poolValues (mergeNodes c seq a b :: others)).Perm (poolValues (a :: b :: others)) := by
  simpa [poolValues] using (mergeNodes_values c seq a b).append_right (poolValues others)

/-- The root has the leaves it was built from. -/
theorem buildTree_values (c : TreeChoices) (x : PoolNode) (rest : List PoolNode) :
    (buildTree c x rest).values.Perm (poolValues (x :: rest)) := by
  have kept := mergeAll_keeps (P := fun pool => (poolValues pool).Perm (poolValues (x :: rest))) c
    (fun reorder h => (poolValues_perm reorder).symm.trans h)
    (fun seq a b others h => (poolValues_mergeNodes c seq a b others).trans h) (rest.length + 1) x rest (.refl _)
  simpa [poolValues, buildTree] using kept

/-- Each merge has the next creation number, so the last of them has that of the root. -/
theorem mergeAll_seq (c : TreeChoices) (seq : Nat) (x y : PoolNode) (ys : List PoolNode) :
    (mergeAll c (y :: ys).length seq x (y :: ys)).seq = seq + ys.length := by
  induction k : ys.length generalizing seq x y ys with
  | zero =>
    obtain ⟨a, b, others, -, pass, -⟩ := mergeAll_pass c 0 seq x y ys
    rw [List.length_cons, k, pass]
    rfl
  | succ k' ih =>
    obtain ⟨a, b, others, reorder, pass, -⟩ := mergeAll_pass c (k' + 1) seq x y ys
    have length : others.length = k' + 1 := by
      have := reorder.length_eq
      simp only [List.length_cons] at this
      omega
    obtain ⟨z, zs, rfl⟩ := List.exists_cons_of_length_eq_add_one length
    rw [List.length_cons] at length
    have last := ih (seq + 1) (mergeNodes c seq a b) z zs (by omega)
    rw [List.length_cons, length] at last
    rw [List.length_cons, k, pass, last]
    omega

/-! ### The tree of an input (40_huffman R157, R161) -/

theorem CodeTree.internalCount_succ (t : CodeTree) : t.internalCount + 1 = t.leafCount := by
  induction t with
  | leaf v => rfl
  | node l r ihl ihr => simp only [CodeTree.internalCount, CodeTree.leafCount]; omega

theorem CodeTree.depth_lt_leafCount (t : CodeTree) : t.depth + 1 ≤ t.leafCount := by
  induction t with
  | leaf v => exact le_rfl
  | node l r ihl ihr => simp only [CodeTree.depth, CodeTree.leafCount]; omega

section
variable {c : TreeChoices} {inp : List Byte} {x y : PoolNode} {rest : List PoolNode} (h : leaves c inp = x :: y :: rest)
include h

theorem buildTree_leafCount_of_leaves : (buildTree c x (y :: rest)).leafCount = (leaves c inp).length := by
  rw [buildTree_leafCount, ← h, totalLeaves_leaves, leaves_length]

theorem buildTree_values_of_leaves : (buildTree c x (y :: rest)).values.Perm ((presentEntries inp).map Prod.fst) := by
  have values : poolValues (leaves c inp) = (presentEntries inp).map Prod.fst := by
    have trees := congrArg (List.flatMap fun e : CodeTree × Nat => e.1.values) (leaves_map_tree_weight c inp)
    rw [poolValues, List.map_eq_flatMap]
    simpa [List.flatMap_map, CodeTree.values] using trees
  exact values ▸ h ▸ buildTree_values c x (y :: rest)

theorem mem_buildTree_values {v : Byte} : v ∈ (buildTree c x (y :: rest)).values ↔ v ∈ inp := by
  rw [(buildTree_values_of_leaves h).mem_iff, List.mem_map]
  constructor
  · rintro ⟨e, he, rfl⟩
    exact (mem_presentEntries.mp he).1
  · exact fun present => ⟨(v, inp.count v), mem_presentEntries.mpr ⟨present, rfl⟩, rfl⟩

/-- A tree of two or more leaves is no leaf. -/
theorem buildTree_node : ∃ l r, buildTree c x (y :: rest) = .node l r := by
  have leafCount := buildTree_leafCount_of_leaves h
  cases root : buildTree c x (y :: rest) with
  | leaf v => rw [root, h] at leafCount; simp [CodeTree.leafCount] at leafCount
  | node l r => exact ⟨l, r, rfl⟩

theorem root_weight : (mergeAll c (y :: rest).length ((y :: rest).length + 1) x (y :: rest)).weight = inp.length := by
  have weights : (leaves c inp).map PoolNode.weight = (presentEntries inp).map Prod.snd := by
    simpa [Function.comp_def] using congrArg (List.map Prod.snd) (leaves_map_tree_weight c inp)
  rw [mergeAll_weight, ← h, weights, presentEntries_sum]

end

/-- Settles O43, from the number of leaves and what the merges keep. -/
theorem treeOfAnInput : Obligations.TreeOfAnInput := by
  intro c inp x y rest h
  have leafCount := buildTree_leafCount_of_leaves h
  have length := serialize_length (buildTree c x (y :: rest))
  have k : (leaves c inp).length = rest.length + 2 := by rw [h]; rfl
  refine ⟨root_weight h, ?_, leafCount, leafCount ▸ CodeTree.internalCount_succ _, buildTree_values_of_leaves h,
    leafCount ▸ CodeTree.depth_lt_leafCount _, leafCount ▸ length, by omega⟩
  rw [mergeAll_seq, k, List.length_cons]
  omega

/-! ### The codes of an input (40_huffman R158, R159) -/

/-- A path leads to its leaf. -/
theorem CodeTree.foldl_child_of_mem_paths {t : CodeTree} {v : Byte} {path : List Bool} (h : (v, path) ∈ t.paths) :
    path.foldl CodeTree.child t = .leaf v := by
  induction path generalizing t with
  | nil => exact CodeTree.mem_paths_nil.mp h
  | cons bit path ih => exact ih (CodeTree.mem_paths_cons.mp h).2

/-- A path passes internal nodes before its end. -/
theorem CodeTree.foldl_child_of_properPrefix {t : CodeTree} {v : Byte} {path p : List Bool} (h : (v, path) ∈ t.paths)
    (isPrefix : p <+: path) (proper : p ≠ path) : ∃ l r, p.foldl CodeTree.child t = .node l r := by
  induction p generalizing t path with
  | nil =>
    obtain ⟨bit, path, rfl⟩ := List.exists_cons_of_ne_nil proper.symm
    exact (CodeTree.mem_paths_cons.mp h).1
  | cons bit p ih =>
    obtain ⟨more, rfl⟩ := isPrefix
    exact ih (CodeTree.mem_paths_cons.mp h).2 (List.prefix_append ..) (by simpa using proper)

theorem CodeTree.length_le_depth_of_mem_paths {t : CodeTree} {v : Byte} {path : List Bool} (h : (v, path) ∈ t.paths) :
    path.length ≤ t.depth := by
  induction path generalizing t with
  | nil => exact Nat.zero_le _
  | cons bit path ih =>
    obtain ⟨⟨l, r, rfl⟩, below⟩ := CodeTree.mem_paths_cons.mp h
    have := ih below
    cases bit <;> simp only [CodeTree.child, CodeTree.depth, List.length_cons] at this ⊢ <;> omega

theorem codeOf_eq_nil {l r : CodeTree} {v : Byte} (absent : v ∉ (CodeTree.node l r).values) :
    codeOf (codeTable (.node l r)) v = [] := by
  rw [codeTable_node, codeOf, List.lookup_eq_none_iff.mpr, Option.getD_none]
  intro e he
  rw [← CodeTree.paths_map_fst] at absent
  simpa using fun same : v = e.1 => absent (same ▸ List.mem_map_of_mem he)

/-- Settles O44: the codes of the values present are paths of the tree, the other values have none. -/
theorem codesLeadToTheirLeaves : Obligations.CodesLeadToTheirLeaves := by
  refine ⟨fun c inp x y rest h v => ?_, codeTable_leaf⟩
  have present : v ∈ (buildTree c x (y :: rest)).values ↔ 0 < inp.count v :=
    (mem_buildTree_values h).trans List.count_pos_iff.symm
  have depth := (buildTree c x (y :: rest)).depth_lt_leafCount
  rw [buildTree_leafCount_of_leaves h] at depth
  obtain ⟨l, r, root⟩ := buildTree_node h
  rw [root] at present depth ⊢
  by_cases hv : 0 < inp.count v
  · have path := codeOf_mem_paths (present.mpr hv)
    refine ⟨⟨fun _ => hv, fun _ => CodeTree.ne_nil_of_mem_paths_node path⟩, fun _ =>
      ⟨CodeTree.foldl_child_of_mem_paths path, fun p => CodeTree.foldl_child_of_properPrefix path⟩, ?_⟩
    have := CodeTree.length_le_depth_of_mem_paths path
    omega
  · have uncoded := codeOf_eq_nil (mt present.mp hv)
    have noBits : (codeOf (codeTable (.node l r)) v).length = 0 := by rw [uncoded, List.length_nil]
    exact ⟨⟨absurd uncoded, fun hv' => absurd hv' hv⟩, fun hv' => absurd hv' hv, by omega⟩

end Sys2Proof.Machine
end

section
/-!
PROOF of O46, O47 and O48: the tree encoder and its round trip. An input is empty, copies of one value, or has a tree with a leaf
for each of its values; the container of each kind is decoded by what its tag says.
-/

namespace Sys2Proof.Machine

/-! ### The three kinds of input (40_huffman R170) -/

/-- There are two leaves as soon as two values of the input differ (R151). -/
theorem two_le_presentEntries_iff (inp : List Byte) :
    2 ≤ (presentEntries inp).length ↔ ∃ a ∈ inp, ∃ b ∈ inp, a ≠ b := by
  have distinct : ((presentEntries inp).map Prod.fst).Nodup :=
    nodup_of_ascending (List.pairwise_map.mpr (presentEntries_ascending inp))
  have values : ((presentEntries inp).map Prod.fst).toFinset = inp.toFinset := by
    ext v
    simp only [List.mem_toFinset, List.mem_map, mem_presentEntries]
    exact ⟨fun ⟨e, he, hv⟩ => hv ▸ he.1, fun hv => ⟨(v, inp.count v), ⟨hv, rfl⟩, rfl⟩⟩
  rw [← List.length_map Prod.fst, ← List.toFinset_card_of_nodup distinct, values]
  show 1 < _ ↔ _
  simpa using Finset.one_lt_card (s := inp.toFinset)

theorem leaves_cons_cons_iff (c : TreeChoices) (inp : List Byte) :
    (∃ x y rest, leaves c inp = x :: y :: rest) ↔ ∃ a ∈ inp, ∃ b ∈ inp, a ≠ b := by
  rw [← two_le_presentEntries_iff, ← leaves_length c inp]
  constructor
  · rintro ⟨x, y, rest, h⟩
    simp [h]
  · intro two
    match leaves c inp, two with
    | x :: y :: rest, _ => exact ⟨x, y, rest, rfl⟩

theorem not_leaves_replicate (c : TreeChoices) (v : Byte) (n : Nat) (x y : PoolNode) (rest : List PoolNode) :
    leaves c (List.replicate n v) ≠ x :: y :: rest := fun h => by
  obtain ⟨a, ha, b, hb, different⟩ := (leaves_cons_cons_iff c _).mp ⟨x, y, rest, h⟩
  exact different ((List.eq_of_mem_replicate ha).trans (List.eq_of_mem_replicate hb).symm)

theorem input_kinds (c : TreeChoices) (inp : List Byte) :
    inp = [] ∨ (∃ v n, 1 ≤ n ∧ inp = List.replicate n v) ∨ ∃ x y rest, leaves c inp = x :: y :: rest := by
  cases inp with
  | nil => exact .inl rfl
  | cons v rest =>
    by_cases same : ∀ b ∈ v :: rest, b = v
    · exact .inr (.inl ⟨v, _, by simp, List.eq_replicate_iff.mpr ⟨rfl, same⟩⟩)
    · push Not at same
      obtain ⟨b, hb, different⟩ := same
      exact .inr (.inr ((leaves_cons_cons_iff c _).mpr ⟨b, hb, v, by simp, different⟩))

/-! ### The encoder's paths (40_huffman R171 to R176) -/

theorem hufEncode_nil (order : TreePolicy) : hufEncode order [] = ([], []) := rfl

theorem hufEncode_replicate (order : TreePolicy) (v : Byte) {n : Nat} (nonempty : 1 ≤ n) :
    hufEncode order (List.replicate n v) = ([0xFF, v] ++ be24 (n % 2 ^ 24), []) := by
  rcases hufEncode_cases order (List.replicate n v) with ⟨empty, -⟩ | ⟨w, head, single⟩ | ⟨x, y, rest, h, -⟩
  · rw [List.replicate_eq_nil_iff] at empty
    omega
  · obtain rfl : v = w := by simpa [List.head?_replicate, show n ≠ 0 by omega] using head
    rw [single, List.length_replicate]
    rfl
  · exact absurd h (not_leaves_replicate _ v n x y rest)

theorem hufEncode_of_leaves {order : TreePolicy} {inp : List Byte} {x y : PoolNode} {rest : List PoolNode}
    (h : leaves (order inp) inp = x :: y :: rest) :
    hufEncode order inp = encodeWithTree (buildTree (order inp) x (y :: rest)) inp := by
  cases inp with
  | nil =>
    obtain ⟨a, ha, -⟩ := (leaves_cons_cons_iff _ _).mp ⟨x, y, rest, h⟩
    cases ha
  | cons v inp => simp only [hufEncode, h]

/-- Settles O46, by the kind of the input and the size test. -/
theorem treeEncoderPaths : Obligations.TreeEncoderPaths := by
  intro order
  refine ⟨hufEncode_nil order, fun v n => hufEncode_replicate order v, fun inp a b ha hb different => ?_⟩
  obtain ⟨x, y, rest, h⟩ := (leaves_cons_cons_iff (order inp) inp).mpr ⟨a, ha, b, hb, different⟩
  refine ⟨x, y, rest, _, h, rfl, fun large => ?_, fun small => ?_⟩
  · rw [hufEncode_of_leaves h]
    exact if_pos large
  · rw [hufEncode_of_leaves h]
    exact if_neg (Nat.not_le.mpr small)

/-! ### Decoding the encoder's containers (40_huffman R190, R191) -/

/-- The single-symbol record gives as many copies as its length field says. -/
theorem hufDecode_hufEncode_replicate (order : TreePolicy) (v : Byte) {n cap : Nat} (nonempty : 1 ≤ n)
    (fits : n % 2 ^ 24 ≤ cap) : hufDecode cap (hufEncode order (List.replicate n v)).1 = .ok (List.replicate (n % 2 ^ 24) v) := by
  rw [hufEncode_replicate order v nonempty]
  refine (hufDecode_single cap v _ _ _ []).trans ?_
  rw [rd24_be24, Nat.mod_mod, if_pos fits]

/-- A general container, with its header fields: the tree's length and the input's, each cut to its width (R175). -/
theorem hufDecode_generalContainer (cap : Nat) (root : CodeTree) (inp : List Byte) :
    hufDecode cap (generalContainer root inp) =
      Output.finish (decodeGeneral cap ((serialize root).length % 256) (inp.length % 65536)
        (serialize root ++ pack (payloadBits root inp))) := by
  have header : generalContainer root inp = 0x00 :: BitVec.ofNat 8 (trunc 8 (serialize root).length) ::
      BitVec.ofNat 8 (trunc 16 inp.length / 256) :: BitVec.ofNat 8 (trunc 16 inp.length) ::
      (serialize root ++ pack (payloadBits root inp)) := by simp [generalContainer, be16]
  rw [header, hufDecode_header, rd16_be16]
  simp [trunc]

theorem payloadBits_append (root : CodeTree) (a b : List Byte) :
    payloadBits root (a ++ b) = payloadBits root a ++ payloadBits root b := List.flatMap_append

/-- Where the tree region holds the whole tree, the container gives as much of the input as its length field says. -/
theorem hufDecode_generalContainer_whole {cap : Nat} {root : CodeTree} {inp : List Byte} (coded : ∀ b ∈ inp, b ∈ root.values)
    (whole : (serialize root).length ≤ 255) (fits : inp.length % 65536 ≤ cap) :
    hufDecode cap (generalContainer root inp) = .ok (inp.take (inp.length % 65536)) := by
  have taken : (inp.take (inp.length % 65536)).length = inp.length % 65536 := by
    rw [List.length_take]
    exact min_eq_left (Nat.mod_le ..)
  have codes : payloadBits root (inp.take (inp.length % 65536)) <+: payloadBits root inp := by
    have split := payloadBits_append root (inp.take (inp.length % 65536)) (inp.drop (inp.length % 65536))
    rw [List.take_append_drop] at split
    exact split ▸ List.prefix_append ..
  have string := decodeWithTree_string cap (fun b hb => coded b (List.mem_of_mem_take hb))
    (codes.trans (prefix_unpack_pack (payloadBits root inp)))
  have region := decodeGeneral_serialize cap (inp.length % 65536) root [] (pack (payloadBits root inp))
  rw [List.append_nil] at region
  rw [taken] at string
  rw [hufDecode_generalContainer, Nat.mod_eq_of_lt (by omega), region, string, Output.finish_emitAll, taken, if_pos fits]

/-- A tree region cut by its length field does not hold the whole tree, and does not parse. -/
theorem hufDecode_generalContainer_cut (cap : Nat) {root : CodeTree} (inp : List Byte) (cut : 255 < (serialize root).length) :
    hufDecode cap (generalContainer root inp) = .error .malformedTree := by
  have shorter : (serialize root).length % 256 < (serialize root).length := by omega
  have region : ((serialize root).take ((serialize root).length % 256)).length = (serialize root).length % 256 := by
    rw [List.length_take]
    exact min_eq_left shorter.le
  have malformed := parseTree_properPrefix (List.take_prefix ((serialize root).length % 256) (serialize root))
    (fun whole => by rw [whole] at region; omega) ((serialize root).take ((serialize root).length % 256)).length
  have decoded := decodeGeneral_malformed cap (inp.length % 65536) malformed
    ((serialize root).drop ((serialize root).length % 256) ++ pack (payloadBits root inp))
  rw [region, ← List.append_assoc, List.take_append_drop] at decoded
  rw [hufDecode_generalContainer, decoded]
  rfl

/-- An auxiliary tree comes with a general container, whose tree has a leaf for every value of the input (R161, R176). -/
theorem general_of_aux {order : TreePolicy} {inp : List Byte} (aux : (hufEncode order inp).2 ≠ []) :
    ∃ root, (hufEncode order inp).1 = generalContainer root inp ∧ (∀ b ∈ inp, b ∈ root.values) ∧
      (serialize root).length + 1 = 3 * (presentEntries inp).length := by
  rcases hufEncode_cases order inp with ⟨-, h⟩ | ⟨v, -, h⟩ | ⟨x, y, rest, hl, h⟩
  · exact absurd (by rw [h]) aux
  · exact absurd (by rw [h]) aux
  · rcases encodeWithTree_cases (buildTree (order inp) x (y :: rest)) inp with ⟨-, h2⟩ | ⟨-, h2⟩
    · exact absurd (by rw [h, h2]) aux
    · refine ⟨_, by rw [h, h2], fun b hb => (mem_buildTree_values hl).mpr hb, ?_⟩
      rw [serialize_length, buildTree_leafCount_of_leaves hl, leaves_length]

/-- Settles O48: the copies of the length field, the cut tree, and the first bytes of the input. -/
theorem treeCoderBeyondItsDomain : Obligations.TreeCoderBeyondItsDomain := by
  intro order
  refine ⟨fun v n cap => hufDecode_hufEncode_replicate order v, fun inp cap aux many => ?_, fun inp cap aux few fits => ?_⟩
  · obtain ⟨root, container, -, length⟩ := general_of_aux aux
    rw [container, hufDecode_generalContainer_cut cap inp (by omega)]
  · obtain ⟨root, container, coded, length⟩ := general_of_aux aux
    rw [container, hufDecode_generalContainer_whole coded (by omega) fits]

/-- Where there is no auxiliary tree the container is empty, a single-symbol record or the fallback record. -/
theorem container_of_no_aux {order : TreePolicy} {inp : List Byte} (noAux : (hufEncode order inp).2 = []) :
    (∃ v n, inp = List.replicate n v) ∨ (hufEncode order inp).1 = 0xFE :: inp := by
  rcases input_kinds (order inp) inp with rfl | ⟨v, n, -, rfl⟩ | ⟨x, y, rest, h⟩
  · exact .inl ⟨0, 0, rfl⟩
  · exact .inl ⟨v, n, rfl⟩
  · rw [hufEncode_of_leaves h] at noAux ⊢
    rcases encodeWithTree_cases (buildTree (order inp) x (y :: rest)) inp with ⟨-, h2⟩ | ⟨-, h2⟩
    · exact .inr (by rw [h2])
    · rw [h2] at noAux
      exact absurd noAux (serialize_ne_nil _)

/-- Settles O47, by the container: single-symbol, fallback or general. -/
theorem treeCoderRoundTrip : Obligations.TreeCoderRoundTrip := by
  intro order inp cap fits domain
  have copies (v : Byte) (n : Nat) (hn : n ≤ cap) (short : n < 2 ^ 24) :
      hufDecode cap (hufEncode order (List.replicate n v)).1 = .ok (List.replicate n v) := by
    cases n with
    | zero => exact hufDecode_nil cap
    | succ n =>
      have decoded := hufDecode_hufEncode_replicate order v (n := n + 1) (cap := cap) (by omega) (by omega)
      rwa [Nat.mod_eq_of_lt short] at decoded
  have fallback (record : (hufEncode order inp).1 = 0xFE :: inp) : hufDecode cap (hufEncode order inp).1 = .ok inp := by
    rw [record, hufDecode_fallback, if_pos fits]
  rcases domain with rfl | ⟨v, n, rfl, short⟩ | record | ⟨short, few⟩
  · exact hufDecode_nil cap
  · exact copies v n (by simpa using fits) short
  · exact fallback record
  · by_cases aux : (hufEncode order inp).2 = []
    · rcases container_of_no_aux aux with ⟨v, n, rfl⟩ | record
      · rw [List.length_replicate] at short fits
        exact copies v n fits (by omega)
      · exact fallback record
    · have general := (treeCoderBeyondItsDomain order).2.2 inp cap aux few (by omega)
      rwa [Nat.mod_eq_of_lt short, List.take_length] at general

end Sys2Proof.Machine
end

section
/-!
PROOF of O10 and O13: HUF.ENC and HUF.DEC. In a ready state a command runs its operation over the loaded input and completes; what
it reports and its frame hold for every compress and every decompress operation.
-/

namespace Sys2Proof.Machine

theorem exec_ready {s : State} (ready : s.Ready) {i : Instr} (start : i ≠ .nop) :
    exec i s = .next (operationOf i (s.accept i.op i.alg)) := by
  rw [exec_start start, State.issue_ready ready]

/-- Accepting a START changes nothing that the frame of an operation speaks of. -/
theorem OperationFrame.of_accept {s t : State} {op : Op} {alg : Byte} (frame : OperationFrame (s.accept op alg) t) :
    OperationFrame s t :=
  ⟨frame.params, frame.inLen, frame.auxInLen, frame.pending, frame.received, frame.bytes⟩

theorem State.HoldsInput.accept_nL {s : State} {inp : List Byte} (input : s.HoldsInput inp) (op : Op) (alg : Byte) :
    (s.accept op alg).nL.toNat = inp.length := by
  obtain ⟨length, -⟩ := input
  exact length

/-- A loaded input passes the admission check (43_dispatch R314). -/
theorem State.HoldsInput.accept_admitted {s : State} {inp : List Byte} (input : s.HoldsInput inp) (op : Op) (alg : Byte) :
    ¬ (s.accept op alg).params.maxIn < (s.accept op alg).nL.toNat := by
  obtain ⟨length, fits, -⟩ := input
  exact Nat.not_lt.mpr (length.trans_le fits)

section
variable {s : State} {inp : List Byte} (hp : s.params.Legal) (input : s.HoldsInput inp) (op : Op) (alg : Byte)
include hp input

/-- What a compress operation reports of its encoder's answer (43_dispatch R316, R318), and its frame. -/
theorem State.accept_runCompress (f : List Byte → List Byte × List Byte)
    (bounds : (f inp).1.length ≤ inp.length + 4 ∧ (f inp).2.length ≤ inp.length) :
    OperationFrame s ((s.accept op alg).runCompress f) ∧ ((s.accept op alg).runCompress f).refused = s.refused ∧
      CompressOutcome s.params ((s.accept op alg).runCompress f) inp.length (f inp).1 (f inp).2 alg := by
  have length := State.HoldsInput.accept_nL input op alg
  have inRegion {k : Nat} (h : k ≤ inp.length + 4) : k ≤ regionSpan := by
    obtain ⟨-, maxIn, -⟩ := hp
    obtain ⟨-, fits, -⟩ := input
    simp only [regionSpan]
    omega
  have container := inRegion bounds.1
  have tree := inRegion (bounds.2.trans (Nat.le_add_right _ 4))
  rcases (s.accept op alg).runCompress_cases f with ⟨long, -⟩ | ⟨-, run⟩
  · exact absurd long (State.HoldsInput.accept_admitted input op alg)
  · rw [run, State.accept_input input]
    refine ⟨(State.compressFinish_frame _ _ _ container tree).of_accept,
      (State.compressFinish_ends _ _ _).refused.trans (State.accept_refused_loaded input op alg), ?_⟩
    rw [← length]
    by_cases guard : s.params.guardMode = .fault ∧ (s.accept op alg).nL.toNat < (f inp).1.length
    · refine .inl ⟨guard.1, guard.2, ?_⟩
      rw [State.compressFinish_guard _ _ _ guard]
      exact State.errorFinish_failed _ _
    · exact .inr ⟨guard, State.compressFinish_compressed _ _ _ guard container tree⟩

/-- What a decompress operation reports of its decoder's answer (43_dispatch R326, R329), and its frame. -/
theorem State.accept_runDecompress (f : Nat → List Byte → Except CodecError (List Byte))
    (bound : ∀ d, f s.params.maxOut inp = .ok d → d.length ≤ s.params.maxOut) :
    OperationFrame s ((s.accept op alg).runDecompress f) ∧ ((s.accept op alg).runDecompress f).refused = s.refused ∧
      DecompressOutcome ((s.accept op alg).runDecompress f) inp.length (f s.params.maxOut inp) alg := by
  have length := State.HoldsInput.accept_nL input op alg
  have refused := State.accept_refused_loaded input op alg
  have cases := (s.accept op alg).runDecompress_cases f
  rw [State.accept_input input, State.accept_params] at cases
  rcases cases with ⟨long, -⟩ | ⟨-, ⟨e, answer, run⟩ | ⟨d, answer, run⟩⟩
  · exact absurd long (State.HoldsInput.accept_admitted input op alg)
  · rw [run, answer]
    exact ⟨(State.errorFinish_frame _ e).of_accept, refused, State.errorFinish_failed _ e⟩
  · obtain ⟨-, -, -, maxOut, -⟩ := hp
    have fits : d.length ≤ regionSpan := (bound d answer).trans maxOut
    rw [run, answer, ← length]
    exact ⟨(State.decompressFinish_frame _ d fits).of_accept, refused, State.decompressFinish_decompressed _ d fits⟩

end

/-- Settles O10: HUF.ENC is a compress operation under the machine's tree order. -/
theorem hufEncCompletes : Obligations.HufEncCompletes := by
  intro s inp hp ready input
  exact ⟨_, exec_ready ready nofun, State.accept_runCompress hp input _ _ _ (hufEncode_bounds _ _)⟩

/-- Settles O13: HUF.DEC is a decompress operation whose decoder never gives more than P_MAX_OUT bytes. -/
theorem hufDecCompletes : Obligations.HufDecCompletes := by
  intro s inp hp ready input
  exact ⟨_, exec_ready ready nofun, State.accept_runDecompress hp input _ _ _ fun _ => hufDecode_fits⟩

end Sys2Proof.Machine
end

section
/-!
PROOF of O59: which errors a decoder raises. Emitting raises CAPACITY_EXCEEDED alone; a loop of a decoder adds MALFORMED_INPUT, and
the general path of HUF.DEC MALFORMED_TREE. When that path raises which follows from the parser and the bit walk.
-/

namespace Sys2Proof.Machine

/-! ### Errors of emitting (60_exceptions R355) -/

theorem Output.emit_error {cap : Nat} {o : Output} {b : Byte} {e : CodecError} (h : o.emit cap b = .error e) :
    e = .capacityExceeded := by
  unfold Output.emit at h
  split at h <;> cases h
  rfl

theorem Output.emitAll_error {cap : Nat} {o : Output} {bs : List Byte} {e : CodecError} (h : o.emitAll cap bs = .error e) :
    e = .capacityExceeded := by
  fun_induction Output.emitAll cap o bs with
  | case1 => cases h
  | case2 o b bs e' full => cases h; exact Output.emit_error full
  | case3 o b bs o' emitted ih => exact ih h

theorem Output.emitN_error {cap : Nat} {o : Output} {b : Byte} {n : Nat} {e : CodecError} (h : o.emitN cap b n = .error e) :
    e = .capacityExceeded := Output.emitAll_error (Output.emitN_eq_emitAll cap o b n ▸ h)

theorem Output.copyBack_error {cap d n : Nat} {o : Output} {e : CodecError} (h : o.copyBack cap d n = .error e) :
    e = .capacityExceeded := by
  fun_induction Output.copyBack cap o d n with
  | case1 => cases h
  | case2 o l e' full => cases h; exact Output.emit_error full
  | case3 o l o' emitted ih => exact ih h

theorem Output.emitNext_error {cap : Nat} {o : Output} {c : Byte} {e : CodecError} (h : o.emitNext cap c = .error e) :
    e = .capacityExceeded := by
  unfold Output.emitNext at h
  split at h
  · cases h
  · exact Output.emit_error h

theorem Output.finish_error {r : Except CodecError Output} {e : CodecError} (h : Output.finish r = .error e) : r = .error e := by
  cases r <;> cases h
  rfl

/-! ### Errors of the decoders (60_exceptions R352, R353, R355) -/

/-- The errors of a decoder's loop over its container. -/
def FormatOrCapacity (e : CodecError) : Prop := e = .malformedInput ∨ e = .capacityExceeded

theorem Output.applyMatch_error {cap d l : Nat} {o : Output} {c : Byte} {e : CodecError} (h : o.applyMatch cap d l c = .error e) :
    FormatOrCapacity e := by
  unfold Output.applyMatch at h
  split at h
  · cases h; exact .inl rfl
  · cases copied : o.copyBack cap d l with
    | error e' => rw [copied] at h; cases h; exact .inr (Output.copyBack_error copied)
    | ok o' => rw [copied] at h; exact .inr (Output.emitNext_error h)

theorem rleDecodeTokens_error {cap : Nat} {buf : List Byte} {o : Output} {e : CodecError}
    (h : rleDecodeTokens cap buf o = .error e) : FormatOrCapacity e := by
  fun_induction rleDecodeTokens cap buf o with
  | case1 => cases h
  | case2 | case5 => cases h; exact .inl rfl
  | case3 _ _ _ _ _ _ full => cases h; exact .inr (Output.emitN_error full)
  | case4 _ _ _ _ _ _ _ ih => exact ih h
  | case6 _ _ _ _ _ full => cases h; exact .inr (Output.emit_error full)
  | case7 _ _ _ _ _ _ ih => exact ih h

theorem lzDecodeTokens_error {cap : Nat} {buf : List Byte} {o : Output} {e : CodecError}
    (h : lzDecodeTokens cap buf o = .error e) : FormatOrCapacity e := by
  fun_induction lzDecodeTokens cap buf o with
  | case1 => cases h
  | case2 _ _ _ _ full => cases h; exact .inr (Output.emit_error full)
  | case3 _ _ _ _ _ ih => exact ih h
  | case4 | case7 | case8 => cases h; exact .inl rfl
  | case5 _ _ _ _ _ _ _ failed => cases h; exact Output.applyMatch_error failed
  | case6 _ _ _ _ _ _ _ _ _ ih => exact ih h

theorem rleDecode_error {cap : Nat} {buf : List Byte} {e : CodecError} (h : rleDecode cap buf = .error e) :
    FormatOrCapacity e := by
  unfold rleDecode at h
  split at h
  · cases h
  · split at h
    · exact .inr (Output.emitAll_error (Output.finish_error h))
    · exact rleDecodeTokens_error (Output.finish_error h)

theorem lzDecode_error {cap : Nat} {buf : List Byte} {e : CodecError} (h : lzDecode cap buf = .error e) :
    FormatOrCapacity e := by
  unfold lzDecode at h
  split at h
  · cases h
  · split at h
    · exact .inr (Output.emitAll_error (Output.finish_error h))
    · exact lzDecodeTokens_error (Output.finish_error h)

theorem bitWalk_error {cap : Nat} {root : CodeTree} {bits : List Bool} {node : CodeTree} {need : Nat} {o : Output} {e : CodecError}
    (h : bitWalk cap root bits node need o = .error e) : FormatOrCapacity e := by
  fun_induction bitWalk cap root bits node need o with
  | case1 => cases h
  | case2 => cases h; exact .inl rfl
  | case3 _ _ _ _ _ _ _ _ full => cases h; exact .inr (Output.emit_error full)
  | case4 _ _ _ _ _ _ _ _ _ ih => exact ih h
  | case5 _ _ _ _ _ _ _ _ ih => exact ih h

theorem decodeWithTree_error {cap ol : Nat} {root : CodeTree} {payload : List Byte} {e : CodecError}
    (h : decodeWithTree cap root ol payload = .error e) : FormatOrCapacity e := by
  cases root with
  | leaf v => exact .inr (Output.emitN_error h)
  | node l r => exact bitWalk_error h

theorem decodeGeneral_error {cap tl ol : Nat} {body : List Byte} {e : CodecError}
    (h : decodeGeneral cap tl ol body = .error e) : e = .malformedTree ∨ FormatOrCapacity e := by
  unfold decodeGeneral at h
  split at h
  · cases h; exact .inl rfl
  · split at h
    · cases h; exact .inl rfl
    · exact .inr (decodeWithTree_error h)

theorem hufDecode_error {cap : Nat} {buf : List Byte} {e : CodecError} (h : hufDecode cap buf = .error e) :
    e = .malformedTree ∨ FormatOrCapacity e := by
  unfold hufDecode at h
  split at h
  · cases h
  · split at h
    · split at h
      · exact .inr (.inr (Output.emitN_error (Output.finish_error h)))
      · cases h; exact .inr (.inl rfl)
    · split at h
      · exact .inr (.inr (Output.emitAll_error (Output.finish_error h)))
      · split at h
        · split at h
          · exact decodeGeneral_error (Output.finish_error h)
          · cases h; exact .inr (.inl rfl)
        · cases h; exact .inr (.inl rfl)

/-! ### Tree regions that do not hold a whole tree (40_huffman R183) -/

/-- What can stand where a node record should: nothing, a leaf's tag without its value, or a tag 0x02 to 0xFF. -/
def NoNodeRecord (tail : List Byte) : Prop :=
  tail = [] ∨ tail = [0x01] ∨ ∃ tag more, tail = tag :: more ∧ 2 ≤ BitVec.toNat (w := 8) tag

theorem NoNodeRecord.ne_serialize_append {tail : List Byte} (h : NoNodeRecord tail) (t : CodeTree) (rest : List Byte) :
    tail ≠ serialize t ++ rest := by
  rcases h with rfl | rfl | ⟨tag, more, rfl, badTag⟩
  · exact fun empty => serialize_ne_nil t (List.append_eq_nil_iff.mp empty.symm).1
  · cases t <;> simp [serialize]
  · have notNode : tag ≠ 0#8 := by rintro rfl; exact absurd badTag (by decide)
    have notLeaf : tag ≠ 1#8 := by rintro rfl; exact absurd badTag (by decide)
    cases t <;> simp [serialize, notNode, notLeaf]

/-- Node records that leave trees missing, and then no node record, are not those trees. -/
theorem records_ne_serialize (recs : List (Option Byte)) {tail : List Byte} (ends : NoNodeRecord tail) (trees : List CodeTree)
    (missing : 0 < missingNodes trees.length recs) (rest : List Byte) :
    recs.flatMap nodeRecord ++ tail ≠ trees.flatMap serialize ++ rest := by
  induction recs generalizing trees with
  | nil =>
    cases trees with
    | nil => exact absurd missing (by simp [missingNodes])
    | cons t trees => simpa using ends.ne_serialize_append t (trees.flatMap serialize ++ rest)
  | cons rec recs ih =>
    cases trees with
    | nil => exact absurd missing (by simp [missingNodes])
    | cons t trees =>
      cases rec with
      | some v =>
        cases t with
        | leaf w => simpa [nodeRecord, serialize] using fun _ => ih trees missing
        | node l r => simp [nodeRecord, serialize]
      | none =>
        cases t with
        | leaf w => simp [nodeRecord, serialize]
        | node l r => simpa [nodeRecord, serialize] using ih (l :: r :: trees) missing

theorem parseTree_records {recs : List (Option Byte)} (missing : 0 < missingNodes 1 recs) {tail : List Byte}
    (ends : NoNodeRecord tail) (fuel : Nat) : parseTree fuel (recs.flatMap nodeRecord ++ tail) = none := by
  by_contra parses
  obtain ⟨⟨t, rest⟩, parsed⟩ := Option.ne_none_iff_exists'.mp parses
  exact records_ne_serialize recs ends [t] missing rest (by simpa using serialize_of_parseTree parsed)

/-! ### Payloads that end too early, and outputs that do not fit (40_huffman R186, 60_exceptions R355) -/

/-- Steps below a leaf stay there. -/
theorem CodeTree.foldl_child_leaf (v : Byte) (bits : List Bool) : bits.foldl CodeTree.child (.leaf v) = .leaf v := by
  induction bits with
  | nil => rfl
  | cons bit bits ih => exact ih

/-- Bits that end at an internal node give no byte. -/
theorem bitWalk_exhausted (cap : Nat) (root : CodeTree) {bits : List Bool} {node : CodeTree}
    (inside : ∃ l r, bits.foldl CodeTree.child node = .node l r) (need : Nat) (o : Output) :
    bitWalk cap root bits node (need + 1) o = .error .malformedInput := by
  induction bits generalizing node with
  | nil => rfl
  | cons bit bits ih =>
    obtain ⟨l, r, inside⟩ := inside
    rw [List.foldl_cons] at inside
    rw [bitWalk]
    cases child : node.child bit with
    | leaf v =>
      rw [child, CodeTree.foldl_child_leaf] at inside
      cases inside
    | node l' r' => exact ih ⟨l, r, child ▸ inside⟩

/-- Settles O59, clause by clause. -/
theorem decoderErrorKinds : Obligations.DecoderErrorKinds := by
  refine ⟨fun cap recs tail payload tl o1 o0 missing ends region => ?_, fun cap v junk payload tl o1 o0 region => ?_,
    fun cap l r inp junk payload extra tl o1 o0 region coded bits => ?_, fun cap buf e => hufDecode_error,
    fun cap buf e h => h.elim lzDecode_error rleDecode_error, fun cap => ⟨rfl, rfl, rfl⟩⟩
  · rw [hufDecode_header, ← region, decodeGeneral_malformed cap _ (parseTree_records missing ends _)]
    rfl
  · rw [hufDecode_serialize cap _ junk payload o1 o0 region]
    exact Output.finish_emitN cap v _
  · have decoded (asked : inp.length ≤ rd16 o1 o0) :
        hufDecode cap (0x00 :: tl :: o1 :: o0 :: (serialize (.node l r) ++ junk ++ payload)) =
          Output.finish ((Output.empty.emitAll cap inp).bind
            (bitWalk cap (.node l r) extra (.node l r) (rd16 o1 o0 - inp.length))) := by
      rw [hufDecode_serialize cap _ junk payload o1 o0 region, ← decodeWithTree_node cap coded bits, Nat.add_sub_cancel' asked]
    refine ⟨fun asked fits inside => ?_, fun asked full => ?_⟩
    · obtain ⟨more, missing⟩ := Nat.exists_eq_add_of_lt asked
      rw [decoded asked.le, Output.emitAll_eq (Nat.zero_le cap), if_pos (by simpa [Output.empty] using fits), rd16,
        missing, Nat.add_assoc, Nat.add_sub_cancel_left]
      exact congrArg Output.finish (bitWalk_exhausted cap _ inside more _)
    · rw [decoded asked, Output.emitAll_eq (Nat.zero_le cap), if_neg (by simpa [Output.empty] using full)]
      rfl

end Sys2Proof.Machine
end

section
/-!
PROOF of O12 and O15: LZ.ENC and LZ.DEC are a compress and a decompress operation with the window coder.
-/

namespace Sys2Proof.Machine

/-- Settles O12: LZ.ENC is a compress operation with an empty auxiliary output. -/
theorem lzEncCompletes : Obligations.LzEncCompletes := by
  intro s inp hp ready input
  exact ⟨_, exec_ready ready nofun,
    State.accept_runCompress hp input _ _ (fun inp => (lzEncode inp, [])) ⟨lzEncode_bound inp, Nat.zero_le _⟩⟩

/-- Settles O15: LZ.DEC is a decompress operation whose decoder never gives more than P_MAX_OUT bytes. -/
theorem lzDecCompletes : Obligations.LzDecCompletes := by
  intro s inp hp ready input
  exact ⟨_, exec_ready ready nofun, State.accept_runDecompress hp input _ _ _ fun _ => lzDecode_fits⟩

end Sys2Proof.Machine
end

section
/-!
PROOF of O51: the match search. MatchLen says how long a candidate matches; the scan keeps, of the candidates it has passed, the
farthest of the longest.
-/

namespace Sys2Proof.Machine

/-! ### The length of a candidate (41_window R221) -/

theorem le_matchLen_iff {l cap : Nat} {as bs : List Byte} :
    l ≤ matchLen cap as bs ↔ l ≤ cap ∧ l ≤ bs.length ∧ ∀ j, j < l → as[j]? = bs[j]? := by
  fun_induction matchLen cap as bs generalizing l with
  | case1 | case3 => cases l <;> simp
  | case2 cap bs =>
    cases l with
    | zero => simp
    | succ l =>
      rw [Nat.forall_lt_succ_left]
      cases bs <;> simp
  | case4 cap as b bs ih =>
    cases l with
    | zero => simp
    | succ l =>
      rw [Nat.forall_lt_succ_left]
      simp [ih]
  | case5 cap a as b bs differ =>
    cases l with
    | zero => simp
    | succ l =>
      rw [Nat.forall_lt_succ_left]
      simp [differ]

/-- How long the candidate at distance `d` before the cursor `pos` matches. -/
def candidateLen (inp : List Byte) (pos d : Nat) : Nat := matchLen Config.lookahead (inp.drop (pos - d)) (inp.drop pos)

theorem le_candidateLen_iff {inp : List Byte} {pos : Nat} (cursor : pos ≤ inp.length) {d l : Nat} :
    l ≤ candidateLen inp pos d ↔ l ≤ 15 ∧ MatchesFor inp (pos - d) pos l := by
  have fits : l ≤ inp.length - pos ↔ pos + l ≤ inp.length := by omega
  simp only [candidateLen, le_matchLen_iff, Config.lookahead, List.length_drop, List.getElem?_drop, MatchesFor, fits]

/-! ### The scan (41_window R222, R223) -/

/-- `best` is the farthest of the longest candidates at distances `lo + 1` to `hi`, or (0, 0) where none of them matches a byte. -/
structure FarthestLongest (length : Nat → Nat) (lo hi : Nat) (best : Nat × Nat) : Prop where
  nothing : best.1 = 0 → best.2 = 0
  found : 0 < best.1 → lo < best.2 ∧ best.2 ≤ hi ∧ best.1 = length best.2
  longest : ∀ d, lo < d → d ≤ hi → length d ≤ best.1
  farthest : ∀ d, lo < d → d ≤ hi → 0 < best.1 → length d = best.1 → d ≤ best.2

/-- The scan passes one more candidate. -/
theorem FarthestLongest.next {length : Nat → Nat} {d hi : Nat} {best : Nat × Nat} (h : FarthestLongest length (d + 1) hi best)
    (inside : d + 1 ≤ hi) :
    FarthestLongest length d hi (if best.1 < length (d + 1) then (length (d + 1), d + 1) else best) := by
  obtain ⟨nothing, found, longest, farthest⟩ := h
  split
  case isTrue longer =>
    have passed (k : Nat) (low : d < k) (high : k ≤ hi) : k = d + 1 ∨ length k ≤ best.1 :=
      (Nat.eq_or_lt_of_le low).imp Eq.symm fun low => longest k low high
    refine ⟨fun empty => absurd empty (Nat.ne_zero_of_lt longer), fun _ => ⟨Nat.lt_succ_self d, inside, rfl⟩,
      fun k low high => ?_, fun k low high _ same => ?_⟩
    · rcases passed k low high with rfl | shorter
      · exact le_rfl
      · exact shorter.trans longer.le
    · rcases passed k low high with rfl | shorter
      · exact le_rfl
      · exact absurd same (shorter.trans_lt longer).ne
  case isFalse notLonger =>
    refine ⟨nothing, fun nonempty => ?_, fun k low high => ?_, fun k low high nonempty same => ?_⟩
    · obtain ⟨low, high, same⟩ := found nonempty
      exact ⟨by omega, high, same⟩
    · rcases Nat.eq_or_lt_of_le low with rfl | low
      · exact Nat.le_of_not_lt notLonger
      · exact longest k low high
    · rcases Nat.eq_or_lt_of_le low with rfl | low
      · obtain ⟨low, -⟩ := found nonempty
        exact low.le
      · exact farthest k low high nonempty same

theorem findMatchFrom_farthestLongest {inp : List Byte} {pos d hi : Nat} {best : Nat × Nat} (behind : hi ≤ pos)
    (inside : d ≤ hi) (h : FarthestLongest (candidateLen inp pos) d hi best) :
    FarthestLongest (candidateLen inp pos) 0 hi (findMatchFrom (inp.drop pos) d (inp.drop (pos - d)) best) := by
  induction d generalizing best with
  | zero => exact h
  | succ d ih =>
    rw [findMatchFrom, List.tail_drop, show pos - (d + 1) + 1 = pos - d by omega]
    exact ih (by omega) (h.next inside)

theorem findMatch_farthestLongest (inp : List Byte) (pos : Nat) :
    FarthestLongest (candidateLen inp pos) 0 (min pos 1024) (findMatch inp pos (inp.drop pos)) := by
  rw [findMatch, Config.window, show pos - 1024 = pos - min pos 1024 by omega]
  exact findMatchFrom_farthestLongest (Nat.min_le_left _ _) le_rfl
    ⟨fun _ => rfl, fun h => absurd h (Nat.lt_irrefl 0), fun d low high => by omega, fun d low high => by omega⟩

/-- Settles O51: the scan ends with the farthest of the longest candidates in the window. -/
theorem searchFindsTheFarthestLongest : Obligations.SearchFindsTheFarthestLongest := by
  intro inp pos len dist cursor search
  obtain ⟨nothing, found, longest, farthest⟩ := search ▸ findMatch_farthestLongest inp pos
  have matchOf (nonempty : 0 < len) :
      1 ≤ dist ∧ dist ≤ min pos 1024 ∧ len ≤ 15 ∧ MatchesFor inp (pos - dist) pos len := by
    obtain ⟨back, window, same⟩ := found nonempty
    exact ⟨back, window, (le_candidateLen_iff cursor.le).mp same.le⟩
  refine ⟨?_, nothing, fun nonempty => ?_, fun d l back window bound same => ?_⟩
  · rcases len.eq_zero_or_pos with empty | nonempty
    · omega
    · obtain ⟨-, -, lookahead, fits, -⟩ := matchOf nonempty
      omega
  · obtain ⟨back, window, -, same⟩ := matchOf nonempty
    exact ⟨back, window, same⟩
  · have reaches : l ≤ candidateLen inp pos d := (le_candidateLen_iff cursor.le).mpr ⟨by omega, same⟩
    have longer := longest d back window
    refine ⟨reaches.trans longer, fun equal nonempty => ?_⟩
    subst equal
    exact farthest d back window nonempty (longer.antisymm reaches)

end Sys2Proof.Machine
end

section
/-!
PROOF of O54 and O55: the copy of a match and one token of the window decoder. An output whose recorded length is that of its bytes
is `Output.ofBytes` of them; the copy appends to it byte by byte.
-/

namespace Sys2Proof.Machine

/-! ### Outputs as strings -/

/-- The output that holds a string. -/
def Output.ofBytes (bs : List Byte) : Output := ⟨bs.length, bs.reverse⟩

@[simp] theorem Output.ofBytes_len (bs : List Byte) : (Output.ofBytes bs).len = bs.length := rfl

@[simp] theorem Output.bytes_ofBytes (bs : List Byte) : (Output.ofBytes bs).bytes = bs := List.reverse_reverse bs

theorem Output.eq_ofBytes {o : Output} (len : o.len = o.rev.length) : o = Output.ofBytes o.bytes := by
  cases o
  simp_all [Output.ofBytes, Output.bytes]

/-- The output with one more byte. -/
theorem Output.ofBytes_concat (bs : List Byte) (b : Byte) :
    (⟨(Output.ofBytes bs).len + 1, b :: (Output.ofBytes bs).rev⟩ : Output) = Output.ofBytes (bs ++ [b]) := by
  simp [Output.ofBytes]

theorem Output.emit_ofBytes {cap : Nat} {bs : List Byte} (room : bs.length < cap) (b : Byte) :
    (Output.ofBytes bs).emit cap b = .ok (Output.ofBytes (bs ++ [b])) := by
  rw [Output.emit_ok room, Output.ofBytes_concat]

/-- The byte `d` places before the end (41_window R236). -/
theorem Output.getElem?_back {bs : List Byte} {d : Nat} (back : 1 ≤ d) (inside : d ≤ bs.length) :
    bs[bs.length - d]? = some ((Output.ofBytes bs).back d) := by
  rw [Output.back, Output.ofBytes, List.getD_eq_getElem?_getD, List.getElem?_reverse (by omega),
    show bs.length - 1 - (d - 1) = bs.length - d by omega, List.getElem?_eq_getElem (by omega)]
  rfl

/-! ### The copy of a match (41_window R236, 70_reset R398) -/

/-- A copy that succeeds appends `l` bytes, each the byte `d` before it. -/
theorem Output.copyBack_appends {cap d l : Nat} {bs : List Byte} {o' : Output} (back : 1 ≤ d) (inside : d ≤ bs.length)
    (copied : (Output.ofBytes bs).copyBack cap d l = .ok o') :
    ∃ ext, ext.length = l ∧ o' = Output.ofBytes (bs ++ ext) ∧
      ∀ j, bs.length ≤ j → j < bs.length + l → (bs ++ ext)[j]? = (bs ++ ext)[j - d]? := by
  induction l generalizing bs with
  | zero =>
    cases copied
    exact ⟨[], rfl, by rw [List.append_nil], fun j low high => by omega⟩
  | succ l ih =>
    rw [Output.copyBack] at copied
    have source := Output.getElem?_back back inside
    cases emitted : (Output.ofBytes bs).emit cap ((Output.ofBytes bs).back d) with
    | error e => rw [emitted] at copied; cases copied
    | ok o1 =>
      rw [emitted] at copied
      obtain ⟨-, rfl⟩ := Output.emit_cases emitted
      rw [Output.ofBytes_concat] at copied
      obtain ⟨ext, length, rfl, same⟩ := ih (by simp; omega) copied
      refine ⟨(Output.ofBytes bs).back d :: ext, by rw [List.length_cons, length], by rw [← List.append_cons],
        fun j low high => ?_⟩
      rw [List.append_cons]
      rcases low.eq_or_lt with rfl | later
      · rw [← List.append_cons, List.getElem?_append_right le_rfl, List.getElem?_append_left (by omega), source, Nat.sub_self]
        rfl
      · exact same j (by simpa using later) (by simp; omega)

/-- A copy that fits succeeds (60_exceptions R355). -/
theorem Output.copyBack_fits {cap l : Nat} (d : Nat) {o : Output} (fits : o.len + l ≤ cap) :
    ∃ o', o.copyBack cap d l = .ok o' ∧ o'.len = o.len + l := by
  induction l generalizing o with
  | zero => exact ⟨o, rfl, rfl⟩
  | succ l ih =>
    rw [Output.copyBack, Output.emit_ok (by omega)]
    obtain ⟨o', copied, length⟩ := ih (o := ⟨o.len + 1, o.back d :: o.rev⟩) (by simp only; omega)
    exact ⟨o', copied, by simp only at length; omega⟩

/-- A copy that does not fit is CAPACITY_EXCEEDED (60_exceptions R355). -/
theorem Output.copyBack_full {cap l : Nat} (d : Nat) {o : Output} (held : o.len ≤ cap) (long : cap < o.len + l) :
    o.copyBack cap d l = .error .capacityExceeded := by
  induction l generalizing o with
  | zero => omega
  | succ l ih =>
    rw [Output.copyBack]
    rcases held.eq_or_lt with full | room
    · rw [Output.emit_full full.ge]
    · rw [Output.emit_ok room]
      exact ih (o := ⟨o.len + 1, o.back d :: o.rev⟩) room (by simp only; omega)

/-- Settles O54: the copy's bytes, and when it fits. -/
theorem copyIsByteByByte : Obligations.CopyIsByteByByte := by
  intro cap d l o len back inside
  refine ⟨fun o' copied => ?_, Output.copyBack_fits d, Output.copyBack_full d⟩
  have length : o.bytes.length = o.len := by rw [Output.bytes, List.length_reverse, len]
  rw [Output.eq_ofBytes len] at copied
  obtain ⟨ext, extLength, rfl, same⟩ := Output.copyBack_appends back (inside.trans length.ge) copied
  rw [Output.bytes_ofBytes]
  exact ⟨by rw [List.length_append, extLength], List.prefix_append _ _,
    fun j low high => same j low (by rwa [List.length_append, extLength] at high)⟩

/-! ### One token of the decoder (41_window R234, R235, R237, R238) -/

theorem lzDecodeTokens_badFlag (cap : Nat) {f : Byte} (bad : 2 ≤ f.toNat) (rest : List Byte) (o : Output) :
    lzDecodeTokens cap (f :: rest) o = .error .malformedInput := by
  have notLiteral : f ≠ 0x00 := by rintro rfl; exact absurd bad (by decide)
  have notMatch : f ≠ 0x01 := by rintro rfl; exact absurd bad (by decide)
  unfold lzDecodeTokens
  rw [if_neg notLiteral, if_neg notMatch]

theorem lzDecodeTokens_literal {cap : Nat} {o : Output} (room : o.len < cap) (b : Byte) (rest : List Byte) :
    lzDecodeTokens cap (0x00 :: b :: rest) o = lzDecodeTokens cap rest ⟨o.len + 1, b :: o.rev⟩ := by
  rw [lzDecodeTokens, if_pos rfl, Output.emit_ok room]

theorem lzDecodeTokens_literal_full {cap : Nat} {o : Output} (full : cap ≤ o.len) (b : Byte) (rest : List Byte) :
    lzDecodeTokens cap (0x00 :: b :: rest) o = .error .capacityExceeded := by
  rw [lzDecodeTokens, if_pos rfl, Output.emit_full full]

theorem lzDecodeTokens_match_short (cap : Nat) {rest : List Byte} (short : rest.length < 4) (o : Output) :
    lzDecodeTokens cap (0x01 :: rest) o = .error .malformedInput := by
  match rest, short with
  | [], _ | [_], _ | [_, _], _ | [_, _, _], _ => rfl

/-- A whole match token is what it appends, and then the tokens after it. -/
theorem lzDecodeTokens_match (cap : Nat) (a b l c : Byte) (rest : List Byte) (o : Output) :
    lzDecodeTokens cap (0x01 :: a :: b :: l :: c :: rest) o =
      (o.applyMatch cap (rd16 a b) l.toNat c).bind (lzDecodeTokens cap rest) := by
  rw [lzDecodeTokens, if_neg (by decide), if_pos rfl]
  dsimp only
  cases o.applyMatch cap (rd16 a b) l.toNat c <;> rfl

theorem Output.emitNext_ok {cap : Nat} {o : Output} {c : Byte} (room : c ≠ 0x00 → o.len < cap) :
    o.emitNext cap c = .ok (if c = 0x00 then o else ⟨o.len + 1, c :: o.rev⟩) := by
  rw [Output.emitNext]
  split
  · rfl
  · exact Output.emit_ok (room ‹_›) c

theorem Output.applyMatch_badDistance (cap l : Nat) {d : Nat} {o : Output} (bad : d = 0 ∨ o.len < d) (c : Byte) :
    o.applyMatch cap d l c = .error .malformedInput := if_pos bad

theorem Output.applyMatch_goodDistance (cap l : Nat) {d : Nat} {o : Output} (back : 1 ≤ d) (inside : d ≤ o.len) (c : Byte) :
    o.applyMatch cap d l c = (o.copyBack cap d l).bind (fun o' => o'.emitNext cap c) := by
  rw [Output.applyMatch, if_neg (by omega)]
  cases o.copyBack cap d l <;> rfl

/-- A match token whose copy succeeds, and whose nextChar has room where it is appended. -/
theorem Output.applyMatch_ok {cap d l : Nat} {o o' : Output} {c : Byte} (back : 1 ≤ d) (inside : d ≤ o.len)
    (copied : o.copyBack cap d l = .ok o') (room : c ≠ 0x00 → o'.len < cap) :
    o.applyMatch cap d l c = .ok (if c = 0x00 then o' else ⟨o'.len + 1, c :: o'.rev⟩) := by
  rw [Output.applyMatch_goodDistance cap l back inside, copied, ← Output.emitNext_ok room]
  rfl

/-- A match token whose copy does not fit, or whose nextChar finds the output full. -/
theorem Output.applyMatch_full {cap d l : Nat} {o : Output} {c : Byte} (back : 1 ≤ d) (inside : d ≤ o.len)
    (held : o.len ≤ cap) (full : cap < o.len + l ∨ (cap = o.len + l ∧ c ≠ 0x00)) : o.applyMatch cap d l c = .error .capacityExceeded := by
  rw [Output.applyMatch_goodDistance cap l back inside]
  rcases full with long | ⟨exact, appended⟩
  · rw [Output.copyBack_full d held long]
    rfl
  · obtain ⟨o', copied, length⟩ := Output.copyBack_fits d exact.ge
    rw [copied]
    show o'.emitNext cap c = _
    rw [Output.emitNext, if_neg appended, Output.emit_full (by omega)]

/-! ### The container (41_window R232, R233) -/

theorem lzDecode_fallback (cap : Nat) (rest : List Byte) :
    lzDecode cap (0xFF :: rest) = if rest.length ≤ cap then .ok rest else .error .capacityExceeded :=
  Output.finish_emitAll cap rest

theorem lzDecode_tokens (cap : Nat) {f : Byte} (tokens : f ≠ 0xFF) (rest : List Byte) :
    lzDecode cap (f :: rest) = Output.finish (lzDecodeTokens cap (f :: rest) Output.empty) := if_neg tokens

/-- Settles O55, clause by clause. -/
theorem windowDecoderTokens : Obligations.WindowDecoderTokens := by
  refine ⟨lzDecode_fallback, fun cap f rest tokens => ?_, fun cap o => ⟨rfl,
    fun _ rest bad => lzDecodeTokens_badFlag cap bad rest o, rfl, fun b rest room => lzDecodeTokens_literal room b rest, fun b rest full => lzDecodeTokens_literal_full full b rest,
    fun _ short => lzDecodeTokens_match_short cap short o, fun a b l c rest bad => ?_,
    fun a b l c rest o' back inside copied room => ?_, fun a b l c rest back inside held full => ?_⟩⟩
  · rw [lzDecode_tokens cap tokens]
    show Output.finish (lzDecodeTokens cap (f :: rest) ⟨0, []⟩) = _
    cases lzDecodeTokens cap (f :: rest) ⟨0, []⟩ <;> rfl
  · rw [lzDecodeTokens_match, rd16, Output.applyMatch_badDistance cap _ bad]
    rfl
  · rw [lzDecodeTokens_match, rd16, Output.applyMatch_ok back inside copied room]
    rfl
  · rw [lzDecodeTokens_match, rd16, Output.applyMatch_full back inside held full]
    rfl

end Sys2Proof.Machine
end

section
/-!
PROOF of O52: the token loop of LZ.ENC. At a cursor within the input it emits a literal, or a match token the search has found, and
goes on past the bytes it has coded; facts about the stream follow by an induction along the cursor.
-/

namespace Sys2Proof.Machine

/-! ### The bytes a match token covers -/

theorem lzTokensFrom_skip (inp : List Byte) (skip pos : Nat) (cur : List Byte) :
    lzTokensFrom inp skip pos cur = lzTokensFrom inp 0 (pos + skip) (cur.drop skip) := by
  induction skip generalizing pos cur with
  | zero => rfl
  | succ skip ih =>
    cases cur with
    | nil => rfl
    | cons b rest => rw [lzTokensFrom, ih, List.drop_succ_cons, Nat.add_right_comm, Nat.add_assoc]

theorem lzLosesNulFrom_skip (inp : List Byte) (skip pos : Nat) (cur : List Byte) :
    lzLosesNulFrom inp skip pos cur = lzLosesNulFrom inp 0 (pos + skip) (cur.drop skip) := by
  induction skip generalizing pos cur with
  | zero => rfl
  | succ skip ih =>
    cases cur with
    | nil => rfl
    | cons b rest => rw [lzLosesNulFrom, ih, List.drop_succ_cons, Nat.add_right_comm, Nat.add_assoc]

/-! ### The loop at a cursor (41_window R225 to R227) -/

/-- The tokens from the cursor `pos` on. -/
def tokensAt (inp : List Byte) (pos : Nat) : List Byte := lzTokensFrom inp 0 pos (inp.drop pos)

/-- Whether a match token from the cursor `pos` on is followed by an input byte 0x00. -/
def losesNulAt (inp : List Byte) (pos : Nat) : Bool := lzLosesNulFrom inp 0 pos (inp.drop pos)

/-- The match the search finds at the cursor `pos`, as (length, distance). -/
def matchAt (inp : List Byte) (pos : Nat) : Nat × Nat := findMatch inp pos (inp.drop pos)

theorem tokensAt_end {inp : List Byte} {pos : Nat} (past : inp.length ≤ pos) : tokensAt inp pos = [] := by
  rw [tokensAt, List.drop_eq_nil_of_le past]
  rfl

theorem losesNulAt_end {inp : List Byte} {pos : Nat} (past : inp.length ≤ pos) : losesNulAt inp pos = false := by
  rw [losesNulAt, List.drop_eq_nil_of_le past]
  rfl

theorem tokensAt_eq {inp : List Byte} {pos : Nat} (cursor : pos < inp.length) :
    tokensAt inp pos =
      if 3 ≤ (matchAt inp pos).1 then
        matchToken (matchAt inp pos).1 (matchAt inp pos).2 (inp.getD (pos + (matchAt inp pos).1) 0x00) ++
          tokensAt inp (pos + (matchAt inp pos).1 + 1)
      else [0x00, inp[pos]] ++ tokensAt inp (pos + 1) := by
  have cur := List.drop_eq_getElem_cons cursor
  rw [tokensAt, cur, lzTokensFrom, ← cur, lzTokensFrom_skip, List.drop_drop, nextChar, List.getD_eq_getElem?_getD,
    List.getElem?_drop, Nat.add_right_comm]
  rfl

theorem losesNulAt_eq {inp : List Byte} {pos : Nat} (cursor : pos < inp.length) :
    losesNulAt inp pos =
      if 3 ≤ (matchAt inp pos).1 then
        decide (inp[pos + (matchAt inp pos).1]? = some 0x00) || losesNulAt inp (pos + (matchAt inp pos).1 + 1)
      else losesNulAt inp (pos + 1) := by
  have cur := List.drop_eq_getElem_cons cursor
  rw [losesNulAt, cur, lzLosesNulFrom, ← cur, lzLosesNulFrom_skip, List.drop_drop, List.getElem?_drop, Nat.add_right_comm]
  rfl

/-- A match the loop emits a token for (41_window R224, R226). -/
structure EmitsMatch (inp : List Byte) (pos len dist : Nat) : Prop where
  long : 3 ≤ len
  lookahead : len ≤ 15
  back : 1 ≤ dist
  window : dist ≤ 1024
  behind : dist ≤ pos
  same : MatchesFor inp (pos - dist) pos len

theorem emitsMatch_matchAt {inp : List Byte} {pos : Nat} (cursor : pos < inp.length) (long : 3 ≤ (matchAt inp pos).1) :
    EmitsMatch inp pos (matchAt inp pos).1 (matchAt inp pos).2 := by
  obtain ⟨bound, -, found, -⟩ := searchFindsTheFarthestLongest inp pos _ _ cursor rfl
  obtain ⟨back, reach, same⟩ := found (Nat.lt_of_lt_of_le (by decide) long)
  obtain ⟨behind, window⟩ := le_min_iff.mp reach
  exact ⟨long, (le_min_iff.mp bound).1, back, window, behind, same⟩

/-- Everything the loop can do at a cursor within the input: a literal token, or a match token. -/
theorem cursor_cases {inp : List Byte} {pos : Nat} (cursor : pos < inp.length) :
    (tokensAt inp pos = [0x00, inp[pos]] ++ tokensAt inp (pos + 1) ∧ losesNulAt inp pos = losesNulAt inp (pos + 1)) ∨
    ∃ len dist, EmitsMatch inp pos len dist ∧
      tokensAt inp pos = matchToken len dist (inp.getD (pos + len) 0x00) ++ tokensAt inp (pos + len + 1) ∧
      losesNulAt inp pos = (decide (inp[pos + len]? = some 0x00) || losesNulAt inp (pos + len + 1)) := by
  rw [tokensAt_eq cursor, losesNulAt_eq cursor]
  by_cases long : 3 ≤ (matchAt inp pos).1
  · exact .inr ⟨_, _, emitsMatch_matchAt cursor long, if_pos long, if_pos long⟩
  · exact .inl ⟨if_neg long, if_neg long⟩

/-- Induction along the cursor: a fact that holds past the end of the input, and at a cursor within it where it holds at every
later one. -/
theorem cursor_induction {inp : List Byte} {P : Nat → Prop} (past : ∀ pos, inp.length ≤ pos → P pos)
    (token : ∀ pos, pos < inp.length → (∀ later, pos < later → P later) → P pos) (pos : Nat) : P pos := by
  induction left : inp.length - pos using Nat.strong_induction_on generalizing pos with
  | _ left ih =>
    rcases Nat.lt_or_ge pos inp.length with cursor | ended
    · exact token pos cursor fun later h => ih _ (by omega) later rfl
    · exact past pos ended

/-! ### The stream and the container (41_window R228, R229, R241) -/

theorem windowStream_tokensAt (inp : List Byte) (pos : Nat) : WindowStream (tokensAt inp pos) := by
  induction pos using cursor_induction (inp := inp) with
  | past pos ended =>
    rw [tokensAt_end ended]
    exact .done
  | token pos cursor later =>
    rcases cursor_cases cursor with ⟨tokens, -⟩ | ⟨len, dist, found, tokens, -⟩ <;> rw [tokens]
    · exact .literal _ (later _ (by omega))
    · exact .copy dist len _ found.back found.window found.long found.lookahead (later _ (by omega))

/-- The first token is a literal: nothing stands before it. -/
theorem lzTokens_cons (b : Byte) (rest : List Byte) : lzTokens (b :: rest) = 0x00 :: b :: tokensAt (b :: rest) 1 := by
  rcases cursor_cases (inp := b :: rest) (pos := 0) (Nat.succ_pos _) with ⟨tokens, -⟩ | ⟨len, dist, found, -⟩
  · exact tokens
  · exact absurd (found.back.trans found.behind) (by decide)

/-- What LzEncode gives: the fallback record, or the tokens. -/
theorem lzEncode_cases (inp : List Byte) :
    (inp ≠ [] ∧ inp.length ≤ (lzTokens inp).length ∧ lzEncode inp = 0xFF :: inp) ∨
    (¬ (inp ≠ [] ∧ inp.length ≤ (lzTokens inp).length) ∧ (lzTokens inp).length ≤ inp.length ∧
      lzEncode inp = lzTokens inp) := by
  unfold lzEncode
  split
  case isTrue empty =>
    subst empty
    exact .inr ⟨fun h => h.1 rfl, le_rfl, rfl⟩
  case isFalse nonempty =>
    split
    case isTrue notShorter => exact .inl ⟨nonempty, notShorter, rfl⟩
    case isFalse shorter => exact .inr ⟨fun h => shorter h.2, Nat.le_of_not_le shorter, rfl⟩

theorem lzTokens_ne_fallback (inp : List Byte) : lzTokens inp ≠ 0xFF :: inp := by
  cases inp with
  | nil => exact nofun
  | cons b rest => simp [lzTokens_cons]

/-- The container is the fallback record exactly when the input is not empty and its tokens are not shorter (R229). -/
theorem lzEncode_fallback_iff (inp : List Byte) :
    lzEncode inp = 0xFF :: inp ↔ inp ≠ [] ∧ inp.length ≤ (lzTokens inp).length := by
  rcases lzEncode_cases inp with ⟨nonempty, notShorter, fallback⟩ | ⟨kept, -, tokens⟩
  · exact iff_of_true fallback ⟨nonempty, notShorter⟩
  · exact iff_of_false (tokens ▸ lzTokens_ne_fallback inp) kept

/-- Settles O52: the loop's equation at a cursor, and the facts about stream and container. -/
theorem windowStreamBounds : Obligations.WindowStreamBounds := by
  refine ⟨fun inp pos len dist b byte search => ?_, fun inp pos => tokensAt_end, fun inp => rfl, fun inp => ⟨?_,
    windowStream_tokensAt inp 0, fun nonempty => ?_, ?_, lzEncode_fallback_iff inp⟩⟩
  · obtain ⟨cursor, rfl⟩ := List.getElem?_eq_some_iff.mp byte
    obtain ⟨rfl, rfl⟩ : (matchAt inp pos).1 = len ∧ (matchAt inp pos).2 = dist := Prod.ext_iff.mp search
    exact ⟨fun long => (tokensAt_eq cursor).trans (if_pos long),
      fun short => (tokensAt_eq cursor).trans (if_neg (Nat.not_le.mpr short))⟩
  · rcases lzEncode_cases inp with ⟨-, -, fallback⟩ | ⟨-, bound, tokens⟩
    · rw [fallback, List.length_cons]
    · rw [tokens]
      exact bound.trans (Nat.le_succ _)
  · cases inp with
    | nil => exact absurd rfl nonempty
    | cons b rest => rw [lzTokens_cons, List.head?_cons]
  · rcases lzEncode_cases inp with ⟨-, -, fallback⟩ | ⟨-, -, tokens⟩
    · exact .inr fallback
    · exact .inl tokens

end Sys2Proof.Machine
end

section
/-!
PROOF of O53: what the window decoder gives for the window encoder's container. A literal or match token decoded where the output
holds the input up to the cursor appends what the encoder has coded; where a byte was lost before it, the output stays behind the
cursor, so it never fills, and a distance may reach before its beginning.
-/

namespace Sys2Proof.Machine

/-! ### One token of the encoder, decoded -/

/-- The decoder reads back the distance and the length of a match token: the encoder's bounds fit their fields. -/
theorem EmitsMatch.decode {inp : List Byte} {pos len dist : Nat} (found : EmitsMatch inp pos len dist) (cap : Nat) (next : Byte)
    (rest : List Byte) (o : Output) :
    lzDecodeTokens cap (matchToken len dist next ++ rest) o = (o.applyMatch cap dist len next).bind (lzDecodeTokens cap rest) := by
  obtain ⟨-, lookahead, -, window, -⟩ := found
  have length : (BitVec.ofNat 8 len).toNat = len := by rw [BitVec.toNat_ofNat]; omega
  have distance : rd16 (BitVec.ofNat 8 (dist / 256)) (BitVec.ofNat 8 dist) = dist := by rw [rd16_be16]; omega
  have token := lzDecodeTokens_match cap (BitVec.ofNat 8 (dist / 256)) (BitVec.ofNat 8 dist) (BitVec.ofNat 8 len) next rest o
  rw [distance, length] at token
  exact token

/-- A copy within an output that holds the input up to the cursor gives the bytes at the cursor (41_window R221, R236). -/
theorem Output.copyBack_take {cap dist len pos : Nat} {inp : List Byte} (back : 1 ≤ dist) (behind : dist ≤ pos)
    (same : MatchesFor inp (pos - dist) pos len) (fits : inp.length ≤ cap) :
    (Output.ofBytes (inp.take pos)).copyBack cap dist len = .ok (Output.ofBytes (inp.take (pos + len))) := by
  obtain ⟨inside, same⟩ := same
  induction len generalizing pos with
  | zero => rfl
  | succ len ih =>
    have held : (inp.take pos).length = pos := by rw [List.length_take]; omega
    have source := Output.getElem?_back back (behind.trans held.ge)
    rw [held, List.getElem?_take_of_lt (by omega), show inp[pos - dist]? = inp[pos]? from same 0 (Nat.succ_pos _)] at source
    rw [Output.copyBack, Output.emit_ofBytes (by omega), ← Option.toList_some, ← source, ← List.take_add_one,
      show pos + (len + 1) = pos + 1 + len by omega]
    refine ih (by omega) (by omega) fun j low => ?_
    have step := same (j + 1) (by omega)
    rwa [show pos - dist + (j + 1) = pos + 1 - dist + j by omega, show pos + (j + 1) = pos + 1 + j by omega] at step

/-- A match token of the encoder appends its match and the byte after it, unless that byte is a lost 0x00 (R237). -/
theorem Output.applyMatch_take {cap dist len pos : Nat} {inp : List Byte} (found : EmitsMatch inp pos len dist)
    (kept : inp[pos + len]? ≠ some 0x00) (fits : inp.length ≤ cap) :
    (Output.ofBytes (inp.take pos)).applyMatch cap dist len (inp.getD (pos + len) 0x00) =
      .ok (Output.ofBytes (inp.take (pos + len + 1))) := by
  obtain ⟨-, -, back, -, behind, same⟩ := found
  have copied := Output.copyBack_take back behind same fits
  obtain ⟨inside, -⟩ := same
  have held : (inp.take pos).length = pos := by rw [List.length_take]; omega
  rw [Output.applyMatch_goodDistance cap len back (behind.trans held.ge),
    copied, List.take_add_one, List.getD_eq_getElem?_getD]
  show Output.emitNext cap _ _ = _
  cases next : inp[pos + len]? with
  | none => rw [Option.getD_none, Option.toList_none, List.append_nil]; rfl
  | some c =>
    obtain ⟨cursor, -⟩ := List.getElem?_eq_some_iff.mp next
    have appended : c ≠ 0x00 := fun lost => kept (lost ▸ next)
    rw [Option.getD_some, Output.emitNext, if_neg appended, Output.emit_ofBytes (by rw [List.length_take]; omega)]
    rfl

/-- Where no byte is lost from the cursor on, decoding there what the encoder emits from there on gives the rest of the input. -/
theorem lzDecodeTokens_tokensAt {cap : Nat} {inp : List Byte} (fits : inp.length ≤ cap) (pos : Nat)
    (kept : losesNulAt inp pos = false) :
    lzDecodeTokens cap (tokensAt inp pos) (Output.ofBytes (inp.take pos)) = .ok (Output.ofBytes inp) := by
  induction pos using cursor_induction (inp := inp) with
  | past pos ended =>
    rw [tokensAt_end ended, List.take_of_length_le ended]
    rfl
  | token pos cursor later =>
    rcases cursor_cases cursor with ⟨tokens, loses⟩ | ⟨len, dist, found, tokens, loses⟩ <;> rw [tokens] <;>
      rw [loses] at kept
    · have room : (Output.ofBytes (inp.take pos)).len < cap := by rw [Output.ofBytes_len, List.length_take]; omega
      refine (lzDecodeTokens_literal room _ _).trans ?_
      rw [Output.ofBytes_concat, List.take_concat_get' inp pos cursor]
      exact later _ (Nat.lt_succ_self pos) kept
    · obtain ⟨notLost, kept⟩ := Bool.or_eq_false_iff.mp kept
      rw [found.decode, Output.applyMatch_take found (of_decide_eq_false notLost) fits]
      exact later _ (by omega) kept

/-! ### Where a byte is lost -/

/-- An output behind the cursor takes a match token whose distance lies within it: it grows by at most what the token covers of the
input, and by less where the byte after the match is a lost 0x00. -/
theorem Output.applyMatch_behind {cap dist len pos : Nat} {inp : List Byte} (found : EmitsMatch inp pos len dist)
    (fits : inp.length ≤ cap) {o : Output} (behind : o.len ≤ pos) (inside : dist ≤ o.len) :
    ∃ o', o.applyMatch cap dist len (inp.getD (pos + len) 0x00) = .ok o' ∧
      o'.len ≤ o.len + min (len + 1) (inp.length - pos) ∧
      (inp[pos + len]? = some 0x00 → o'.len < o.len + min (len + 1) (inp.length - pos)) := by
  obtain ⟨-, -, back, -, -, matched, -⟩ := found
  obtain ⟨o', copied, length⟩ := Output.copyBack_fits dist (cap := cap) (o := o) (l := len) (by omega)
  cases next : inp[pos + len]? with
  | none =>
    have sentinel : inp.getD (pos + len) 0x00 = 0x00 := by rw [List.getD_eq_getElem?_getD, next, Option.getD_none]
    rw [sentinel, Output.applyMatch_ok back inside copied nofun]
    exact ⟨o', rfl, by omega, nofun⟩
  | some c =>
    obtain ⟨cursor, -⟩ := List.getElem?_eq_some_iff.mp next
    rw [List.getD_eq_getElem?_getD, next, Option.getD_some, Output.applyMatch_ok back inside copied (fun _ => by omega)]
    refine ⟨_, rfl, ?_⟩
    split
    case isTrue => omega
    case isFalse appended => exact ⟨by simp only; omega, fun lost => absurd (Option.some.inj lost) appended⟩

/-- Decoded behind the cursor, the tokens from the cursor on give at most as many bytes as are left of the input, and fewer where a
byte is lost; or a distance reaches before the output. -/
theorem lzDecodeTokens_tokensAt_behind {cap : Nat} {inp : List Byte} (fits : inp.length ≤ cap) (pos : Nat) {o : Output}
    (behind : o.len ≤ pos) :
    lzDecodeTokens cap (tokensAt inp pos) o = .error .malformedInput ∨
      ∃ o', lzDecodeTokens cap (tokensAt inp pos) o = .ok o' ∧ o'.len ≤ o.len + (inp.length - pos) ∧
        (losesNulAt inp pos = true → o'.len < o.len + (inp.length - pos)) := by
  induction pos using cursor_induction (inp := inp) generalizing o with
  | past pos ended =>
    rw [tokensAt_end ended, losesNulAt_end ended]
    exact .inr ⟨o, rfl, Nat.le_add_right _ _, nofun⟩
  | token pos cursor later =>
    rcases cursor_cases cursor with ⟨tokens, loses⟩ | ⟨len, dist, found, tokens, loses⟩ <;> rw [tokens, loses]
    · have literal : lzDecodeTokens cap ([0x00, inp[pos]] ++ tokensAt inp (pos + 1)) o = _ :=
        lzDecodeTokens_literal (by omega) _ _
      rw [literal]
      refine (later _ (Nat.lt_succ_self pos) (Nat.succ_le_succ behind)).imp_right ?_
      rintro ⟨o', decoded, bound, lost⟩
      simp only at bound lost
      exact ⟨o', decoded, by omega, fun h => (lost h).trans_eq (by omega)⟩
    · rw [found.decode]
      by_cases inside : dist ≤ o.len
      · obtain ⟨o1, applied, grows, lostHere⟩ := Output.applyMatch_behind found fits behind inside
        rw [applied]
        refine (later (pos + len + 1) (by omega) (o := o1) (by omega)).imp_right ?_
        rintro ⟨o', decoded, bound, lostLater⟩
        refine ⟨o', decoded, by omega, fun lost => ?_⟩
        rcases (Bool.or_eq_true _ _).mp lost with here | there
        · have := lostHere (of_decide_eq_true here)
          omega
        · have := lostLater there
          omega
      · rw [Output.applyMatch_badDistance cap len (.inr (Nat.lt_of_not_le inside))]
        exact .inl rfl

/-! ### The container -/

/-- A stream is decoded from the empty output on: it has no leading 0xFF. -/
theorem lzDecode_lzTokens (cap : Nat) (inp : List Byte) :
    lzDecode cap (lzTokens inp) = Output.finish (lzDecodeTokens cap (lzTokens inp) Output.empty) := by
  cases inp with
  | nil => rfl
  | cons b rest =>
    rw [lzTokens_cons]
    exact lzDecode_tokens cap (by decide) _

/-- A stream from which no byte is lost decodes to the input. -/
theorem lzDecode_lzTokens_kept {cap : Nat} {inp : List Byte} (fits : inp.length ≤ cap) (kept : lzLosesNul inp = false) :
    lzDecode cap (lzTokens inp) = .ok inp := by
  have decoded : lzDecodeTokens cap (lzTokens inp) Output.empty = .ok (Output.ofBytes inp) :=
    lzDecodeTokens_tokensAt fits 0 kept
  rw [lzDecode_lzTokens, decoded, Output.finish, Output.bytes_ofBytes]

/-- A stream from which a byte is lost decodes to a shorter string, or not at all. -/
theorem lzDecode_lzTokens_lost {cap : Nat} {inp : List Byte} (fits : inp.length ≤ cap) (loses : lzLosesNul inp = true) :
    (∃ d, lzDecode cap (lzTokens inp) = .ok d ∧ d.length < inp.length) ∨
      lzDecode cap (lzTokens inp) = .error .malformedInput := by
  have decoded : lzDecodeTokens cap (lzTokens inp) Output.empty = .error .malformedInput ∨
      ∃ o, lzDecodeTokens cap (lzTokens inp) Output.empty = .ok o ∧ o.len ≤ 0 + (inp.length - 0) ∧
        (lzLosesNul inp = true → o.len < 0 + (inp.length - 0)) :=
    lzDecodeTokens_tokensAt_behind fits 0 (Nat.le_refl 0)
  rw [lzDecode_lzTokens]
  rcases decoded with malformed | ⟨o, decoded, -, shorter⟩
  · rw [malformed]
    exact .inr rfl
  · have length := (lzDecodeTokens_keeps decoded (Output.ok_empty cap)).len
    rw [decoded]
    refine .inl ⟨o.bytes, rfl, ?_⟩
    rw [Output.bytes, List.length_reverse, ← length]
    simpa using shorter loses

/-- Settles O53: the fallback record, and a stream from which no byte is lost, give the input back; another stream does not. -/
theorem windowCoderRoundTrip : Obligations.WindowCoderRoundTrip := by
  intro inp cap fits
  rcases lzEncode_cases inp with ⟨-, -, fallback⟩ | ⟨-, -, tokens⟩
  · refine ⟨fun _ => ?_, fun notFallback => absurd fallback notFallback⟩
    rw [fallback, lzDecode_fallback, if_pos fits]
  · rw [tokens]
    exact ⟨fun h => lzDecode_lzTokens_kept fits (h.resolve_left (lzTokens_ne_fallback inp)),
      fun _ => lzDecode_lzTokens_lost fits⟩

end Sys2Proof.Machine
end

section
/-!
PROOF of O11 and O14: RLE.ENC and RLE.DEC are a compress and a decompress operation with the run coder.
-/

namespace Sys2Proof.Machine

/-- Settles O11: RLE.ENC is a compress operation with an empty auxiliary output, under the machine's P_RLE_ZERO_RUNS. -/
theorem rleEncCompletes : Obligations.RleEncCompletes := by
  intro s inp hp ready input
  exact ⟨_, exec_ready ready nofun,
    State.accept_runCompress hp input _ _ (fun inp => (rleEncode s.params.zeroRuns inp, []))
      ⟨rleEncode_bound s.params.zeroRuns inp, Nat.zero_le _⟩⟩

/-- Settles O14: RLE.DEC is a decompress operation whose decoder never gives more than P_MAX_OUT bytes. -/
theorem rleDecCompletes : Obligations.RleDecCompletes := by
  intro s inp hp ready input
  exact ⟨_, exec_ready ready nofun, State.accept_runDecompress hp input _ _ _ fun _ => rleDecode_fits⟩

end Sys2Proof.Machine
end

section
/-!
PROOF of O58: the records of the run decoder. A run record is its count of emitted bytes, a literal is one, and the records after it
follow; a leading 0xFF marks the fallback record.
-/

namespace Sys2Proof.Machine

/-! ### One record (42_runlength R280, R281) -/

theorem rleDecodeTokens_run_short (cap : Nat) {rest : List Byte} (short : rest.length < 2) (o : Output) :
    rleDecodeTokens cap (0x00 :: rest) o = .error .malformedInput := by
  match rest, short with
  | [], _ | [_], _ => rfl

theorem rleDecodeTokens_run_zero (cap : Nat) (v : Byte) (rest : List Byte) (o : Output) :
    rleDecodeTokens cap (0x00 :: 0x00 :: v :: rest) o = .error .malformedInput := rfl

/-- A run record with a count is that many emitted bytes, and then the records after it. -/
theorem rleDecodeTokens_run (cap : Nat) {c : Byte} (counted : c ≠ 0x00) (v : Byte) (rest : List Byte) (o : Output) :
    rleDecodeTokens cap (0x00 :: c :: v :: rest) o = (o.emitN cap v c.toNat).bind (rleDecodeTokens cap rest) := by
  rw [rleDecodeTokens, if_pos rfl]
  simp only [if_neg counted]
  cases o.emitN cap v c.toNat <;> rfl

/-- A literal is one emitted byte, and then the records after it. -/
theorem rleDecodeTokens_literal (cap : Nat) {b : Byte} (literal : b ≠ 0x00) (rest : List Byte) (o : Output) :
    rleDecodeTokens cap (b :: rest) o = (o.emit cap b).bind (rleDecodeTokens cap rest) := by
  rw [rleDecodeTokens.eq_def]
  simp only [if_neg literal]
  cases o.emit cap b <;> rfl

/-- Emitting one byte several times appends the copies, or raises CapacityExceeded when they do not fit. -/
theorem Output.emitN_eq {cap : Nat} {o : Output} (held : o.len ≤ cap) (b : Byte) (n : Nat) :
    o.emitN cap b n =
      if o.len + n ≤ cap then .ok ⟨o.len + n, List.replicate n b ++ o.rev⟩ else .error .capacityExceeded := by
  rw [Output.emitN_eq_emitAll, Output.emitAll_eq held, List.length_replicate, List.reverse_replicate]

/-! ### The container (42_runlength R278, R279) -/

theorem rleDecode_fallback (cap : Nat) (rest : List Byte) :
    rleDecode cap (0xFF :: rest) = if rest.length ≤ cap then .ok rest else .error .capacityExceeded :=
  Output.finish_emitAll cap rest

/-- Without a leading 0xFF the container is decoded record by record from the empty output. -/
theorem rleDecode_records (cap : Nat) {buf : List Byte} (records : buf.head? ≠ some 0xFF) :
    rleDecode cap buf = Output.finish (rleDecodeTokens cap buf Output.empty) := by
  cases buf with
  | nil => rfl
  | cons b rest => exact if_neg fun fallback => records (congrArg some fallback)

/-- Settles O58, clause by clause. -/
theorem runDecoderRecords : Obligations.RunDecoderRecords := by
  refine ⟨rleDecode_fallback, fun cap b rest records => ?_, fun cap o _ => ⟨rfl,
    fun _ short => rleDecodeTokens_run_short cap short o, fun v rest => rleDecodeTokens_run_zero cap v rest o,
    fun c v rest counted fits => ?_, fun c v rest counted held long => ?_, fun b rest literal room => ?_,
    fun b rest literal full => ?_⟩⟩
  · rw [rleDecode_records cap (buf := b :: rest) fun fallback => records (Option.some.inj fallback)]
    show Output.finish (rleDecodeTokens cap (b :: rest) ⟨0, []⟩) = _
    cases rleDecodeTokens cap (b :: rest) ⟨0, []⟩ <;> rfl
  · rw [rleDecodeTokens_run cap counted, Output.emitN_eq (Nat.le_of_add_right_le fits), if_pos fits]
    rfl
  · rw [rleDecodeTokens_run cap counted, Output.emitN_eq held, if_neg (Nat.not_le.mpr long)]
    rfl
  · rw [rleDecodeTokens_literal cap literal, Output.emit_ok room]
    rfl
  · rw [rleDecodeTokens_literal cap literal, Output.emit_full full]
    rfl

end Sys2Proof.Machine
end

section
/-!
PROOF of O56: the tokens of a run. The scan counts a run as far as the cap, and the loop goes on behind it, so a string is coded run
by run.
-/

namespace Sys2Proof.Machine

/-! ### The runs of a string (42_runlength R270) -/

/-- `c` bytes `v` are the run at the cursor of a string that goes on with `rest`: at most 255, fewer only where another byte or the
end stops it. -/
structure CutRun (c : Nat) (v : Byte) (rest : List Byte) : Prop where
  nonempty : 1 ≤ c
  capped : c ≤ 255
  maximal : c = 255 ∨ rest.head? ≠ some v

theorem countRun_replicate {cap n : Nat} {v : Byte} {rest : List Byte} (capped : n ≤ cap)
    (maximal : n = cap ∨ rest.head? ≠ some v) : countRun v cap (List.replicate n v ++ rest) = n := by
  induction n generalizing cap with
  | zero =>
    rcases maximal with rfl | stopped
    · rfl
    · cases cap with
      | zero => rfl
      | succ cap =>
        cases rest with
        | nil => rfl
        | cons b rest => exact if_neg fun same => stopped (congrArg some same)
  | succ n ih =>
    cases cap with
    | zero => exact absurd capped (Nat.not_succ_le_zero n)
    | succ cap =>
      rw [List.replicate_succ, List.cons_append, countRun, if_pos rfl,
        ih (Nat.le_of_succ_le_succ capped) (maximal.imp_left Nat.succ.inj)]

/-- The scan counts a cut run, the byte at the cursor first. -/
theorem CutRun.runCount_eq {c : Nat} {v : Byte} {rest : List Byte} (run : CutRun (c + 1) v rest) :
    runCount v (List.replicate c v ++ rest) = c + 1 := by
  obtain ⟨-, capped, maximal⟩ := run
  exact congrArg Nat.succ (countRun_replicate (Nat.le_of_succ_le_succ capped) (maximal.imp_left Nat.succ.inj))

/-- The leading bytes `v` of a string, counted to at most `cap`. -/
theorem exists_leading_run (v : Byte) (cap : Nat) (bs : List Byte) :
    ∃ n rest, bs = List.replicate n v ++ rest ∧ n ≤ cap ∧ (n = cap ∨ rest.head? ≠ some v) := by
  induction cap generalizing bs with
  | zero => exact ⟨0, bs, rfl, le_rfl, .inl rfl⟩
  | succ cap ih =>
    by_cases leads : bs.head? = some v
    · obtain ⟨tail, rfl⟩ := List.head?_eq_some_iff.mp leads
      obtain ⟨n, rest, rfl, capped, maximal⟩ := ih tail
      exact ⟨n + 1, rest, rfl, Nat.succ_le_succ capped, maximal.imp_left (congrArg Nat.succ)⟩
    · exact ⟨0, bs, rfl, Nat.zero_le _, .inr leads⟩

theorem exists_cutRun (v : Byte) (tail : List Byte) : ∃ c rest, v :: tail = List.replicate c v ++ rest ∧ CutRun c v rest := by
  obtain ⟨n, rest, rfl, capped, maximal⟩ := exists_leading_run v 254 tail
  exact ⟨n + 1, rest, rfl, Nat.succ_pos n, Nat.succ_le_succ capped, maximal.imp_left (congrArg Nat.succ)⟩

/-- Induction along the runs of a string. -/
theorem run_induction {P : List Byte → Prop} (empty : P [])
    (run : ∀ c v rest, CutRun c v rest → P rest → P (List.replicate c v ++ rest)) (inp : List Byte) : P inp := by
  induction length : inp.length using Nat.strong_induction_on generalizing inp with
  | _ n ih =>
    cases inp with
    | nil => exact empty
    | cons v tail =>
      obtain ⟨c, rest, parts, cut⟩ := exists_cutRun v tail
      rw [parts, List.length_append, List.length_replicate] at length
      rw [parts]
      have shorter : rest.length < n := by
        have := cut.nonempty
        omega
      exact run c v rest cut (ih _ shorter rest rfl)

/-! ### The loop at a run (42_runlength R271 to R274) -/

theorem rleTokensFrom_skip (zr : ZeroRuns) (skip : Nat) (bs : List Byte) :
    rleTokensFrom zr skip bs = rleTokens zr (bs.drop skip) := by
  induction skip generalizing bs with
  | zero => rfl
  | succ skip ih =>
    cases bs with
    | nil => rfl
    | cons b rest => exact ih rest

theorem rleTokens_run (zr : ZeroRuns) {c : Nat} {v : Byte} {rest : List Byte} (run : CutRun c v rest) :
    rleTokens zr (List.replicate c v ++ rest) = runTokens zr c v ++ rleTokens zr rest := by
  obtain ⟨c, rfl⟩ := Nat.exists_eq_succ_of_ne_zero (Nat.ne_of_gt run.nonempty)
  rw [rleTokens, List.replicate_succ, List.cons_append, rleTokensFrom, run.runCount_eq, rleTokensFrom_skip,
    Nat.add_sub_cancel, List.drop_left' List.length_replicate]

/-- The tokens of a run, a run of zeros apart (R271, R272, R273). -/
theorem runTokens_eq (zr : ZeroRuns) (c : Nat) (v : Byte) :
    runTokens zr c v =
      if 3 ≤ c then [0x00, BitVec.ofNat 8 c, v]
      else if v = 0x00 ∧ zr = .escape then [0x00, BitVec.ofNat 8 c, 0x00]
      else List.replicate c v := by
  unfold runTokens Config.runMin
  by_cases long : 3 ≤ c
  · rw [if_pos (.inl long), if_pos long]
  · rw [if_neg long]
    by_cases zeros : v = 0x00 ∧ zr = .escape
    · rw [if_pos (.inr zeros), if_pos zeros, zeros.1]
    · rw [if_neg (not_or.mpr ⟨long, zeros⟩), if_neg zeros]

/-! ### The container (42_runlength R275) -/

theorem rleEncode_fallback {zr : ZeroRuns} {inp : List Byte} (nonempty : inp ≠ [])
    (notShorter : inp.length ≤ (rleTokens zr inp).length) : rleEncode zr inp = 0xFF :: inp := by
  rw [rleEncode, if_neg nonempty, if_pos notShorter]

theorem rleEncode_tokens {zr : ZeroRuns} {inp : List Byte} (shorter : (rleTokens zr inp).length < inp.length) :
    rleEncode zr inp = rleTokens zr inp := by
  rw [rleEncode, if_neg (List.ne_nil_of_length_pos (Nat.zero_lt_of_lt shorter)), if_neg (Nat.not_le.mpr shorter)]

/-- What RleEncode gives: the fallback record, or tokens that are not longer than the input. -/
theorem rleEncode_cases (zr : ZeroRuns) (inp : List Byte) :
    rleEncode zr inp = 0xFF :: inp ∨
      ((rleTokens zr inp).length ≤ inp.length ∧ rleEncode zr inp = rleTokens zr inp) := by
  by_cases empty : inp = []
  · subst empty
    exact .inr ⟨le_rfl, rfl⟩
  · rcases Nat.lt_or_ge (rleTokens zr inp).length inp.length with shorter | notShorter
    · exact .inr ⟨shorter.le, rleEncode_tokens shorter⟩
    · exact .inl (rleEncode_fallback empty notShorter)

/-- Settles O56: the loop's equation at a run, and which of the two forms the container has. -/
theorem runsAreEncoded : Obligations.RunsAreEncoded := by
  refine ⟨fun zr c v rest nonempty capped maximal => ?_, fun zr => ⟨rfl, rfl⟩,
    fun zr inp nonempty => ⟨rleEncode_fallback nonempty, rleEncode_tokens⟩⟩
  rw [rleTokens_run zr ⟨nonempty, capped, maximal⟩, runTokens_eq]

end Sys2Proof.Machine
end

section
/-!
PROOF of O57: what the run decoder gives for the run encoder's container. Decoded record by record the tokens emit the input, under
any output; but a stream whose first token is a literal 0xFF is taken for a fallback record.
-/

namespace Sys2Proof.Machine

/-! ### The tokens of a run, decoded -/

theorem Output.emitAll_append (cap : Nat) (o : Output) (as bs : List Byte) :
    o.emitAll cap (as ++ bs) = (o.emitAll cap as).bind (fun o' => o'.emitAll cap bs) := by
  induction as generalizing o with
  | nil => rfl
  | cons a as ih =>
    rw [List.cons_append, Output.emitAll, Output.emitAll]
    cases o.emit cap a with
    | error e => rfl
    | ok o' => exact ih o'

/-- Copies of a literal emit what a run record of them emits. -/
theorem rleDecodeTokens_literals (cap : Nat) {v : Byte} (literal : v ≠ 0x00) (n : Nat) (rest : List Byte) (o : Output) :
    rleDecodeTokens cap (List.replicate n v ++ rest) o = (o.emitN cap v n).bind (rleDecodeTokens cap rest) := by
  induction n generalizing o with
  | zero => rfl
  | succ n ih =>
    rw [List.replicate_succ, List.cons_append, rleDecodeTokens_literal cap literal, Output.emitN]
    cases o.emit cap v with
    | error e => rfl
    | ok o' => exact ih o'

/-- The decoder reads back the count of the encoder's run record: a run has 1 to 255 bytes. -/
theorem CutRun.decode_record {c : Nat} {v : Byte} {following : List Byte} (run : CutRun c v following) (cap : Nat)
    (rest : List Byte) (o : Output) :
    rleDecodeTokens cap (0x00 :: BitVec.ofNat 8 c :: v :: rest) o = (o.emitN cap v c).bind (rleDecodeTokens cap rest) := by
  obtain ⟨nonempty, capped, -⟩ := run
  have count : (BitVec.ofNat 8 c).toNat = c := by rw [BitVec.toNat_ofNat]; omega
  have counted : BitVec.ofNat 8 c ≠ 0x00 := fun zero =>
    Nat.ne_of_gt nonempty (count.symm.trans (congrArg BitVec.toNat zero))
  rw [rleDecodeTokens_run cap counted, count]

/-- With P_RLE_ZERO_RUNS = ESCAPE no literal is 0x00, so the tokens of a run emit the run. -/
theorem CutRun.decode {c : Nat} {v : Byte} {following : List Byte} (run : CutRun c v following) (cap : Nat)
    (rest : List Byte) (o : Output) :
    rleDecodeTokens cap (runTokens .escape c v ++ rest) o = (o.emitN cap v c).bind (rleDecodeTokens cap rest) := by
  unfold runTokens
  split
  case isTrue record => exact run.decode_record cap rest o
  case isFalse literals => exact rleDecodeTokens_literals cap (fun zero => literals (.inr ⟨zero, rfl⟩)) c rest o

/-- Decoded record by record, the encoder's tokens emit its input. -/
theorem rleDecodeTokens_rleTokens (cap : Nat) (inp : List Byte) (o : Output) :
    rleDecodeTokens cap (rleTokens .escape inp) o = o.emitAll cap inp := by
  induction inp using run_induction generalizing o with
  | empty => rfl
  | run c v rest run ih =>
    rw [rleTokens_run .escape run, run.decode, Output.emitAll_append, Output.emitN_eq_emitAll]
    exact congrArg _ (funext ih)

/-! ### A stream that begins with a literal 0xFF (42_runlength R279, R283) -/

/-- The input begins with a run of three bytes 0xFF or more. -/
theorem CutRun.three_le_iff {c : Nat} {rest : List Byte} (run : CutRun c 0xFF rest) :
    3 ≤ c ↔ ∃ after, List.replicate c 0xFF ++ rest = 0xFF :: 0xFF :: 0xFF :: after := by
  obtain ⟨nonempty, -, maximal⟩ := run
  match c with
  | 0 => exact absurd nonempty (by decide)
  | 1 | 2 =>
    have stopped := maximal.resolve_left (by decide)
    exact iff_of_false (by decide) fun ⟨after, same⟩ => stopped (by cases same; rfl)
  | c + 3 => exact iff_of_true (Nat.le_add_left 3 c) ⟨_, rfl⟩

/-- Only a run of one or two bytes 0xFF has tokens that begin with 0xFF. -/
theorem CutRun.head?_tokens_iff {c : Nat} {v : Byte} {following : List Byte} (run : CutRun c v following) (zr : ZeroRuns)
    (rest : List Byte) : (runTokens zr c v ++ rest).head? = some 0xFF ↔ v = 0xFF ∧ ¬ 3 ≤ c := by
  unfold runTokens Config.runMin
  split
  case isTrue record =>
    refine iff_of_false (fun same => absurd (Option.some.inj same) (by decide)) ?_
    rintro ⟨rfl, short⟩
    exact absurd (record.resolve_left short).1 (by decide)
  case isFalse literals =>
    obtain ⟨c, rfl⟩ := Nat.exists_eq_succ_of_ne_zero (Nat.ne_of_gt run.nonempty)
    exact Option.some_inj.trans (and_iff_left fun long => literals (.inl long)).symm

/-- The stream begins with a literal 0xFF exactly when the input begins with a run of one or two bytes 0xFF. -/
theorem rleTokens_head?_iff (zr : ZeroRuns) (inp : List Byte) :
    (rleTokens zr inp).head? = some 0xFF ↔
      inp.head? = some 0xFF ∧ ¬ ∃ rest, inp = 0xFF :: 0xFF :: 0xFF :: rest := by
  cases inp with
  | nil => exact iff_of_false nofun nofun
  | cons v tail =>
    obtain ⟨c, rest, parts, run⟩ := exists_cutRun v tail
    have tokens : (rleTokens zr (v :: tail)).head? = some 0xFF ↔ v = 0xFF ∧ ¬ 3 ≤ c := by
      rw [parts, rleTokens_run zr run]
      exact run.head?_tokens_iff zr _
    rw [tokens, List.head?_cons, Option.some_inj]
    refine and_congr_right ?_
    rintro rfl
    rw [run.three_le_iff, parts]

/-- A stream that does not begin with a literal 0xFF decodes to the input (R283). -/
theorem rleDecode_rleTokens {cap : Nat} {inp : List Byte} (fits : inp.length ≤ cap)
    (records : (rleTokens .escape inp).head? ≠ some 0xFF) : rleDecode cap (rleTokens .escape inp) = .ok inp := by
  rw [rleDecode_records cap records, rleDecodeTokens_rleTokens, Output.finish_emitAll, if_pos fits]

/-- Settles O57: the fallback record gives the input back, and so does a stream unless its leading 0xFF is taken for that record's. -/
theorem runCoderRoundTrip : Obligations.RunCoderRoundTrip := by
  intro inp cap fits
  rcases rleEncode_cases .escape inp with fallback | ⟨bound, tokens⟩
  · refine ⟨fun _ => ?_, fun notFallback => absurd fallback notFallback⟩
    rw [fallback, rleDecode_fallback, if_pos fits]
  · rw [tokens]
    refine ⟨fun back => rleDecode_rleTokens fits fun literal => ?_, fun _ lead noRecord => ?_⟩
    · obtain ⟨lead, noRecord⟩ := (rleTokens_head?_iff .escape inp).mp literal
      have notFallback : rleTokens .escape inp ≠ 0xFF :: inp := fun same => by
        rw [same, List.length_cons] at bound
        exact Nat.not_succ_le_self _ bound
      exact (back.resolve_left notFallback).elim (absurd lead) noRecord
    · obtain ⟨stream, literal⟩ := List.head?_eq_some_iff.mp ((rleTokens_head?_iff .escape inp).mpr ⟨lead, noRecord⟩)
      rw [literal, List.length_cons] at bound
      rw [literal, rleDecode_fallback, if_pos (by omega), List.tail_cons]

end Sys2Proof.Machine
end

section
/-!
PROOF of O6, O7 and O8: what a write to CMD does that starts no operation or one that completes later.
-/

namespace Sys2Proof.Machine

theorem exec_later {s : State} (idle : s.seq = .idle) (later : s.schedule.headD 0 ≠ 0) {i : Instr} (start : i ≠ .nop) :
    exec i s = .next (s.accept i.op i.alg) := by
  rw [exec_start start, State.issue_later idle later]

/-- Settles O6: an operation that completes later leaves the accepted state. -/
theorem acceptedStartLatches : Obligations.AcceptedStartLatches := by
  intro i s ⟨_, start⟩ idle later
  have status : statusWord true false errNone = 0x00000001 := by decide
  exact ⟨_, exec_later idle later start, ⟨rfl, rfl, rfl⟩, rfl, status, rfl, rfl,
    ⟨rfl, rfl, rfl, rfl, rfl, rfl, rfl, rfl, rfl⟩, rfl, rfl, rfl, rfl, rfl, rfl⟩

/-- Settles O7: no command changes a BUSY state. -/
theorem startWhileBusyIgnored : Obligations.StartWhileBusyIgnored := fun s busy =>
  ⟨fun i _ => exec_busy busy i, fun w _ => (s.serve_write_cmd w).trans (exec_busy busy _)⟩

/-- Settles O8: a word with START = 0 decodes to NOP. -/
theorem nopChangesNothing : Obligations.NopChangesNothing := by
  refine fun s => ⟨rfl, fun w noStart => (s.serve_write_cmd w).trans ?_⟩
  rw [decodeCmd_noStart noStart]
  rfl

end Sys2Proof.Machine
end

section
/-!
PROOF of O9 and O26: every operation completes. In a ready state it does so in the step of its START; a running one does so when
its completion is due, and every access served before leaves one access less to wait for.
-/

namespace Sys2Proof.Machine

/-! ### The completion step (43_dispatch R315, R323) -/

theorem State.completeLatched_ends (s : State) : OperationEnds s s.completeLatched :=
  s.completeLatched_eq ▸ operation_ends (selectInstr_ne_nop s.opL s.algL) s

theorem step_completes {s : State} (due : s.CompletionDue) : step s = .next s.completeLatched := by
  obtain ⟨busy, passed | nothing⟩ := due
  · simp only [step, State.turn, busy, passed]
  · cases wait : s.wait <;> simp only [step, State.turn, busy, nothing, wait]

/-- Settles O9: every operation ends IDLE with DONE and the latched ALG; accepting a START latches its fields. -/
theorem everyCommandCompletes : Obligations.EveryCommandCompletes := by
  refine ⟨fun i s ⟨_, start⟩ ready => ?_, fun s busy due => ?_⟩
  · have ends := operation_ends start (s.accept i.op i.alg)
    exact ⟨_, exec_ready ready start, ends.seq, ends.done, ⟨ends.opL, ends.algL, ends.nL⟩, ends.algTag⟩
  · have ends := s.completeLatched_ends
    exact ⟨_, step_completes ⟨busy, due⟩, ends.seq, ends.done, ends.algTag⟩

/-! ### Accesses served while an operation runs (43_dispatch R331) -/

/-- A write while BUSY has no effect but REFUSED (20_memory R70). -/
theorem State.writeBus_busy {s : State} (busy : s.seq = .busy) (addr : Word) (size : Nat) (w : Word) :
    s.writeBus addr size w = .next s ∨ s.writeBus addr size w = .next s.markRefused := by
  simp only [State.writeBus, exec_busy busy, State.writeReg_busy busy, State.writeBuf_busy busy, ite_self]
  split
  · split
    · exact .inl rfl
    · exact .inr rfl
  · split
    · exact .inl rfl
    · exact .inr rfl
  · exact .inr rfl

theorem reset_notMem_blockReads (addr : Word) (m : Nat) : HostAccess.reset ∉ blockReads addr m := by
  simp [blockReads]

/-- An operation is running, with n accesses still to pass, and the host sends no reset. -/
structure State.Runs (s : State) (n : Nat) : Prop where
  busy : s.seq = .busy
  wait : s.wait = n
  noReset : HostAccess.reset ∉ s.pending

theorem State.Runs.respond {s : State} {n : Nat} (runs : s.Runs n) (r : ReadResult) : (s.respond r).Runs n :=
  ⟨by simp [runs.busy], by simp [runs.wait], by simp [runs.noReset]⟩

/-- An access leaves the operation running: a poll puts only itself back, a block read adds only reads. -/
theorem State.Runs.serve {s t : State} {n : Nat} (runs : s.Runs n) {a : HostAccess} (notReset : a ≠ .reset)
    (served : s.serve a = .next t) : t.Runs n := by
  cases a with
  | reset => exact absurd rfl notReset
  | read addr size =>
    cases served
    exact runs.respond _
  | write addr size w =>
    rcases State.writeBus_busy runs.busy addr size w with same | marked
    · cases same.symm.trans served
      exact runs
    · cases marked.symm.trans served
      exact ⟨runs.busy, runs.wait, runs.noReset⟩
  | poll addr hi lo v =>
    have answered := runs.respond (s.readBus addr 4)
    simp only [State.serve] at served
    split at served <;> cases served
    · exact answered
    · exact ⟨answered.busy, answered.wait, by simp [runs.noReset]⟩
  | readBlock lenAddr dataAddr =>
    have answered := runs.respond (s.readBus lenAddr 4)
    cases served
    exact ⟨answered.busy, answered.wait, by simp [reset_notMem_blockReads, runs.noReset]⟩

/-- A running operation completes, or an access passes. -/
theorem State.Runs.completes_or_passes {s : State} {n : Nat} (runs : s.Runs n) :
    step s = .next s.completeLatched ∨ ∃ t k, n = k + 1 ∧ step s = .next t ∧ t.Runs k := by
  cases n with
  | zero => exact .inl (step_completes ⟨runs.busy, .inl runs.wait⟩)
  | succ k =>
    cases next : s.pending with
    | nil => exact .inl (step_completes ⟨runs.busy, .inr next⟩)
    | cons a rest =>
      obtain ⟨busy, waiting, noReset⟩ := runs
      rw [next, List.mem_cons, not_or] at noReset
      obtain ⟨notReset, restNoReset⟩ := noReset
      have passing : State.Runs { s with pending := rest, wait := k } k := ⟨busy, rfl, restNoReset⟩
      obtain ⟨t, served, -⟩ := State.serve_cases { s with pending := rest, wait := k } (Ne.symm notReset)
      exact .inr ⟨t, k, rfl, (step_serves_busy busy waiting next).trans served, passing.serve (Ne.symm notReset) served⟩

theorem run_succ {s t : State} (h : step s = .next t) (k : Nat) :
    Sys2Proof.core.run (k + 1) s = Sys2Proof.core.run k t := by
  have coreStep : Sys2Proof.core.step s = .next t := h
  simp only [Host.Core.run, coreStep]

/-- A running operation is done one step after its last access, or earlier. -/
theorem State.Runs.terminates {s : State} {n : Nat} (runs : s.Runs n) :
    ∃ (k : Nat) (t : State), k ≤ n + 1 ∧ Sys2Proof.core.run k s = .next t ∧ t.seq = .idle ∧ t.done = true := by
  induction n using Nat.strong_induction_on generalizing s with
  | _ n ih =>
    rcases runs.completes_or_passes with completes | ⟨t, k, rfl, passes, left⟩
    · have ends := s.completeLatched_ends
      exact ⟨1, _, Nat.le_add_left 1 n, run_succ completes 0, ends.seq, ends.done⟩
    · obtain ⟨steps, u, bound, run, completed⟩ := ih k (Nat.lt_succ_self k) left
      exact ⟨steps + 1, u, Nat.succ_le_succ bound, (run_succ passes steps).trans run, completed⟩

/-- Settles O26: a BUSY block whose host sends no reset is such a running operation. -/
theorem operationsTerminate : Obligations.OperationsTerminate :=
  fun _ busy noReset => State.Runs.terminates ⟨busy, rfl, noReset⟩

end Sys2Proof.Machine
end

section
/-!
PROOF of O16 and O17: the operations that read no input, because no coder has their ALG or because the input does not fit. They
fail, and unwritten input does not set REFUSED.
-/

namespace Sys2Proof.Machine

/-- What an operation that fails before it reads any input reports (43_dispatch R314, R329, R330), and its frame. -/
theorem State.accept_errorFinish {s : State} {alg : Byte} (readsNone : ¬ alg.toNat < 3 ∨ s.params.maxIn < s.inLen.toNat) (op : Op)
    (e : CodecError) :
    OperationFrame s ((s.accept op alg).errorFinish e) ∧ ((s.accept op alg).errorFinish e).refused = s.refused ∧
      Failed ((s.accept op alg).errorFinish e) e alg := by
  have written : s.startReadsUnwritten alg = false := by
    rcases readsNone with unsupported | long
    · simp [State.startReadsUnwritten, supportedAlg, unsupported]
    · simp [State.startReadsUnwritten, Nat.not_le.mpr long]
  have refused : (s.accept op alg).refused = s.refused := by rw [State.accept_refused, written, Bool.or_false]
  exact ⟨(State.errorFinish_frame _ e).of_accept, refused, State.errorFinish_failed _ e⟩

/-- Settles O16: UNSUP.ENC and UNSUP.DEC are the same error. -/
theorem unsupportedCompletes : Obligations.UnsupportedCompletes := by
  intro s alg unsupported ready
  have fails (op : Op) := State.accept_errorFinish (s := s) (.inl (Nat.not_lt.mpr unsupported)) op .unsupportedAlgorithm
  exact ⟨⟨_, exec_ready ready nofun, fails .compress⟩, ⟨_, exec_ready ready nofun, fails .decompress⟩⟩

/-- The admission check fails before the coder runs (43_dispatch R314). -/
theorem operationOf_long {i : Instr} (coder : HasCoder i) {s : State} (long : s.params.maxIn < s.nL.toNat) :
    operationOf i s = s.errorFinish .capacityExceeded := by
  have refused : s.admitted = false := decide_eq_false (Nat.not_le.mpr long)
  have compress (f) : s.runCompress f = s.errorFinish .capacityExceeded := by simp [State.runCompress, refused]
  have decompress (f) : s.runDecompress f = s.errorFinish .capacityExceeded := by simp [State.runDecompress, refused]
  rcases coder with rfl | rfl | rfl | rfl | rfl | rfl
  · exact compress (hufEncode (policyOf s.params.treeOrder))
  · exact decompress hufDecode
  · exact compress (fun inp => (rleEncode s.params.zeroRuns inp, []))
  · exact decompress rleDecode
  · exact compress (fun inp => (lzEncode inp, []))
  · exact decompress lzDecode

/-- Settles O17: the coder's command is the error of the admission check. -/
theorem longInputFails : Obligations.LongInputFails := by
  intro i s coder ready long
  have start : i ≠ .nop := by rintro rfl; simp [HasCoder] at coder
  refine ⟨_, exec_ready ready start, ?_⟩
  rw [operationOf_long coder (s := s.accept i.op i.alg) long]
  exact State.accept_errorFinish (.inr long) i.op .capacityExceeded

end Sys2Proof.Machine
end

section
/-!
PROOF of O60 and O19: how long a container is, and what the guard makes of it (43_dispatch R317, R324).
-/

namespace Sys2Proof.Machine

/-! ### The length of a container (43_dispatch R324) -/

/-- The single-symbol record is 5 bytes, the fallback record n + 1; a general container is shorter than the input. -/
theorem hufEncode_length_le (order : TreePolicy) (inp : List Byte) : (hufEncode order inp).1.length ≤ max (inp.length + 1) 5 := by
  rcases hufEncode_cases order inp with ⟨-, empty⟩ | ⟨v, -, single⟩ | ⟨x, y, rest, -, tree⟩
  · simp [empty]
  · simp [single]
  · rw [tree]
    rcases encodeWithTree_cases (buildTree (order inp) x (y :: rest)) inp with ⟨-, fallback⟩ | ⟨shorter, general⟩
    · simp [fallback]
    · rw [general, generalContainer_length]
      omega

theorem lzEncode_length_le (inp : List Byte) : (lzEncode inp).length ≤ inp.length + 1 := by
  rcases lzEncode_cases inp with ⟨-, -, fallback⟩ | ⟨-, bound, tokens⟩
  · rw [fallback, List.length_cons]
  · rw [tokens]
    omega

theorem rleEncode_length_le (zr : ZeroRuns) (inp : List Byte) : (rleEncode zr inp).length ≤ inp.length + 1 := by
  rcases rleEncode_cases zr inp with fallback | ⟨bound, tokens⟩
  · rw [fallback, List.length_cons]
  · rw [tokens]
    omega

/-- Settles O60, coder by coder. -/
theorem compressOutputsFit : Obligations.CompressOutputsFit := by
  intro p order inp ⟨nonempty, _, maxOut, _, maxAux, _⟩ fits
  exact ⟨by omega, maxOut, maxAux, hufEncode_length_le order inp, hufEncode_aux_le order inp,
    (lzEncode_length_le inp).trans (le_max_left ..), fun zr => (rleEncode_length_le zr inp).trans (le_max_left ..)⟩

/-! ### The guard (43_dispatch R317, R320, R321) -/

/-- What a compress command does with a loaded input, whichever its coder. -/
theorem compress_completes {i : Instr} (compress : IsCompress i) {s : State} {inp : List Byte} (hp : s.params.Legal)
    (ready : s.Ready) (input : s.HoldsInput inp) :
    ∃ t c a, exec i s = .next t ∧ CompressOutcome s.params t inp.length c a i.alg := by
  rcases compress with rfl | rfl | rfl
  · obtain ⟨t, done, -, -, outcome⟩ := hufEncCompletes s inp hp ready input
    exact ⟨t, _, _, done, outcome⟩
  · obtain ⟨t, done, -, -, outcome⟩ := rleEncCompletes s inp hp ready input
    exact ⟨t, _, _, done, outcome⟩
  · obtain ⟨t, done, -, -, outcome⟩ := lzEncCompletes s inp hp ready input
    exact ⟨t, _, _, done, outcome⟩

/-- RESULT_SIZE is the smaller of OUT_LEN and n, so it differs from OUT_LEN exactly if the container is longer than n. -/
theorem Compressed.resultSize_ne_outLen_iff {t : State} {n : Nat} {c a : List Byte} {alg : Byte} (h : Compressed t n c a alg) :
    t.resultSize ≠ t.outLen ↔ n < t.outLen.toNat := by
  rw [Ne, ← BitVec.toNat_inj, h.resultSize, h.outLen]
  omega

/-- BYTES_SAVED and RESULT_SIZE make up ORIG_SIZE, and the ratio is at most 1 with a denominator that is not 0. -/
theorem Compressed.statistics {t : State} {n : Nat} {c a : List Byte} {alg : Byte} (h : Compressed t n c a alg) :
    t.bytesSaved.toNat + t.resultSize.toNat = t.origSize.toNat ∧ t.ratioNum.toNat ≤ t.ratioDen.toNat ∧ 0 < t.ratioDen.toNat := by
  rw [h.bytesSaved, h.resultSize, h.origSize, h.ratioNum, h.ratioDen]
  split <;> omega

/-- Settles O19: with SATURATE the guard's failure is ruled out, so the compress succeeds. -/
theorem guardSaturates : Obligations.GuardSaturates := by
  intro i s inp compress hp saturate ready input
  obtain ⟨t, c, a, done, ⟨fault, -⟩ | ⟨-, success⟩⟩ := compress_completes compress hp ready input
  · exact nomatch saturate.symm.trans fault
  · obtain ⟨saved, ratio, den⟩ := success.statistics
    obtain ⟨length, -⟩ := input
    refine ⟨t, done, success.status.err, BitVec.eq_of_toNat_eq (success.origSize.trans length.symm), ?_,
      success.resultSize_ne_outLen_iff, saved, ratio, fun zero => ?_⟩
    · rw [success.resultSize, success.outLen]
    · rw [zero] at den
      exact absurd den (by decide)

end Sys2Proof.Machine
end

section
/-!
PROOF of O28 and O30: two completions of one command report the same, as far as the latches and the input agree
(`SameLatches.operation`); neither when an operation completes nor what else the state holds matters.
-/

namespace Sys2Proof.Machine

/-- Settles O28: both completions run the command's operation over the same latches, memory and free values. -/
theorem laterCompletionGivesTheSame : Obligations.LaterCompletionGivesTheSame := by
  intro i s k more ⟨wf, start⟩ idle
  have atOnce := exec_ready (s := { s with schedule := 0 :: more }) ⟨idle, rfl⟩ start
  have later := exec_later (s := { s with schedule := (k + 1) :: more }) idle (Nat.succ_ne_zero k) start
  refine ⟨_, _, _, atOnce, later, rfl, rfl, step_completes ⟨rfl, .inl rfl⟩, ?_⟩
  rw [State.completeLatched_eq]
  simp only [State.accept_opL, State.accept_algL, selectInstr_op_alg start wf]
  exact SameLatches.operation ⟨rfl, rfl, rfl⟩ start fun _ _ => rfl

/-- Settles O30: accepting the command latches the same in both states, and a written input is read as it is. -/
theorem resultsAreAFunctionOfTheInput : Obligations.ResultsAreAFunctionOfTheInput := by
  intro i s u ⟨_, start⟩ _ params readyS readyU inLen written
  have latches : SameLatches (s.accept i.op i.alg) (u.accept i.op i.alg) := ⟨params, rfl, inLen⟩
  exact ⟨_, _, exec_ready readyS start, exec_ready readyU start,
    latches.operation start fun coder fits => State.input_eq_of_written latches.nL (written coder fits)⟩

end Sys2Proof.Machine
end

section
/-!
PROOF of O18 and O23: what a command leaves alone (`OperationFrame`), and that no step stops or changes the parameters.
-/

namespace Sys2Proof.Machine

/-! ### The frame of a command (60_exceptions R357, R358, 20_memory R67) -/

theorem OperationFrame.refl (s : State) : OperationFrame s s :=
  ⟨rfl, rfl, rfl, rfl, rfl, fun _ _ => rfl⟩

/-- With legal parameters every result fits the regions of OUT and AUX_OUT, whatever the input holds (20_memory R61). -/
theorem operation_frame {i : Instr} (start : i ≠ .nop) {s : State} (hp : s.params.Legal) :
    OperationFrame s (operationOf i s) := by
  obtain ⟨-, maxIn, -, maxOut, -, -⟩ := hp
  rcases operation_cases start s with ⟨e, failed⟩ | ⟨c, a, fits, container, tree, compressed⟩ | ⟨d, output, decompressed⟩
  · exact failed ▸ s.errorFinish_frame e
  · have inRegion : s.nL.toNat + 4 ≤ regionSpan := by
      rw [regionSpan_eq]
      omega
    exact compressed ▸ s.compressFinish_frame c a (container.trans inRegion)
      (tree.trans ((Nat.le_add_right _ 4).trans inRegion))
  · exact decompressed ▸ s.decompressFinish_frame d (output.trans maxOut)

/-- What a START can do: nothing while BUSY (43_dispatch R311), take its latches (R310), or also run its operation at once. -/
theorem State.issue_cases (s : State) (op : Op) (alg : Byte) (run : State → State) :
    s.issue op alg run = s ∨ s.issue op alg run = s.accept op alg ∨ s.issue op alg run = run (s.accept op alg) := by
  cases seq : s.seq with
  | busy => exact .inl (State.issue_busy seq ..)
  | idle =>
    by_cases atOnce : s.schedule.headD 0 = 0
    · exact .inr (.inr (State.issue_ready ⟨seq, atOnce⟩ ..))
    · exact .inr (.inl (State.issue_later seq atOnce ..))

theorem State.issue_frame {i : Instr} (start : i ≠ .nop) {s : State} (hp : s.params.Legal) (op : Op) (alg : Byte) :
    OperationFrame s (s.issue op alg (operationOf i)) := by
  rcases s.issue_cases op alg (operationOf i) with ignored | accepted | run
  · rw [ignored]
    exact .refl s
  · rw [accepted]
    exact (OperationFrame.refl (s.accept op alg)).of_accept
  · rw [run]
    exact (operation_frame start (s := s.accept op alg) hp).of_accept

/-- Settles O18: a NOP changes nothing, and every other command is issued. -/
theorem commandFrame : Obligations.CommandFrame := by
  intro i s t hp done
  by_cases nop : i = .nop
  · subst nop
    cases done
    exact .refl s
  · cases (exec_start nop s).symm.trans done
    exact State.issue_frame nop hp i.op i.alg

/-! ### Every step answers (60_exceptions R357, R359, 00_scope R9) -/

theorem State.issue_params {i : Instr} (start : i ≠ .nop) (s : State) (op : Op) (alg : Byte) :
    (s.issue op alg (operationOf i)).params = s.params := by
  rcases s.issue_cases op alg (operationOf i) with ignored | accepted | run
  · rw [ignored]
  · rw [accepted, State.accept_params]
  · rw [run]
    exact (operation_ends start (s.accept op alg)).params

/-- Every host access is answered, a refused one and the reset included, and none changes the parameters. -/
theorem State.serve_answers (s : State) (a : HostAccess) : ∃ t, s.serve a = .next t ∧ t.params = s.params := by
  by_cases reset : a = .reset
  · subst reset
    exact ⟨s.hardReset, rfl, s.hardReset_params⟩
  · obtain ⟨t, answer, served⟩ := s.serve_cases reset
    refine ⟨t, answer, ?_⟩
    rcases served.outputsKept_or_start with kept | ⟨-, -, op, alg, i, start, rfl⟩
    · exact kept.params
    · exact State.issue_params start s op alg

/-- Settles O23, by the kinds of a turn: waiting, a host access, or the completion of the latched operation. -/
theorem stepAlwaysAnswers : Obligations.StepAlwaysAnswers := by
  intro s
  unfold step
  rcases s.turn_cases with ⟨-, -, waits⟩ | ⟨a, rest, -, -, serves⟩ | ⟨a, rest, k, -, -, -, serves⟩ | ⟨-, -, completes⟩
  · exact ⟨s, waits, rfl⟩
  · exact serves ▸ State.serve_answers { s with pending := rest } a
  · exact serves ▸ State.serve_answers { s with pending := rest, wait := k } a
  · exact ⟨s.completeLatched, completes, s.completeLatched_ends.params⟩

end Sys2Proof.Machine
end

section
/-!
PROOF of O5 and O24: the external reset is served as any other access, and `State.hardReset` gives the values of
70_reset R390; the state after power-on is one that a reset leaves as it is.
-/

namespace Sys2Proof.Machine

/-! ### The external reset (70_reset R390, R391) -/

/-- The reset is an access like another: an operation that runs does not complete first. -/
theorem State.Serves.step_reset {s : State} (serves : s.Serves .reset) :
    ∃ rest k, step s = .next (State.hardReset { s with pending := rest, wait := k }) := by
  obtain ⟨turn, rest, next⟩ := serves
  cases seq : s.seq with
  | idle => exact ⟨rest, s.wait, step_serves_idle seq next⟩
  | busy =>
    have passing : 0 < s.wait := turn.resolve_left fun idle => nomatch seq.symm.trans idle
    obtain ⟨k, wait⟩ := Nat.exists_eq_add_one.mpr passing
    exact ⟨rest, k, step_serves_busy seq wait next⟩

theorem State.hardReset_resetValues (s : State) : ResetValues s.hardReset where
  seq := rfl
  cmd := rfl
  status := (by decide : statusWord false false 0 = 0)
  inLen := rfl
  auxInLen := rfl
  outLen := rfl
  auxOutLen := rfl
  origSize := rfl
  resultSize := rfl
  bytesSaved := rfl
  ratioNum := rfl
  ratioDen := rfl
  elapsed := rfl
  algTag := rfl
  reserved := fun _ low _ => s.hardReset.readReg_reserved low
  unwritten := fun _ _ => rfl

/-- Power-on gives what a reset gives. -/
theorem State.reset_hardReset : State.reset.hardReset = State.reset := rfl

/-- Settles O5: the step is the reset of the state without that access, whatever SEQ is. -/
theorem resetGivesTheResetValues : Obligations.ResetGivesTheResetValues := by
  refine ⟨fun s serves => ?_, State.reset_hardReset ▸ State.reset.hardReset_resetValues⟩
  obtain ⟨rest, k, answer⟩ := serves.step_reset
  exact ⟨_, answer, rfl, State.hardReset_resetValues _⟩

/-! ### The invariant after power-on (00_scope R9, 70_reset R390) -/

/-- The capacities chosen for the reset state (log 1) keep R9's constraints. -/
theorem resetParams_legal : Config.resetParams.Legal := by decide

theorem State.reset_inv : State.reset.Inv where
  legal := resetParams_legal
  canonical := State.reset_mem_wf
  mapped := nofun
  outBelow := nofun
  auxBelow := nofun
  outFits := Nat.zero_le _
  auxFits := Nat.zero_le _
  busyNotDone := nofun
  errKnown := Nat.zero_le _
  errReported := fun failed => absurd rfl failed
  ratio := by decide
  saved := Nat.zero_le _
  algTagByte := by decide

/-- Settles O24: every buffer is empty, every length and size is 0, and the ratio is 0 to 1. -/
theorem invariantHoldsAtReset : Obligations.InvariantHoldsAtReset := State.reset_inv

end Sys2Proof.Machine
end
